-- ==== Sys2Proof/Word.lean ====
section
/-! DEFINITION. The words and numbers of the spec (`00_scope.md` R6, R8, R11, R13 to R16): what is a
fixed-width word on this hardware is a bit vector, every other number is a natural. -/

namespace Sys2Proof

/-- One limb of a VUI, one byte of DMEM: `LIMB_BITS` = 8 (R6). -/
abbrev Byte := BitVec 8

/-- A 32-bit word: an instruction (R11, R100) or a host data word (R64). -/
abbrev Word := BitVec 32

/-- The program counter and FAULT_PC: a 16-bit instruction index (R11, R37). -/
abbrev PcWord := BitVec 16

/-- A host byte address: 18 bits (R11, R43(c)). -/
abbrev HostAddr := BitVec 18

/-- A register-select field: one of x0 .. x15 (R8, R11). -/
abbrev Reg := Fin 16

/-- The modulus of a VUI of `L` limbs, 2^(8L) (R15, R32). -/
def modulus (L : Nat) : Nat := 2 ^ (8 * L)

end Sys2Proof
end

