-- ==== Sys2Proof/Syntax.lean ====
section
/-! DEFINITION. The instructions: one constructor per row of `spec/opcode_table.json` (R104), the
pseudo-instructions of R110 and the names of what a decoder can reject (R105).

An immediate of formats I, S and U is the natural `zext_16(imm16)`; an offset of formats B and J is the
integer `sext_16(imm16)` (R101). `Instr.wf` (WellFormed.lean) says which values fit the encoding. -/

namespace Sys2Proof

/-- The 40 instructions of LBV1-I (R2, R104), operands in assembler order (R109). -/
inductive Instr where
  /-- R330. -/
  | nop
  /-- R331. -/
  | halt
  /-- R332. -/
  | jmp (off : Int)
  /-- R333. -/
  | bz (rs1 : Reg) (off : Int)
  /-- R334. -/
  | bnz (rs1 : Reg) (off : Int)
  /-- R172. -/
  | new (rd : Reg) (imm : Nat)
  /-- R178. -/
  | seti (rd : Reg) (imm : Nat)
  /-- R174. -/
  | cpy (rd rs1 : Reg)
  /-- R176. -/
  | mov (rd rs1 : Reg)
  /-- R180. -/
  | maxv (rd rs1 : Reg)
  /-- R202. -/
  | add (rd rs1 rs2 : Reg)
  /-- R206. -/
  | sub (rd rs1 rs2 : Reg)
  /-- R212. -/
  | mul (rd rs1 rs2 : Reg)
  /-- R218. -/
  | div (rd rs1 rs2 : Reg)
  /-- R220. -/
  | rem (rd rs1 rs2 : Reg)
  /-- R210. -/
  | neg (rd rs1 : Reg)
  /-- R224. -/
  | inc (rd rs1 : Reg)
  /-- R226. -/
  | dec (rd rs1 : Reg)
  /-- R280. -/
  | and (rd rs1 rs2 : Reg)
  /-- R281. -/
  | or (rd rs1 rs2 : Reg)
  /-- R282. -/
  | xor (rd rs1 rs2 : Reg)
  /-- R283. -/
  | not (rd rs1 : Reg)
  /-- R286. -/
  | shl (rd rs1 rs2 : Reg)
  /-- R288. -/
  | shr (rd rs1 rs2 : Reg)
  /-- R290. -/
  | shli (rd rs1 : Reg) (imm : Nat)
  /-- R291. -/
  | shri (rd rs1 : Reg) (imm : Nat)
  /-- R252. -/
  | ceq (rd rs1 rs2 : Reg)
  /-- R253. -/
  | cne (rd rs1 rs2 : Reg)
  /-- R256. -/
  | clt (rd rs1 rs2 : Reg)
  /-- R257. -/
  | cgt (rd rs1 rs2 : Reg)
  /-- R258. -/
  | cle (rd rs1 rs2 : Reg)
  /-- R259. -/
  | cge (rd rs1 rs2 : Reg)
  /-- R144. -/
  | bext (rd rs1 rs2 : Reg)
  /-- R146. -/
  | bins (rd rs1 rs2 : Reg)
  /-- R145. -/
  | bexti (rd rs1 : Reg) (imm : Nat)
  /-- R147. -/
  | binsi (rd rs1 : Reg) (imm : Nat)
  /-- R150. -/
  | bgetm (rd rs1 : Reg) (imm : Nat)
  /-- R151. -/
  | bputm (rt rs1 : Reg) (imm : Nat)
  /-- R310. -/
  | ld (rd rs1 : Reg) (imm : Nat)
  /-- R311. -/
  | st (rt rs1 : Reg) (imm : Nat)
deriving DecidableEq, Repr

/-- Why a word is illegal (R105): its opcode is reserved (R106), or a must-be-zero bit is 1 (R103). -/
inductive IllegalWord where
  /-- Step (1) of R105: the opcode is not in R104. -/
  | reservedOpcode
  /-- Step (2) of R105: some must-be-zero bit of the row's format is 1. -/
  | mustBeZero
deriving DecidableEq, Repr

/-- The eight formats of R103. -/
inductive Format where
  | n | r3 | r2 | i | s | u | b | j
deriving DecidableEq, Repr

/-- The two-operand instructions that R110's `OPA rd, rs` stands for. -/
inductive CompoundOp where
  | add | sub | mul | div | rem | and | or | xor | shl | shr
deriving DecidableEq, Repr

/-- The comparisons that R110's compare-and-branch forms use. -/
inductive CompareOp where
  | eq | ne | lt | gt | le | ge
deriving DecidableEq, Repr

/-- The pseudo-instructions of R110. -/
inductive Pseudo where
  | li (rd : Reg) (n v : Nat)
  | clr (rd : Reg)
  | preinc (rd : Reg)
  | predec (rd : Reg)
  | postinc (rt rd : Reg)
  | postdec (rt rd : Reg)
  | opa (op : CompoundOp) (rd rs : Reg)
  | divrem (rq rr ra rb : Reg)
  /-- `off` is the signed word offset of the target from this word. -/
  | b (off : Int)
  /-- `off` is the signed word offset of the target from the SECOND word (R110's last sentence). -/
  | bcmp (op : CompareOp) (rt rs1 rs2 : Reg) (off : Int)
deriving DecidableEq, Repr

end Sys2Proof
end

