-- ==== Sys2Proof/WellFormed.lean ====
section
/-! DEFINITION. What is well formed: an instruction's operands (R101, R109), a pseudo-instruction's
operands (R110), and an instruction word (R103 to R106). The word check is written from the masks of R103,
the decoder of Decode.lean from the fields of R102: that the two agree is a statement of this row. -/

namespace Sys2Proof

/-- "An immediate outside 0..65535 is rejected" (R109; R101: zext_16). -/
def immOk (imm : Nat) : Bool := decide (imm < 65536)

/-- A branch distance "outside -32768..32767" is rejected (R109; R101: sext_16). -/
def offOk (off : Int) : Bool := decide (-32768 ≤ off) && decide (off ≤ 32767)

/-- An instruction whose operands its encoding can hold. -/
def Instr.wf : Instr → Bool
  | .nop => true
  | .halt => true
  | .jmp off => offOk off
  | .bz _ off => offOk off
  | .bnz _ off => offOk off
  | .new _ imm => immOk imm
  | .seti _ imm => immOk imm
  | .cpy _ _ => true
  | .mov _ _ => true
  | .maxv _ _ => true
  | .add _ _ _ => true
  | .sub _ _ _ => true
  | .mul _ _ _ => true
  | .div _ _ _ => true
  | .rem _ _ _ => true
  | .neg _ _ => true
  | .inc _ _ => true
  | .dec _ _ => true
  | .and _ _ _ => true
  | .or _ _ _ => true
  | .xor _ _ _ => true
  | .not _ _ => true
  | .shl _ _ _ => true
  | .shr _ _ _ => true
  | .shli _ _ imm => immOk imm
  | .shri _ _ imm => immOk imm
  | .ceq _ _ _ => true
  | .cne _ _ _ => true
  | .clt _ _ _ => true
  | .cgt _ _ _ => true
  | .cle _ _ _ => true
  | .cge _ _ _ => true
  | .bext _ _ _ => true
  | .bins _ _ _ => true
  | .bexti _ _ imm => immOk imm
  | .binsi _ _ imm => immOk imm
  | .bgetm _ _ imm => immOk imm
  | .bputm _ _ imm => immOk imm
  | .ld _ _ imm => immOk imm
  | .st _ _ imm => immOk imm

/-- A pseudo-instruction that R110 allows: its immediates and offsets fit, POSTINC and POSTDEC have
rt != rd, and DIVREM has rq not in (ra, rb). -/
def Pseudo.wf : Pseudo → Bool
  | .li _ n v => immOk n && immOk v
  | .clr _ => true
  | .preinc _ => true
  | .predec _ => true
  | .postinc rt rd => rt != rd
  | .postdec rt rd => rt != rd
  | .opa _ _ _ => true
  | .divrem rq _ ra rb => rq != ra && rq != rb
  | .b off => offOk off
  | .bcmp _ _ _ _ off => offOk off

/-- The mask of a format: its opcode bits and its must-be-zero bits (R103). -/
def Format.mask : Format → Word
  | .n => 0xFFFFFFFF#32
  | .r3 => 0xFC003FFF#32
  | .r2 => 0xFC03FFFF#32
  | .i => 0xFC030000#32
  | .s => 0xFC030000#32
  | .u => 0xFC3F0000#32
  | .b => 0xFFC30000#32
  | .j => 0xFFFF0000#32

/-- The opcode map of R104: the format of each assigned opcode; every other opcode is reserved (R106). -/
def formatOf (op : Nat) : Option Format :=
  if op ∈ [0x01, 0x02] then some .n
  else if op ∈ [0x03] then some .j
  else if op ∈ [0x04, 0x05] then some .b
  else if op ∈ [0x08, 0x09] then some .u
  else if op ∈ [0x0A, 0x0B, 0x0C, 0x15, 0x16, 0x17, 0x1B] then some .r2
  else if op ∈ [0x10, 0x11, 0x12, 0x13, 0x14, 0x18, 0x19, 0x1A, 0x1C, 0x1D] then some .r3
  else if op ∈ [0x20, 0x21, 0x22, 0x23, 0x24, 0x25, 0x28, 0x29] then some .r3
  else if op ∈ [0x1E, 0x1F, 0x2A, 0x2B, 0x2C, 0x30] then some .i
  else if op ∈ [0x2D, 0x31] then some .s
  else none

/-- A legal word (R105): an assigned opcode, and `insn AND mask(format) = op x 2^26`. -/
def wordLegal (insn : Word) : Bool :=
  match formatOf (insn.toNat / 2 ^ 26) with
  | none => false
  | some f => decide (insn &&& f.mask = BitVec.ofNat 32 (insn.toNat / 2 ^ 26 * 2 ^ 26))

end Sys2Proof
end

