-- ==== Sys2Proof/Decode.lean ====
section
/-! DEFINITION. The decoder (R101, R102, R105), the encoder (R102, R103) and the expansion of the
pseudo-instructions (R110). -/

namespace Sys2Proof

/-- `v[lo+n-1:lo]` of an instruction word (R14). -/
def bits (insn : Word) (lo n : Nat) : Nat := insn.toNat / 2 ^ lo % 2 ^ n

/-- Field A, bits [25:22] (R102). -/
def fieldA (insn : Word) : Reg := Fin.ofNat 16 (bits insn 22 4)

/-- Field B, bits [21:18] (R102). -/
def fieldB (insn : Word) : Reg := Fin.ofNat 16 (bits insn 18 4)

/-- Field C, bits [17:14] (R102). -/
def fieldC (insn : Word) : Reg := Fin.ofNat 16 (bits insn 14 4)

/-- `zext_16(imm16)` (R101, R17). -/
def zext16 (insn : Word) : Nat := bits insn 0 16

/-- `sext_16(imm16)`: imm16 - 65536 if imm16[15] = 1, else imm16 (R17, R101). -/
def sext16 (insn : Word) : Int :=
  if bits insn 15 1 = 1 then (bits insn 0 16 : Int) - 65536 else (bits insn 0 16 : Int)

/-- Step (2) of R105: the word is `i` if the must-be-zero fields are all zero. -/
def ifZero (zero : Bool) (i : Instr) : Except IllegalWord Instr :=
  if zero then .ok i else .error .mustBeZero

/-- Format N: bits [25:0] must be zero (R103). -/
def asN (insn : Word) (i : Instr) : Except IllegalWord Instr :=
  ifZero (bits insn 0 26 == 0) i

/-- Format R3: bits [13:0] must be zero (R103). -/
def asR3 (insn : Word) (i : Reg → Reg → Reg → Instr) : Except IllegalWord Instr :=
  ifZero (bits insn 0 14 == 0) (i (fieldA insn) (fieldB insn) (fieldC insn))

/-- Format R2: bits [17:0] must be zero (R103). -/
def asR2 (insn : Word) (i : Reg → Reg → Instr) : Except IllegalWord Instr :=
  ifZero (bits insn 0 18 == 0) (i (fieldA insn) (fieldB insn))

/-- Formats I and S: bits [17:16] must be zero (R103). -/
def asI (insn : Word) (i : Reg → Reg → Nat → Instr) : Except IllegalWord Instr :=
  ifZero (bits insn 16 2 == 0) (i (fieldA insn) (fieldB insn) (zext16 insn))

/-- Format U: bits [21:16] must be zero (R103). -/
def asU (insn : Word) (i : Reg → Nat → Instr) : Except IllegalWord Instr :=
  ifZero (bits insn 16 6 == 0) (i (fieldA insn) (zext16 insn))

/-- Format B: bits [25:22] and [17:16] must be zero (R103). -/
def asB (insn : Word) (i : Reg → Int → Instr) : Except IllegalWord Instr :=
  ifZero (bits insn 22 4 == 0 && bits insn 16 2 == 0) (i (fieldB insn) (sext16 insn))

/-- Format J: bits [25:16] must be zero (R103). -/
def asJ (insn : Word) (i : Int → Instr) : Except IllegalWord Instr :=
  ifZero (bits insn 16 10 == 0) (i (sext16 insn))

/-- The decoder, total on 32-bit words (R105), by the opcode map of R104; every other opcode is reserved
(R106). -/
def decode (insn : Word) : Except IllegalWord Instr :=
  match bits insn 26 6 with
  | 0x01 => asN insn .nop
  | 0x02 => asN insn .halt
  | 0x03 => asJ insn .jmp
  | 0x04 => asB insn .bz
  | 0x05 => asB insn .bnz
  | 0x08 => asU insn .new
  | 0x09 => asU insn .seti
  | 0x0A => asR2 insn .cpy
  | 0x0B => asR2 insn .mov
  | 0x0C => asR2 insn .maxv
  | 0x10 => asR3 insn .add
  | 0x11 => asR3 insn .sub
  | 0x12 => asR3 insn .mul
  | 0x13 => asR3 insn .div
  | 0x14 => asR3 insn .rem
  | 0x15 => asR2 insn .neg
  | 0x16 => asR2 insn .inc
  | 0x17 => asR2 insn .dec
  | 0x18 => asR3 insn .and
  | 0x19 => asR3 insn .or
  | 0x1A => asR3 insn .xor
  | 0x1B => asR2 insn .not
  | 0x1C => asR3 insn .shl
  | 0x1D => asR3 insn .shr
  | 0x1E => asI insn .shli
  | 0x1F => asI insn .shri
  | 0x20 => asR3 insn .ceq
  | 0x21 => asR3 insn .cne
  | 0x22 => asR3 insn .clt
  | 0x23 => asR3 insn .cgt
  | 0x24 => asR3 insn .cle
  | 0x25 => asR3 insn .cge
  | 0x28 => asR3 insn .bext
  | 0x29 => asR3 insn .bins
  | 0x2A => asI insn .bexti
  | 0x2B => asI insn .binsi
  | 0x2C => asI insn .bgetm
  | 0x2D => asI insn .bputm
  | 0x30 => asI insn .ld
  | 0x31 => asI insn .st
  | _ => .error .reservedOpcode

/-- `word = op x 2^26 + A x 2^22 + B x 2^18 + C x 2^14 + imm16` (R103). -/
def wordOf (op : Nat) (a b c : Reg) (imm16 : Nat) : Word :=
  BitVec.ofNat 32
    (op * 2 ^ 26 + a.val * 2 ^ 22 + b.val * 2 ^ 18 + c.val * 2 ^ 14 + imm16 % 2 ^ 16)

/-- The 16 bits of a signed word offset (R101). -/
def off16 (off : Int) : Nat := (off % 65536).toNat

/-- The encoder: the fields a format does not use are 0 (R103), the opcode is R104's. -/
def encode : Instr → Word
  | .nop => wordOf 0x01 0 0 0 0
  | .halt => wordOf 0x02 0 0 0 0
  | .jmp off => wordOf 0x03 0 0 0 (off16 off)
  | .bz rs1 off => wordOf 0x04 0 rs1 0 (off16 off)
  | .bnz rs1 off => wordOf 0x05 0 rs1 0 (off16 off)
  | .new rd imm => wordOf 0x08 rd 0 0 imm
  | .seti rd imm => wordOf 0x09 rd 0 0 imm
  | .cpy rd rs1 => wordOf 0x0A rd rs1 0 0
  | .mov rd rs1 => wordOf 0x0B rd rs1 0 0
  | .maxv rd rs1 => wordOf 0x0C rd rs1 0 0
  | .add rd rs1 rs2 => wordOf 0x10 rd rs1 rs2 0
  | .sub rd rs1 rs2 => wordOf 0x11 rd rs1 rs2 0
  | .mul rd rs1 rs2 => wordOf 0x12 rd rs1 rs2 0
  | .div rd rs1 rs2 => wordOf 0x13 rd rs1 rs2 0
  | .rem rd rs1 rs2 => wordOf 0x14 rd rs1 rs2 0
  | .neg rd rs1 => wordOf 0x15 rd rs1 0 0
  | .inc rd rs1 => wordOf 0x16 rd rs1 0 0
  | .dec rd rs1 => wordOf 0x17 rd rs1 0 0
  | .and rd rs1 rs2 => wordOf 0x18 rd rs1 rs2 0
  | .or rd rs1 rs2 => wordOf 0x19 rd rs1 rs2 0
  | .xor rd rs1 rs2 => wordOf 0x1A rd rs1 rs2 0
  | .not rd rs1 => wordOf 0x1B rd rs1 0 0
  | .shl rd rs1 rs2 => wordOf 0x1C rd rs1 rs2 0
  | .shr rd rs1 rs2 => wordOf 0x1D rd rs1 rs2 0
  | .shli rd rs1 imm => wordOf 0x1E rd rs1 0 imm
  | .shri rd rs1 imm => wordOf 0x1F rd rs1 0 imm
  | .ceq rd rs1 rs2 => wordOf 0x20 rd rs1 rs2 0
  | .cne rd rs1 rs2 => wordOf 0x21 rd rs1 rs2 0
  | .clt rd rs1 rs2 => wordOf 0x22 rd rs1 rs2 0
  | .cgt rd rs1 rs2 => wordOf 0x23 rd rs1 rs2 0
  | .cle rd rs1 rs2 => wordOf 0x24 rd rs1 rs2 0
  | .cge rd rs1 rs2 => wordOf 0x25 rd rs1 rs2 0
  | .bext rd rs1 rs2 => wordOf 0x28 rd rs1 rs2 0
  | .bins rd rs1 rs2 => wordOf 0x29 rd rs1 rs2 0
  | .bexti rd rs1 imm => wordOf 0x2A rd rs1 0 imm
  | .binsi rd rs1 imm => wordOf 0x2B rd rs1 0 imm
  | .bgetm rd rs1 imm => wordOf 0x2C rd rs1 0 imm
  | .bputm rt rs1 imm => wordOf 0x2D rt rs1 0 imm
  | .ld rd rs1 imm => wordOf 0x30 rd rs1 0 imm
  | .st rt rs1 imm => wordOf 0x31 rt rs1 0 imm

/-- The instruction an opcode-table word stands for: one 32-bit word, every bit above `nbits` being 0.
`none` where the decoder rejects, and for a number that is no 32-bit word. -/
def decodeTableWord (nbits w : Nat) : Option Instr :=
  if w % 2 ^ nbits < 2 ^ 32 then
    match decode (BitVec.ofNat 32 (w % 2 ^ nbits)) with
    | .ok i => some i
    | .error _ => none
  else none

/-- The instruction a compound assignment `rd OP= rs` runs: `OP rd, rd, rs` (R110). -/
def CompoundOp.instr (op : CompoundOp) (rd rs1 rs2 : Reg) : Instr :=
  match op with
  | .add => .add rd rs1 rs2
  | .sub => .sub rd rs1 rs2
  | .mul => .mul rd rs1 rs2
  | .div => .div rd rs1 rs2
  | .rem => .rem rd rs1 rs2
  | .and => .and rd rs1 rs2
  | .or => .or rd rs1 rs2
  | .xor => .xor rd rs1 rs2
  | .shl => .shl rd rs1 rs2
  | .shr => .shr rd rs1 rs2

/-- The comparison of a compare-and-branch form (R110). -/
def CompareOp.instr (op : CompareOp) (rd rs1 rs2 : Reg) : Instr :=
  match op with
  | .eq => .ceq rd rs1 rs2
  | .ne => .cne rd rs1 rs2
  | .lt => .clt rd rs1 rs2
  | .gt => .cgt rd rs1 rs2
  | .le => .cle rd rs1 rs2
  | .ge => .cge rd rs1 rs2

/-- The expansions of R110. -/
def Pseudo.expand : Pseudo → List Instr
  | .li rd n v => [.new rd n, .seti rd v]
  | .clr rd => [.seti rd 0]
  | .preinc rd => [.inc rd rd]
  | .predec rd => [.dec rd rd]
  | .postinc rt rd => [.cpy rt rd, .inc rd rd]
  | .postdec rt rd => [.cpy rt rd, .dec rd rd]
  | .opa op rd rs => [op.instr rd rd rs]
  | .divrem rq rr ra rb => [.div rq ra rb, .rem rr ra rb]
  | .b off => [.jmp off]
  | .bcmp op rt rs1 rs2 off => [op.instr rt rs1 rs2, .bnz rt off]

end Sys2Proof
end

