-- ==== Sys2Proof/Config.lean ====
section
/-! DEFINITION. The implementation parameters and the constants of the machine (`00_scope.md` R6 to R10,
`10_state.md` R51, R52). LAT (R12) and HOST_BUS (R5(e)) are not here: no rule depends on them. -/

namespace Sys2Proof

/-- The parameters that may differ from one LBV1 to another; PARAM0 to PARAM2 report them (R52). -/
structure Config where
  /-- The largest length of a register, in limbs (R7): 64, or 8 .. 64 in a model (S6). -/
  maxl : Nat
  /-- The number of 32-bit words of IMEM (R9): 1 .. 16384. -/
  imemWords : Nat
  /-- The number of bytes of DMEM (R10): a multiple of 4, 4 .. 65536. -/
  dmemBytes : Nat
deriving DecidableEq, Repr

/-- The spec's default parameters: MAXL 64 (R7), IMEM_WORDS 1024 (R9), DMEM_BYTES 4096 (R10). -/
def Config.default : Config := { maxl := 64, imemWords := 1024, dmemBytes := 4096 }

/-- The parameters that R7, R9 and R10 allow. -/
def Config.legal (c : Config) : Bool :=
  decide (8 ≤ c.maxl) && decide (c.maxl ≤ 64) &&
  decide (1 ≤ c.imemWords) && decide (c.imemWords ≤ 16384) &&
  decide (4 ≤ c.dmemBytes) && decide (c.dmemBytes ≤ 65536) && decide (c.dmemBytes % 4 = 0)

/-- `LIMB_BITS` (R6). -/
def limbBits : Nat := 8

/-- `NREG` (R8). -/
def nreg : Nat := 16

/-- The ISA version number that PARAM0 reports (R2, R52). -/
def isaVersion : Nat := 1

/-- The ID register's constant (R51). -/
def idWord : Word := 0x4C425631#32

end Sys2Proof
end

