-- ==== Sys2Proof/Machine/State.lean ====
section
/-! DEFINITION. The state of the machine: everything R30 lists, the parameters that PARAM0 to PARAM2 report
(R52), and two fields of the model's own (`events`, `answer`) that hold the outside world's side of the
total order of R80. Plain data throughout. -/

namespace Sys2Proof.Machine

open Sys2Proof

/-- Why a step of the model could stop with a fault. THERE IS NO SUCH REASON: every fault of this hardware is
a state the machine goes to (STATE = FAULTED, R360), every address is checked before it is used (R76), and
every register and every memory cell holds a value. So nobody raises one, and that is safe. -/
inductive Fault
deriving DecidableEq, Repr

/-- Why an instruction has no meaning in the model. -/
inductive Refusal where
  /-- Raised by no arm of exec: every instruction of the opcode table has its meaning. The constructor stands
  because the host's interface names it. Safe: a refused instruction would have no next state. -/
  | notModelled (mnemonic : String)
deriving DecidableEq, Repr

/-- What a VUI register holds: a length in limbs and a value, both naturals (R13, R31). -/
structure Vui where
  /-- The length in limbs, 0 .. MAXL. -/
  len : Nat
  /-- The value, 0 <= val < 2^(8 len). -/
  val : Nat
deriving DecidableEq, Repr

/-- `STATE` (R41). -/
inductive RunState where
  /-- 0: after reset, never run. -/
  | idle
  /-- 1: the engine fetches and executes. -/
  | running
  /-- 2: stopped by HALT or by STOP. -/
  | halted
  /-- 3: stopped by a fault. -/
  | faulted
deriving DecidableEq, Repr

/-- One event of the total order of R80: a host operation (R380), one turn of the engine (R383, R384), or a
hardware reset (R386, R400). A hardware reset leaves IMEM and DMEM with ANY contents (R44, S1, S2), so the
event carries them. -/
inductive Event where
  /-- HostRead(addr) -> word. -/
  | hostRead (addr : HostAddr)
  /-- HostWrite(addr, word). -/
  | hostWrite (addr : HostAddr) (word : Word)
  /-- The engine takes its step. -/
  | engineTurn
  /-- Hardware reset; the listed contents are what the memories then hold. -/
  | hardwareReset (imem : List (Nat × Word)) (dmem : List Host.Cell)
deriving DecidableEq, Repr

/-- The state of the machine (R30). -/
structure State where
  /-- `x[0..15]` (R31 to R36). Slot 0 is never read and never written (R33, `State.getX`, `State.setX`). -/
  regs : Vector Vui 16
  /-- The program counter: a word index in IMEM (R37). -/
  pc : PcWord
  /-- `STATE` (R41). -/
  runState : RunState
  /-- `STOP_REQ` (R42). -/
  stopReq : Bool
  /-- `IRQ_PEND`, STATUS[8] (R48). -/
  irqPend : Bool
  /-- `OVF`, STATUS[9] (R45). -/
  ovf : Bool
  /-- `TRUNC`, STATUS[10] (R46). -/
  trunc : Bool
  /-- `IRQ_EN`, CTRL[8] (R54). -/
  irqEn : Bool
  /-- `CAUSE`, 4 bits (R57). -/
  cause : BitVec 4
  /-- `FAULT_PC`, 16 bits (R58). -/
  faultPc : PcWord
  /-- `FAULT_INSN`, 32 bits (R59). -/
  faultInsn : Word
  /-- `FAULT_INFO`, 32 bits (R60). -/
  faultInfo : Word
  /-- IMEM: (index, word) pairs, indexes strictly rising, no word 0 listed; an unlisted word reads 0
  (R43(a); log 1). -/
  imem : List (Nat × Word)
  /-- DMEM: (address, byte) pairs, addresses strictly rising, no byte 0 listed; an unlisted byte reads 0
  (R43(b); log 1). -/
  dmem : List Host.Cell
  /-- The parameters of this machine; constants, reported by PARAM0 to PARAM2 (R52; log 3). -/
  params : Config
  /-- The MODEL's own: what is still to come of the total order of R80, first event first (log 2). -/
  events : List Event
  /-- The MODEL's own: what the latest host read event returned to the host (log 2). -/
  answer : Option Word
deriving DecidableEq, Repr

/-- The reset value of every register: 16 pairs (0, 0) (R36). -/
def resetRegs : Vector Vui 16 := Vector.replicate 16 { len := 0, val := 0 }

/-- The machine right after a hardware reset that left IMEM and DMEM with the given contents (R400; R44: the
contents are unspecified, S1 and S2: any value, as an argument of the model). -/
def State.resetWith (params : Config) (imem : List (Nat × Word)) (dmem : List Host.Cell) : State :=
  { regs := resetRegs
    pc := 0#16
    runState := .idle
    stopReq := false
    irqPend := false
    ovf := false
    trunc := false
    irqEn := false
    cause := 0#4
    faultPc := 0#16
    faultInsn := 0#32
    faultInfo := 0#32
    imem := imem
    dmem := dmem
    params := params
    events := []
    answer := none }

/-- The machine right after reset (R400) with the default parameters (R7, R9, R10), with nothing listed in
either memory (log 1) and nothing to come from outside (log 2). -/
def State.reset : State := State.resetWith Config.default [] []

end Sys2Proof.Machine
end

