-- ==== Sys2Proof/Machine/Ops.lean ====
section
/-! DEFINITION. The named operations every meaning is built from: memory cells, DMEM and register access
(R16, R18, R33), completing an instruction (R38), and fault entry (R360). -/

namespace Sys2Proof.Machine

open Sys2Proof

/-- What an instruction or a step answers. -/
abbrev Out := Host.Outcome State Fault Refusal

/-! ## Memory: cells by address in one canonical form -/

/-- What address `a` holds; an unlisted cell reads 0 (log 1). -/
def cellRead {w : Nat} (m : List (Nat × BitVec w)) (a : Nat) : BitVec w :=
  match m with
  | [] => 0#w
  | (b, v) :: rest => if a = b then v else cellRead rest a

/-- The cell list with `v` at address `a`, kept in canonical form: writing 0 removes the entry. -/
def cellWrite {w : Nat} (m : List (Nat × BitVec w)) (a : Nat) (v : BitVec w) : List (Nat × BitVec w) :=
  match m with
  | [] => if v = 0#w then [] else [(a, v)]
  | (b, u) :: rest =>
    if a < b then (if v = 0#w then (b, u) :: rest else (a, v) :: (b, u) :: rest)
    else if a = b then (if v = 0#w then rest else (a, v) :: rest)
    else (b, u) :: cellWrite rest a v

/-- Every address is at least `lo`, the addresses rise strictly, and no entry is 0. -/
def cellsFrom {w : Nat} (lo : Nat) (m : List (Nat × BitVec w)) : Bool :=
  match m with
  | [] => true
  | (b, v) :: rest => decide (lo ≤ b) && decide (v ≠ 0#w) && cellsFrom (b + 1) rest

/-- The canonical form of a memory. -/
def Memory.wf {w : Nat} (m : List (Nat × BitVec w)) : Bool := cellsFrom 0 m

/-- Every listed address exists, that is, lies below `bound`. -/
def Memory.within {w : Nat} (bound : Nat) (m : List (Nat × BitVec w)) : Bool :=
  m.all fun c => decide (c.1 < bound)

/-- The canonical memory with the given contents; a listed address at or above `bound` does not exist. -/
def cellsLoad {w : Nat} (bound : Nat) (contents : List (Nat × BitVec w)) : List (Nat × BitVec w) :=
  contents.foldl (fun m c => if c.1 < bound then cellWrite m c.1 c.2 else m) []

/-- One byte of DMEM. -/
def State.dmemByte (s : State) (a : Nat) : Byte := cellRead s.dmem a

/-- One word of IMEM. -/
def State.imemWord (s : State) (p : Nat) : Word := cellRead s.imem p

/-- `MemRead(addr, n)`: the sum of DMEM[addr+k] x 2^(8k) for k < n (R18). -/
def memRead (m : List Host.Cell) (addr : Nat) : Nat → Nat
  | 0 => 0
  | n + 1 => (cellRead m addr).toNat + 2 ^ 8 * memRead m (addr + 1) n

/-- `MemWrite(addr, n, v)`: DMEM[addr+k] <- v[8k+7:8k] for k < n (R18). -/
def memWrite (m : List Host.Cell) (addr : Nat) : Nat → Nat → List Host.Cell
  | 0, _ => m
  | n + 1, v => memWrite (cellWrite m addr (BitVec.ofNat 8 v)) (addr + 1) n (v / 2 ^ 8)

/-- `a + n <= DMEM_BYTES`, on unbounded naturals (R76). -/
def State.inDmem (s : State) (a n : Nat) : Bool := decide (a + n ≤ s.params.dmemBytes)

/-- `i div 8 < DMEM_BYTES` (R76). -/
def State.bitInDmem (s : State) (i : Nat) : Bool := decide (i / 8 < s.params.dmemBytes)

/-! ## Registers -/

/-- `x[r]`: x0 reads (0, 0) (R33). -/
def State.getX (s : State) (r : Reg) : Vui :=
  if r = 0 then { len := 0, val := 0 } else s.regs.get r

/-- `x[r] <- v`: a write to x0 is discarded (R33). -/
def State.setX (s : State) (r : Reg) (v : Vui) : State :=
  { s with regs := if r = 0 then s.regs else s.regs.set r.val v r.isLt }

/-- What R31 says of a pair: `len <= MAXL` and `val < 2^(8 len)`. -/
def Vui.fits (maxl : Nat) (v : Vui) : Bool := decide (v.len ≤ maxl) && decide (v.val < modulus v.len)

/-- Limb `k` of a pair: `val[8k+7:8k]` below `len`, 0 at or above it (R15, R31). -/
def Vui.limb (v : Vui) (k : Nat) : Byte :=
  if k < v.len then BitVec.ofNat 8 (v.val / 2 ^ (8 * k)) else 0#8

/-- The pair with limb `k` replaced; a limb at or above `len` does not exist and is not written (R31, R61). -/
def Vui.setLimb (v : Vui) (k : Nat) (b : Byte) : Vui :=
  if k < v.len then
    { v with val := v.val / 2 ^ (8 * (k + 1)) * 2 ^ (8 * (k + 1)) + b.toNat * 2 ^ (8 * k) + v.val % 2 ^ (8 * k) }
  else v

/-! ## Completing an instruction -/

/-- The instruction completes: `pc <- pc + 1` mod 2^16 (R38, R40). -/
def finish (s : State) : Out := .next { s with pc := s.pc + 1#16 }

/-- The instruction completes with `pc <- t` (R19). -/
def goto (t : PcWord) (s : State) : Out := .next { s with pc := t }

/-- The instruction writes `x[rd] <- v` and completes (R38). -/
def writeBack (rd : Reg) (v : Vui) (s : State) : Out := finish (s.setX rd v)

/-- The engine enters HALTED: `STATE <- HALTED; IRQ_PEND <- 1; STOP_REQ <- 0` (R331, R384, R48, R42). -/
def State.enterHalted (s : State) : State :=
  { s with runState := .halted, irqPend := true, stopReq := false }

/-! ## Fault entry -/

/-- CAUSE codes (R350). -/
def causeIllegalInsn : BitVec 4 := 1#4
/-- R352. -/
def causeFetchOob : BitVec 4 := 2#4
/-- R353. -/
def causeDivByZero : BitVec 4 := 3#4
/-- R354. -/
def causeOobReg : BitVec 4 := 4#4
/-- R355. -/
def causeOobMem : BitVec 4 := 5#4
/-- R356. -/
def causeBadWidth : BitVec 4 := 6#4

/-- `min(index, 2^32 - 1)` in 32 bits (R60). -/
def saturate32 (index : Nat) : Word := BitVec.ofNat 32 (min index (2 ^ 32 - 1))

/-- Fault entry (R360): the state after an engine step raised `cause` with `info` for the word `insn` at `pc`.
`pc` keeps the faulting instruction's index and nothing else changes. There is no handler and no return
from a fault: the host restarts the engine (R362, `State.startRequest`). -/
def State.faultEntry (s : State) (cause : BitVec 4) (insn : Word) (info : Nat) : State :=
  { s with
    runState := .faulted
    cause := cause
    faultPc := s.pc
    faultInsn := insn
    faultInfo := saturate32 info
    irqPend := true
    stopReq := false }

/-- `raise E(info)` of instruction `i` (R19): fault entry with the word of `i`, the only word that decodes to it
(log 6). -/
def raise (cause : BitVec 4) (info : Nat) (i : Instr) (s : State) : Out :=
  .next (s.faultEntry cause (encode i) info)

/-! ## The way back from a fault -/

/-- An accepted start request: `STATE <- RUNNING; CAUSE <- 0; STOP_REQ <- 0` when the engine is not RUNNING, and
nothing otherwise (R382). It is the only way on from FAULTED but a reset: the run resumes at `pc`, the
faulting instruction unless the host wrote PC, and nothing is restored (R362). -/
def State.startRequest (s : State) : State :=
  if s.runState = .running then s
  else { s with runState := .running, cause := 0#4, stopReq := false }

end Sys2Proof.Machine
end

