-- ==== Sys2Proof/Machine/Operands.lean ====
section
/-! DEFINITION. The operand forms: the wider length of two operands (R200), effective addresses and bit
indexes (R77), branch targets (R329), and the two forms of a register buffer's and DMEM's bits (R140, R141,
R143). -/

namespace Sys2Proof.Machine

open Sys2Proof

/-- `W = max(a.len, b.len)` (R23, R200). -/
def wider (a b : Vui) : Nat := max a.len b.len

/-- `x[rs1].val + zext_16(imm16)`, an unbounded natural: a byte address or a bit index (R77). -/
def State.ea (s : State) (rs1 : Reg) (imm : Nat) : Nat := (s.getX rs1).val + imm

/-- `(pc + sext_16(imm16)) mod 2^16`, where `pc` is the branch's own index (R329, R40). -/
def State.target (s : State) (off : Int) : PcWord := BitVec.ofInt 16 ((s.pc.toNat : Int) + off)

/-- `v[i]` as a number, 0 or 1 (R14, R140, R143). -/
def bitOf (v i : Nat) : Nat := v / 2 ^ i % 2

/-- `(v AND NOT 2^i) OR (b x 2^i)` on naturals (R141, R146). -/
def setBitOf (v i b : Nat) : Nat := (v ^^^ (v &&& 2 ^ i)) ||| (b * 2 ^ i)

/-- `i < 8 x len`: a bit index of a register buffer is in bounds (R143). -/
def Vui.hasBit (v : Vui) (i : Nat) : Bool := decide (i < 8 * v.len)

end Sys2Proof.Machine
end

