-- ==== Sys2Proof/Machine/Flags.lean ====
section
/-! DEFINITION. The sticky flags OVF and TRUNC (R45 to R47): an instruction can set one, none clears one. -/

namespace Sys2Proof.Machine

open Sys2Proof

/-- The exact result does not fit `L` limbs: `exact >= 2^(8L)` (R45, R202, R212, R224; R46, R178). -/
def tooBig (L exact : Nat) : Bool := decide (modulus L ≤ exact)

/-- `if c then OVF <- 1` (R45). -/
def State.stickOvf (s : State) (c : Bool) : State := { s with ovf := s.ovf || c }

/-- `if c then TRUNC <- 1` (R46). -/
def State.stickTrunc (s : State) (c : Bool) : State := { s with trunc := s.trunc || c }

end Sys2Proof.Machine
end

