-- ==== Sys2Proof/Machine/Alu.lean ====
section
/-! DEFINITION. The results of the arithmetic, bitwise, shift, compare and assignment instructions as exact laws
on pairs: compute on unbounded numbers, then reduce modulo the result length's modulus (R32, R107, R228). The
source's limb-by-limb datapaths that compute the same stand in Datapath.lean. -/

namespace Sys2Proof.Machine

open Sys2Proof

/-- An exact natural result in `L` limbs (R32). -/
def reduce (L exact : Nat) : Vui := { len := L, val := exact % modulus L }

/-- An exact integer result in `L` limbs; the mathematical mod, in [0, 2^(8L)) (R206). -/
def reduceInt (L : Nat) (exact : Int) : Vui := { len := L, val := (exact % (modulus L : Int)).toNat }

/-- R202. -/
def aluAdd (a b : Vui) : Vui := reduce (wider a b) (a.val + b.val)

/-- R206. -/
def aluSub (a b : Vui) : Vui := reduceInt (wider a b) ((a.val : Int) - (b.val : Int))

/-- R212. -/
def aluMul (a b : Vui) : Vui := reduce (wider a b) (a.val * b.val)

/-- R218: the quotient never exceeds a.val, so it is not reduced. -/
def aluDiv (a b : Vui) : Vui := { len := wider a b, val := a.val / b.val }

/-- R220. -/
def aluRem (a b : Vui) : Vui := { len := wider a b, val := a.val % b.val }

/-- R210: `(2^(8L) - v) mod 2^(8L)`. -/
def aluNeg (a : Vui) : Vui := reduceInt a.len ((modulus a.len : Int) - (a.val : Int))

/-- R224. -/
def aluInc (a : Vui) : Vui := reduce a.len (a.val + 1)

/-- R226. -/
def aluDec (a : Vui) : Vui := reduceInt a.len ((a.val : Int) - 1)

/-- R280. -/
def aluAnd (a b : Vui) : Vui := { len := wider a b, val := a.val &&& b.val }

/-- R281. -/
def aluOr (a b : Vui) : Vui := { len := wider a b, val := a.val ||| b.val }

/-- R282. -/
def aluXor (a b : Vui) : Vui := { len := wider a b, val := a.val ^^^ b.val }

/-- R283: `2^(8L) - 1 - v`. -/
def aluNot (a : Vui) : Vui := { len := a.len, val := modulus a.len - 1 - a.val }

/-- R284, R286, R287: `(a.val x 2^n) mod 2^(8L)`; "a count >= 8L gives 0", said first so that a huge count costs
nothing. -/
def aluShl (a : Vui) (n : Nat) : Vui :=
  if 8 * a.len ≤ n then { len := a.len, val := 0 } else reduce a.len (a.val * 2 ^ n)

/-- R285, R287, R288: `a.val div 2^n`, a logical shift (`>>>` on naturals is that division). -/
def aluShr (a : Vui) (n : Nat) : Vui := { len := a.len, val := a.val >>> n }

/-- A comparison's result: a length-1 pair, 1 for true and 0 for false (D14, R107). -/
def truth (c : Bool) : Vui := { len := 1, val := if c then 1 else 0 }

/-- A single bit's result: a length-1 pair (R107, R144). -/
def oneBit (b : Nat) : Vui := { len := 1, val := b }

/-- R176: assignment grows the target to the larger length. -/
def aluMov (d s : Vui) : Vui := { len := max d.len s.len, val := s.val }

/-- R180. -/
def aluMaxv (a : Vui) : Vui := { len := a.len, val := modulus a.len - 1 }

/-- R178: the native value in the target's length. -/
def aluSeti (d : Vui) (v : Nat) : Vui := reduce d.len v

/-- R146, R147: bit `i` of the buffer `d` replaced by `b`; the length stays. -/
def aluBins (d : Vui) (i b : Nat) : Vui := { len := d.len, val := setBitOf d.val i b }

end Sys2Proof.Machine
end

