-- ==== Sys2Proof/Machine/Arith.lean ====
section
/-! DEFINITION. Arithmetic (`43_arithmetic.md`): ADD, SUB, NEG, MUL, DIV, REM, INC, DEC. -/

namespace Sys2Proof.Machine

open Sys2Proof

/-- ADD (R202): OVF when the sum does not fit W limbs. -/
def execAdd (rd rs1 rs2 : Reg) (s : State) : Out :=
  writeBack rd (aluAdd (s.getX rs1) (s.getX rs2))
    (s.stickOvf (tooBig (wider (s.getX rs1) (s.getX rs2)) ((s.getX rs1).val + (s.getX rs2).val)))

/-- SUB (R206): wraps, no flag. -/
def execSub (rd rs1 rs2 : Reg) (s : State) : Out :=
  writeBack rd (aluSub (s.getX rs1) (s.getX rs2)) s

/-- NEG (R210): no flag. -/
def execNeg (rd rs1 : Reg) (s : State) : Out := writeBack rd (aluNeg (s.getX rs1)) s

/-- MUL (R212): OVF when the exact product does not fit W limbs. -/
def execMul (rd rs1 rs2 : Reg) (s : State) : Out :=
  writeBack rd (aluMul (s.getX rs1) (s.getX rs2))
    (s.stickOvf (tooBig (wider (s.getX rs1) (s.getX rs2)) ((s.getX rs1).val * (s.getX rs2).val)))

/-- DIV (R215, R218): DIV_BY_ZERO for a divisor value of 0. -/
def execDiv (rd rs1 rs2 : Reg) (s : State) : Out :=
  if (s.getX rs2).val = 0 then raise causeDivByZero 0 (.div rd rs1 rs2) s
  else writeBack rd (aluDiv (s.getX rs1) (s.getX rs2)) s

/-- REM (R215, R220): DIV_BY_ZERO for a divisor value of 0. -/
def execRem (rd rs1 rs2 : Reg) (s : State) : Out :=
  if (s.getX rs2).val = 0 then raise causeDivByZero 0 (.rem rd rs1 rs2) s
  else writeBack rd (aluRem (s.getX rs1) (s.getX rs2)) s

/-- INC (R224): OVF when the value was the maximum of its length. -/
def execInc (rd rs1 : Reg) (s : State) : Out :=
  writeBack rd (aluInc (s.getX rs1)) (s.stickOvf (tooBig (s.getX rs1).len ((s.getX rs1).val + 1)))

/-- DEC (R226): wraps, no flag. -/
def execDec (rd rs1 : Reg) (s : State) : Out := writeBack rd (aluDec (s.getX rs1)) s

end Sys2Proof.Machine
end

