-- ==== Sys2Proof/Machine/BitAccess.lean ====
section
/-! DEFINITION. Bit extract and insert (`41_bit_access.md`): BEXT, BEXTI, BINS, BINSI, BGETM, BPUTM. -/

namespace Sys2Proof.Machine

open Sys2Proof

/-- BEXT and BEXTI: bit `i` of the register buffer `rs1`, or OOB_REG(i) (R142, R144, R145). -/
def extractBit (self : Instr) (rd rs1 : Reg) (i : Nat) (s : State) : Out :=
  if (s.getX rs1).hasBit i then writeBack rd (oneBit (bitOf (s.getX rs1).val i)) s
  else raise causeOobReg i self s

/-- BINS and BINSI: bit 0 of `x[rs1]` into bit `i` of the register buffer `rd`, or OOB_REG(i) (R142, R143, R146,
R147). -/
def insertBit (self : Instr) (rd rs1 : Reg) (i : Nat) (s : State) : Out :=
  if (s.getX rd).hasBit i then writeBack rd (aluBins (s.getX rd) i ((s.getX rs1).val % 2)) s
  else raise causeOobReg i self s

/-- BEXT (R144): the index is the whole value of rs2. -/
def execBext (rd rs1 rs2 : Reg) (s : State) : Out :=
  extractBit (.bext rd rs1 rs2) rd rs1 (s.getX rs2).val s

/-- BEXTI (R145). -/
def execBexti (rd rs1 : Reg) (imm : Nat) (s : State) : Out :=
  extractBit (.bexti rd rs1 imm) rd rs1 imm s

/-- BINS (R146): the index is the whole value of rs2. -/
def execBins (rd rs1 rs2 : Reg) (s : State) : Out :=
  insertBit (.bins rd rs1 rs2) rd rs1 (s.getX rs2).val s

/-- BINSI (R147). -/
def execBinsi (rd rs1 : Reg) (imm : Nat) (s : State) : Out :=
  insertBit (.binsi rd rs1 imm) rd rs1 imm s

/-- BGETM (R150): bit `i mod 8` of DMEM byte `i div 8`. -/
def execBgetm (rd rs1 : Reg) (imm : Nat) (s : State) : Out :=
  if s.bitInDmem (s.ea rs1 imm) then
    writeBack rd (oneBit (bitOf (s.dmemByte (s.ea rs1 imm / 8)).toNat (s.ea rs1 imm % 8))) s
  else raise causeOobMem (s.ea rs1 imm) (.bgetm rd rs1 imm) s

/-- One bit of a DMEM byte replaced, the rest of the byte preserved (R141, R151). -/
def State.putDmemBit (s : State) (i b : Nat) : State :=
  { s with dmem := cellWrite s.dmem (i / 8) (BitVec.ofNat 8 (setBitOf (s.dmemByte (i / 8)).toNat (i % 8) b)) }

/-- BPUTM (R151): bit 0 of `x[rt]` into bit `i mod 8` of DMEM byte `i div 8`. -/
def execBputm (rt rs1 : Reg) (imm : Nat) (s : State) : Out :=
  if s.bitInDmem (s.ea rs1 imm) then
    finish (s.putDmemBit (s.ea rs1 imm) ((s.getX rt).val % 2))
  else raise causeOobMem (s.ea rs1 imm) (.bputm rt rs1 imm) s

end Sys2Proof.Machine
end

