-- ==== Sys2Proof/Machine/Bitwise.lean ====
section
/-! DEFINITION. Bitwise and shift (`45_bitwise_shift.md`): AND, OR, XOR, NOT, SHL, SHR, SHLI, SHRI; no flags, no
exceptions. -/

namespace Sys2Proof.Machine

open Sys2Proof

/-- AND (R280). -/
def execAnd (rd rs1 rs2 : Reg) (s : State) : Out := writeBack rd (aluAnd (s.getX rs1) (s.getX rs2)) s

/-- OR (R281). -/
def execOr (rd rs1 rs2 : Reg) (s : State) : Out := writeBack rd (aluOr (s.getX rs1) (s.getX rs2)) s

/-- XOR (R282). -/
def execXor (rd rs1 rs2 : Reg) (s : State) : Out := writeBack rd (aluXor (s.getX rs1) (s.getX rs2)) s

/-- NOT (R283). -/
def execNot (rd rs1 : Reg) (s : State) : Out := writeBack rd (aluNot (s.getX rs1)) s

/-- SHL (R286): the count is the whole value of rs2 (R287). -/
def execShl (rd rs1 rs2 : Reg) (s : State) : Out := writeBack rd (aluShl (s.getX rs1) (s.getX rs2).val) s

/-- SHR (R288): the count is the whole value of rs2 (R287). -/
def execShr (rd rs1 rs2 : Reg) (s : State) : Out := writeBack rd (aluShr (s.getX rs1) (s.getX rs2).val) s

/-- SHLI (R290). -/
def execShli (rd rs1 : Reg) (imm : Nat) (s : State) : Out := writeBack rd (aluShl (s.getX rs1) imm) s

/-- SHRI (R291). -/
def execShri (rd rs1 : Reg) (imm : Nat) (s : State) : Out := writeBack rd (aluShr (s.getX rs1) imm) s

end Sys2Proof.Machine
end

