-- ==== Sys2Proof/Machine/Compare.lean ====
section
/-! DEFINITION. Comparison (`44_compare.md`): CEQ, CNE, CLT, CGT, CLE, CGE compare values whatever the lengths
(R250, R254, R255) and write no flag. -/

namespace Sys2Proof.Machine

open Sys2Proof

/-- A comparison of two registers' values, as a length-1 truth value in rd (R252 to R259). -/
def compareRegs (rel : Nat → Nat → Bool) (rd rs1 rs2 : Reg) (s : State) : Out :=
  writeBack rd (truth (rel (s.getX rs1).val (s.getX rs2).val)) s

/-- CEQ (R252). -/
def execCeq (rd rs1 rs2 : Reg) (s : State) : Out := compareRegs (fun a b => decide (a = b)) rd rs1 rs2 s

/-- CNE (R253). -/
def execCne (rd rs1 rs2 : Reg) (s : State) : Out := compareRegs (fun a b => decide (a ≠ b)) rd rs1 rs2 s

/-- CLT (R256). -/
def execClt (rd rs1 rs2 : Reg) (s : State) : Out := compareRegs (fun a b => decide (a < b)) rd rs1 rs2 s

/-- CGT (R257). -/
def execCgt (rd rs1 rs2 : Reg) (s : State) : Out := compareRegs (fun a b => decide (b < a)) rd rs1 rs2 s

/-- CLE (R258). -/
def execCle (rd rs1 rs2 : Reg) (s : State) : Out := compareRegs (fun a b => decide (a ≤ b)) rd rs1 rs2 s

/-- CGE (R259). -/
def execCge (rd rs1 rs2 : Reg) (s : State) : Out := compareRegs (fun a b => decide (b ≤ a)) rd rs1 rs2 s

end Sys2Proof.Machine
end

