-- ==== Sys2Proof/Machine/Construct.lean ====
section
/-! DEFINITION. Construction and assignment (`42_construct_assign.md`): NEW, SETI, CPY, MOV, MAXV. -/

namespace Sys2Proof.Machine

open Sys2Proof

/-- NEW (R172): a zero of length `imm`, or BAD_WIDTH above MAXL, checked even for x0. -/
def execNew (rd : Reg) (imm : Nat) (s : State) : Out :=
  if s.params.maxl < imm then raise causeBadWidth 0 (.new rd imm) s
  else writeBack rd { len := imm, val := 0 } s

/-- SETI (R178): the immediate in rd's length; TRUNC when it does not fit. -/
def execSeti (rd : Reg) (imm : Nat) (s : State) : Out :=
  writeBack rd (aluSeti (s.getX rd) imm) (s.stickTrunc (tooBig (s.getX rd).len imm))

/-- CPY (R174). -/
def execCpy (rd rs1 : Reg) (s : State) : Out := writeBack rd (s.getX rs1) s

/-- MOV (R176). -/
def execMov (rd rs1 : Reg) (s : State) : Out := writeBack rd (aluMov (s.getX rd) (s.getX rs1)) s

/-- MAXV (R180). -/
def execMaxv (rd rs1 : Reg) (s : State) : Out := writeBack rd (aluMaxv (s.getX rs1)) s

end Sys2Proof.Machine
end

