-- ==== Sys2Proof/Machine/Control.lean ====
section
/-! DEFINITION. Control transfer (`47_control.md`): NOP, HALT, JMP, BZ, BNZ. No flags, no exceptions: a bad target
faults at the next fetch (R329). -/

namespace Sys2Proof.Machine

open Sys2Proof

/-- NOP (R330). -/
def execNop (s : State) : Out := finish s

/-- HALT (R331): pc advances and the engine enters HALTED. -/
def execHalt (s : State) : Out := finish s.enterHalted

/-- JMP (R332). -/
def execJmp (off : Int) (s : State) : Out := goto (s.target off) s

/-- BZ (R333): on the value alone. -/
def execBz (rs1 : Reg) (off : Int) (s : State) : Out :=
  if (s.getX rs1).val = 0 then goto (s.target off) s else finish s

/-- BNZ (R334): on the value alone. -/
def execBnz (rs1 : Reg) (off : Int) (s : State) : Out :=
  if (s.getX rs1).val = 0 then finish s else goto (s.target off) s

end Sys2Proof.Machine
end

