-- ==== Sys2Proof/Machine/LoadStore.lean ====
section
/-! DEFINITION. Load and store (`46_load_store.md`): LD and ST move a register's length of bytes, little-endian
(R70), at `x[rs1].val + zext_16(imm16)` (R77), all of them or none (R76). -/

namespace Sys2Proof.Machine

open Sys2Proof

/-- LD (R310): the byte count is rd's current length. -/
def execLd (rd rs1 : Reg) (imm : Nat) (s : State) : Out :=
  if s.inDmem (s.ea rs1 imm) (s.getX rd).len then
    writeBack rd { len := (s.getX rd).len, val := memRead s.dmem (s.ea rs1 imm) (s.getX rd).len } s
  else raise causeOobMem (s.ea rs1 imm) (.ld rd rs1 imm) s

/-- ST (R311): the byte count is rt's length; limb k goes to DMEM[ea+k]. -/
def execSt (rt rs1 : Reg) (imm : Nat) (s : State) : Out :=
  if s.inDmem (s.ea rs1 imm) (s.getX rt).len then
    finish { s with dmem := memWrite s.dmem (s.ea rs1 imm) (s.getX rt).len (s.getX rt).val }
  else raise causeOobMem (s.ea rs1 imm) (.st rt rs1 imm) s

end Sys2Proof.Machine
end

