-- ==== Sys2Proof/Machine/Dispatch.lean ====
section
/-! DEFINITION. Every constructor of Instr and its meaning: one direct call an arm. -/

namespace Sys2Proof.Machine

open Sys2Proof

/-- The rule of an instruction applied to a state (R383's "execute the instruction's rule"). -/
def exec (i : Instr) (s : State) : Host.Outcome State Fault Refusal :=
  match i with
  | .nop => Sys2Proof.Machine.execNop s
  | .halt => Sys2Proof.Machine.execHalt s
  | .jmp off => Sys2Proof.Machine.execJmp off s
  | .bz rs1 off => Sys2Proof.Machine.execBz rs1 off s
  | .bnz rs1 off => Sys2Proof.Machine.execBnz rs1 off s
  | .new rd imm => Sys2Proof.Machine.execNew rd imm s
  | .seti rd imm => Sys2Proof.Machine.execSeti rd imm s
  | .cpy rd rs1 => Sys2Proof.Machine.execCpy rd rs1 s
  | .mov rd rs1 => Sys2Proof.Machine.execMov rd rs1 s
  | .maxv rd rs1 => Sys2Proof.Machine.execMaxv rd rs1 s
  | .add rd rs1 rs2 => Sys2Proof.Machine.execAdd rd rs1 rs2 s
  | .sub rd rs1 rs2 => Sys2Proof.Machine.execSub rd rs1 rs2 s
  | .mul rd rs1 rs2 => Sys2Proof.Machine.execMul rd rs1 rs2 s
  | .div rd rs1 rs2 => Sys2Proof.Machine.execDiv rd rs1 rs2 s
  | .rem rd rs1 rs2 => Sys2Proof.Machine.execRem rd rs1 rs2 s
  | .neg rd rs1 => Sys2Proof.Machine.execNeg rd rs1 s
  | .inc rd rs1 => Sys2Proof.Machine.execInc rd rs1 s
  | .dec rd rs1 => Sys2Proof.Machine.execDec rd rs1 s
  | .and rd rs1 rs2 => Sys2Proof.Machine.execAnd rd rs1 rs2 s
  | .or rd rs1 rs2 => Sys2Proof.Machine.execOr rd rs1 rs2 s
  | .xor rd rs1 rs2 => Sys2Proof.Machine.execXor rd rs1 rs2 s
  | .not rd rs1 => Sys2Proof.Machine.execNot rd rs1 s
  | .shl rd rs1 rs2 => Sys2Proof.Machine.execShl rd rs1 rs2 s
  | .shr rd rs1 rs2 => Sys2Proof.Machine.execShr rd rs1 rs2 s
  | .shli rd rs1 imm => Sys2Proof.Machine.execShli rd rs1 imm s
  | .shri rd rs1 imm => Sys2Proof.Machine.execShri rd rs1 imm s
  | .ceq rd rs1 rs2 => Sys2Proof.Machine.execCeq rd rs1 rs2 s
  | .cne rd rs1 rs2 => Sys2Proof.Machine.execCne rd rs1 rs2 s
  | .clt rd rs1 rs2 => Sys2Proof.Machine.execClt rd rs1 rs2 s
  | .cgt rd rs1 rs2 => Sys2Proof.Machine.execCgt rd rs1 rs2 s
  | .cle rd rs1 rs2 => Sys2Proof.Machine.execCle rd rs1 rs2 s
  | .cge rd rs1 rs2 => Sys2Proof.Machine.execCge rd rs1 rs2 s
  | .bext rd rs1 rs2 => Sys2Proof.Machine.execBext rd rs1 rs2 s
  | .bins rd rs1 rs2 => Sys2Proof.Machine.execBins rd rs1 rs2 s
  | .bexti rd rs1 imm => Sys2Proof.Machine.execBexti rd rs1 imm s
  | .binsi rd rs1 imm => Sys2Proof.Machine.execBinsi rd rs1 imm s
  | .bgetm rd rs1 imm => Sys2Proof.Machine.execBgetm rd rs1 imm s
  | .bputm rt rs1 imm => Sys2Proof.Machine.execBputm rt rs1 imm s
  | .ld rd rs1 imm => Sys2Proof.Machine.execLd rd rs1 imm s
  | .st rt rs1 imm => Sys2Proof.Machine.execSt rt rs1 imm s

end Sys2Proof.Machine
end

