-- ==== Sys2Proof/Machine/HostPort.lean ====
section
/-! DEFINITION. The host's view (`10_state.md` R50 to R64, `60_exceptions.md` R370, R380 to R384,
`70_reset_and_hazards.md` R400, R402): the address map, HostRead, HostWrite, soft reset and the irq output. -/

namespace Sys2Proof.Machine

open Sys2Proof

/-- What a host address names (R50). -/
inductive HostLoc where
  | id | ctrl | status | pc | cause | faultPc | faultInsn | faultInfo | param0 | param1 | param2
  /-- The LEN word of register `r` (R61). -/
  | regLen (r : Reg)
  /-- The DATA_k word of register `r` (R61). -/
  | regData (r : Reg) (k : Nat)
  /-- Word `p` of the IMEM window (R62). -/
  | imem (p : Nat)
  /-- Word `q` of the DMEM window (R63). -/
  | dmem (q : Nat)
  /-- A reserved address: RAZ/WI (R50, R64). -/
  | reserved
deriving DecidableEq, Repr

/-- The control registers by word index, 0x00000 to 0x00FFF: eleven of them, then reserved (R50). -/
def controlAt (index : Nat) : HostLoc :=
  match index with
  | 0 => .id
  | 1 => .ctrl
  | 2 => .status
  | 3 => .pc
  | 4 => .cause
  | 5 => .faultPc
  | 6 => .faultInsn
  | 7 => .faultInfo
  | 8 => .param0
  | 9 => .param1
  | 10 => .param2
  | _ => .reserved

/-- The register window by word-aligned byte offset: 0x80 bytes per register, LEN at +0x00, reserved to +0x3C,
DATA_k at +0x40 + 4k (R61). -/
def registerAt (off : Nat) : HostLoc :=
  let r : Reg := Fin.ofNat 16 (off / 0x80)
  if off % 0x80 = 0 then .regLen r
  else if off % 0x80 < 0x40 then .reserved
  else .regData r ((off % 0x80 - 0x40) / 4)

/-- The host address map, by its 64 KiB quarter: control registers and register window, IMEM window, DMEM window,
reserved (R50, R61 to R63); address bits [1:0] are ignored (R64). -/
def locate (addr : HostAddr) : HostLoc :=
  let a := addr.toNat / 4 * 4
  match a / 0x10000 with
  | 0 =>
    if a < 0x01000 then controlAt (a / 4)
    else if a < 0x01800 then registerAt (a - 0x01000)
    else .reserved
  | 1 => .imem ((a - 0x10000) / 4)
  | 2 => .dmem ((a - 0x20000) / 4)
  | _ => .reserved

/-- STATUS[1:0] (R41). -/
def RunState.code : RunState → Nat
  | .idle => 0
  | .running => 1
  | .halted => 2
  | .faulted => 3

/-- A one-bit field at bit `i` of a host word. -/
def bitField (b : Bool) (i : Nat) : Nat := if b then 2 ^ i else 0

/-- Byte `j` of a host data word: bits [8j+7:8j] (R61, R63). -/
def byteOf (w : Word) (j : Nat) : Byte := BitVec.ofNat 8 (w.toNat / 2 ^ (8 * j))

/-- STATUS (R55). -/
def State.statusWord (s : State) : Word :=
  BitVec.ofNat 32 (s.runState.code + bitField s.irqPend 8 + bitField s.ovf 9 + bitField s.trunc 10)

/-- PARAM0 (R52): MAXL, NREG, LIMB_BITS and the version, one byte each. -/
def State.param0Word (s : State) : Word :=
  BitVec.ofNat 32 (s.params.maxl % 2 ^ 8 + nreg * 2 ^ 8 + limbBits * 2 ^ 16 + isaVersion * 2 ^ 24)

/-- DATA_k of a register: limbs 4k .. 4k+3, limbs at or above len read 0 (R61). -/
def Vui.dataWord (v : Vui) (k : Nat) : Word :=
  BitVec.ofNat 32 ((v.limb (4 * k)).toNat + (v.limb (4 * k + 1)).toNat * 2 ^ 8 +
    (v.limb (4 * k + 2)).toNat * 2 ^ 16 + (v.limb (4 * k + 3)).toNat * 2 ^ 24)

/-- A DATA_k write: limb 4k+j from byte j where it exists; the length stays (R61). -/
def Vui.setData (v : Vui) (k : Nat) (w : Word) : Vui :=
  (((v.setLimb (4 * k) (byteOf w 0)).setLimb (4 * k + 1) (byteOf w 1)).setLimb
    (4 * k + 2) (byteOf w 2)).setLimb (4 * k + 3) (byteOf w 3)

/-- A LEN write of `w` <= MAXL: `(w, val mod 2^(8w))` (R61, D32). -/
def Vui.resize (v : Vui) (w : Nat) : Vui := { len := w, val := v.val % modulus w }

/-- What a location reads while the engine is not RUNNING. -/
def State.locRead (s : State) : HostLoc → Word
  | .id => idWord
  | .ctrl => BitVec.ofNat 32 (bitField s.irqEn 8)
  | .status => s.statusWord
  | .pc => BitVec.ofNat 32 s.pc.toNat
  | .cause => BitVec.ofNat 32 s.cause.toNat
  | .faultPc => BitVec.ofNat 32 s.faultPc.toNat
  | .faultInsn => s.faultInsn
  | .faultInfo => s.faultInfo
  | .param0 => s.param0Word
  | .param1 => BitVec.ofNat 32 s.params.imemWords
  | .param2 => BitVec.ofNat 32 s.params.dmemBytes
  | .regLen r => BitVec.ofNat 32 ((s.getX r).len % 2 ^ 7)
  | .regData r k => (s.getX r).dataWord k
  | .imem p => if p < s.params.imemWords then s.imemWord p else 0#32
  | .dmem q => if 4 * q < s.params.dmemBytes then BitVec.ofNat 32 (memRead s.dmem (4 * q) 4) else 0#32
  | .reserved => 0#32

/-- PC and the three windows: what the host is locked out of while the engine runs (R56, R61 to R63, R82). -/
def HostLoc.locked : HostLoc → Bool
  | .pc => true
  | .regLen _ => true
  | .regData _ _ => true
  | .imem _ => true
  | .dmem _ => true
  | .id => false
  | .ctrl => false
  | .status => false
  | .cause => false
  | .faultPc => false
  | .faultInsn => false
  | .faultInfo => false
  | .param0 => false
  | .param1 => false
  | .param2 => false
  | .reserved => false

/-- STATE = RUNNING. -/
def State.isRunning (s : State) : Bool := decide (s.runState = .running)

/-- HostRead(addr) (R380): while RUNNING, PC and the windows read 0. A host read changes nothing (R64). -/
def State.hostRead (s : State) (addr : HostAddr) : Word :=
  if s.isRunning && (locate addr).locked then 0#32 else s.locRead (locate addr)

/-- Soft reset (R402): the effect of R400 on everything but IMEM and DMEM. (The parameters are constants; `events`
and `answer` are the outside world's.) -/
def State.softReset (s : State) : State :=
  { State.resetWith s.params s.imem s.dmem with events := s.events, answer := s.answer }

/-- Hardware reset (R400) that leaves IMEM and DMEM with the given contents (R44). -/
def State.hardReset (s : State) (imem : List (Nat × Word)) (dmem : List Host.Cell) : State :=
  { State.resetWith s.params (cellsLoad s.params.imemWords imem) (cellsLoad s.params.dmemBytes dmem) with
    events := s.events, answer := s.answer }

/-- A stop request (R384): `STOP_REQ <- 1` while RUNNING, ignored otherwise. -/
def State.stopRequest (s : State) : State :=
  if s.runState = .running then { s with stopReq := true } else s

/-- A CTRL write, acted on as a whole (R54): bit 2 alone is the soft reset; otherwise IRQ_EN takes bit 8 and bits
0 and 1 are a start and a stop request, each judged by the STATE before the write, so at most one of the
two does anything (log 5). -/
def State.writeCtrl (s : State) (w : Word) : State :=
  if w.getLsbD 2 then s.softReset
  else
    let s1 := { s with irqEn := w.getLsbD 8 }
    if s.runState = .running then (if w.getLsbD 1 then s1.stopRequest else s1)
    else (if w.getLsbD 0 then s1.startRequest else s1)

/-- A STATUS write: 1 clears IRQ_PEND (bit 8), OVF (bit 9), TRUNC (bit 10); 0 has no effect (R55). -/
def State.writeStatus (s : State) (w : Word) : State :=
  { s with
    irqPend := s.irqPend && !w.getLsbD 8
    ovf := s.ovf && !w.getLsbD 9
    trunc := s.trunc && !w.getLsbD 10 }

/-- What a write to a location does while the engine is not RUNNING; x0 ignores writes through `setX` (R33). -/
def State.locWrite (s : State) (w : Word) : HostLoc → State
  | .id => s
  | .ctrl => s.writeCtrl w
  | .status => s.writeStatus w
  | .pc => { s with pc := BitVec.ofNat 16 w.toNat }
  | .cause => s
  | .faultPc => s
  | .faultInsn => s
  | .faultInfo => s
  | .param0 => s
  | .param1 => s
  | .param2 => s
  | .regLen r => if w.toNat ≤ s.params.maxl then s.setX r ((s.getX r).resize w.toNat) else s
  | .regData r k => s.setX r ((s.getX r).setData k w)
  | .imem p => if p < s.params.imemWords then { s with imem := cellWrite s.imem p w } else s
  | .dmem q =>
    if 4 * q < s.params.dmemBytes then { s with dmem := memWrite s.dmem (4 * q) 4 w.toNat } else s
  | .reserved => s

/-- HostWrite(addr, word) (R380): while RUNNING, writes of PC and the windows are ignored. -/
def State.hostWrite (s : State) (addr : HostAddr) (w : Word) : State :=
  if s.isRunning && (locate addr).locked then s else s.locWrite w (locate addr)

/-- The interrupt output: `irq = IRQ_PEND and IRQ_EN` (R48, R370). -/
def State.irq (s : State) : Bool := s.irqPend && s.irqEn

end Sys2Proof.Machine
end

