-- ==== Sys2Proof/Machine/Engine.lean ====
section
/-! DEFINITION. The engine's step (R383, R384, R358) and the step of the whole machine: the first event of the
total order of R80 that is still to come, or the engine's step where none is listed. -/

namespace Sys2Proof.Machine

open Sys2Proof

/-- `pc >= IMEM_WORDS`: there is nothing to fetch (R352). -/
def State.fetchOob (s : State) : Bool := decide (s.params.imemWords ≤ s.pc.toNat)

/-- `IMEM[pc]` (R72, R383). -/
def State.fetched (s : State) : Word := s.imemWord s.pc.toNat

/-- Decode and execute a fetched word (R383): an illegal word is ILLEGAL_INSN (R351). -/
def runWord (insn : Word) (s : State) : Out :=
  match decode insn with
  | .ok i => exec i s
  | .error _ => .next (s.faultEntry causeIllegalInsn insn 0)

/-- One engine step. While STATE is not RUNNING the engine takes no step, so nothing changes (R383, R381, log
4); with STOP_REQ = 1 it is the stop step (R384); then FETCH_OOB, ILLEGAL_INSN, and the instruction's own
check, in that order (R358). -/
def engineStep (s : State) : Out :=
  if s.runState = .running then
    if s.stopReq then .next s.enterHalted
    else if s.fetchOob then .next (s.faultEntry causeFetchOob 0#32 0)
    else runWord s.fetched s
  else .next s

/-- One event of the total order (R80): a host operation, an engine turn, or a hardware reset (R386). -/
def eventStep (e : Event) (s : State) : Out :=
  match e with
  | .hostRead addr => .next { s with answer := some (s.hostRead addr) }
  | .hostWrite addr w => .next (s.hostWrite addr w)
  | .engineTurn => engineStep s
  | .hardwareReset imem dmem => .next (s.hardReset imem dmem)

/-- One step of the machine: the first event still to come, or an engine step (log 2). -/
def machineStep (s : State) : Out :=
  match s.events with
  | [] => engineStep s
  | e :: rest => eventStep e { s with events := rest }

/-- `s` with the engine about to fetch `word`: the word at the pc's index of IMEM (at index 0, with pc 0, where pc
lies outside IMEM), the engine RUNNING with no stop request, and no event before its step (log 9). -/
def State.placeWord (s : State) (word : Word) : State :=
  let p : PcWord := if s.fetchOob then 0#16 else s.pc
  { s with
    imem := cellWrite s.imem p.toNat word
    pc := p
    runState := .running
    stopReq := false
    events := [] }

end Sys2Proof.Machine
end

