-- ==== Sys2Proof/Machine/Step.lean ====
section
/-! DEFINITION. The step of the machine and the place of the next instruction, both by name in Engine.lean. -/

namespace Sys2Proof.Machine

open Sys2Proof

/-- One step of the machine (R80, R383). -/
def step (s : State) : Host.Outcome State Fault Refusal := machineStep s

/-- `s` about to run the instruction whose bits are `w`, numbered from bit 0, every bit above `nbits` zero: one
32-bit IMEM word, bit k of the word being bit k of the instruction (R72, R100). -/
def State.withFetchWord (s : State) (nbits w : Nat) : State :=
  s.placeWord (BitVec.ofNat 32 (w % 2 ^ nbits))

end Sys2Proof.Machine
end

