-- ==== Sys2Proof/Machine/Assembler.lean ====
section
/-! DEFINITION. The assembler of R109 and R110: text lines to instructions. It is no part of the machine: no step
reads it. A line is a list of characters; every function is structural. -/

namespace Sys2Proof.Machine

open Sys2Proof

/-- Why the assembler rejects a line (R109, R110). -/
inductive AsmError where
  /-- No mnemonic or pseudo-instruction of that name. -/
  | unknownMnemonic
  /-- The operands are not in the form of the mnemonic's format. -/
  | badOperands
  /-- An immediate outside 0..65535, or a distance outside -32768..32767. -/
  | outOfRange
  /-- A label that no line defines. -/
  | unknownLabel
  /-- A pseudo-instruction whose registers R110 rules out. -/
  | badPseudo
deriving DecidableEq, Repr

/-- The lexical parts of a line. -/
inductive AsmTok where
  | word (cs : List Char)
  | comma | lpar | rpar | colon
deriving DecidableEq, Repr

/-- One operand. -/
inductive AsmOperand where
  /-- `x0` .. `x15`. -/
  | reg (r : Reg)
  /-- A decimal or `0x` number. -/
  | num (n : Nat)
  /-- A signed word offset written with its sign. -/
  | rel (off : Int)
  /-- A label. -/
  | label (cs : List Char)
  /-- `imm(rs1)`; `(rs1)` has imm 0. -/
  | mem (imm : Nat) (r : Reg)
deriving DecidableEq, Repr

/-- How a mnemonic reads its operands, and what it builds (R109's list by format; R110's forms). -/
inductive AsmForm where
  | n (i : Instr)
  | r3 (i : Reg → Reg → Reg → Instr)
  | r2 (i : Reg → Reg → Instr)
  /-- `OP rd, rs1, imm`. -/
  | imm (i : Reg → Reg → Nat → Instr)
  /-- `OP r, imm(rs1)`. -/
  | mem (i : Reg → Reg → Nat → Instr)
  | u (i : Reg → Nat → Instr)
  | br (i : Reg → Int → Instr)
  | j (i : Int → Instr)
  | pLi
  | p1 (p : Reg → Pseudo)
  | p2 (p : Reg → Reg → Pseudo)
  | p4 (p : Reg → Reg → Reg → Reg → Pseudo)
  | pB
  | pCmp (op : CompareOp)

/-- Control, construction and assignment (R104, R109). -/
def asmControl : List (List Char × AsmForm) :=
  [(['N','O','P'], .n .nop), (['H','A','L','T'], .n .halt), (['J','M','P'], .j .jmp),
   (['B','Z'], .br .bz), (['B','N','Z'], .br .bnz), (['N','E','W'], .u .new), (['S','E','T','I'], .u .seti),
   (['C','P','Y'], .r2 .cpy), (['M','O','V'], .r2 .mov), (['M','A','X','V'], .r2 .maxv)]

/-- Arithmetic (R104, R109). -/
def asmArith : List (List Char × AsmForm) :=
  [(['A','D','D'], .r3 .add), (['S','U','B'], .r3 .sub), (['M','U','L'], .r3 .mul), (['D','I','V'], .r3 .div),
   (['R','E','M'], .r3 .rem), (['N','E','G'], .r2 .neg), (['I','N','C'], .r2 .inc), (['D','E','C'], .r2 .dec)]

/-- Bitwise and shift (R104, R109). -/
def asmBitwise : List (List Char × AsmForm) :=
  [(['A','N','D'], .r3 .and), (['O','R'], .r3 .or), (['X','O','R'], .r3 .xor), (['N','O','T'], .r2 .not),
   (['S','H','L'], .r3 .shl), (['S','H','R'], .r3 .shr), (['S','H','L','I'], .imm .shli),
   (['S','H','R','I'], .imm .shri)]

/-- Comparison (R104, R109). -/
def asmCompare : List (List Char × AsmForm) :=
  [(['C','E','Q'], .r3 .ceq), (['C','N','E'], .r3 .cne), (['C','L','T'], .r3 .clt), (['C','G','T'], .r3 .cgt),
   (['C','L','E'], .r3 .cle), (['C','G','E'], .r3 .cge)]

/-- Bit access, load and store (R104, R109). -/
def asmMemory : List (List Char × AsmForm) :=
  [(['B','E','X','T'], .r3 .bext), (['B','I','N','S'], .r3 .bins), (['B','E','X','T','I'], .imm .bexti),
   (['B','I','N','S','I'], .imm .binsi), (['B','G','E','T','M'], .mem .bgetm), (['B','P','U','T','M'], .mem .bputm),
   (['L','D'], .mem .ld), (['S','T'], .mem .st)]

/-- Pseudo-instructions but the two groups below (R110). -/
def asmPseudo : List (List Char × AsmForm) :=
  [(['L','I'], .pLi), (['C','L','R'], .p1 .clr), (['P','R','E','I','N','C'], .p1 .preinc),
   (['P','R','E','D','E','C'], .p1 .predec), (['P','O','S','T','I','N','C'], .p2 .postinc),
   (['P','O','S','T','D','E','C'], .p2 .postdec), (['D','I','V','R','E','M'], .p4 .divrem), (['B'], .pB)]

/-- Compound assignments (R110). -/
def asmCompound : List (List Char × AsmForm) :=
  [(['A','D','D','A'], .p2 (.opa .add)), (['S','U','B','A'], .p2 (.opa .sub)), (['M','U','L','A'], .p2 (.opa .mul)),
   (['D','I','V','A'], .p2 (.opa .div)), (['R','E','M','A'], .p2 (.opa .rem)), (['A','N','D','A'], .p2 (.opa .and)),
   (['O','R','A'], .p2 (.opa .or)), (['X','O','R','A'], .p2 (.opa .xor)), (['S','H','L','A'], .p2 (.opa .shl)),
   (['S','H','R','A'], .p2 (.opa .shr))]

/-- Compare-and-branch forms (R110). -/
def asmCompareBranch : List (List Char × AsmForm) :=
  [(['B','E','Q'], .pCmp .eq), (['B','N','E'], .pCmp .ne), (['B','L','T'], .pCmp .lt), (['B','G','T'], .pCmp .gt),
   (['B','L','E'], .pCmp .le), (['B','G','E'], .pCmp .ge)]

/-- The mnemonics (R104, R109) and the pseudo-instructions (R110), in capitals. -/
def asmTable : List (List Char × AsmForm) :=
  asmControl ++ asmArith ++ asmBitwise ++ asmCompare ++ asmMemory ++ asmPseudo ++ asmCompound ++ asmCompareBranch

/-- Mnemonics are case-insensitive (R109). -/
def upcase (c : Char) : Char := if 97 ≤ c.toNat ∧ c.toNat ≤ 122 then Char.ofNat (c.toNat - 32) else c

/-- The form of a mnemonic. -/
def formOfMnemonic (cs : List Char) : Option AsmForm :=
  (asmTable.find? fun e => e.1 == cs.map upcase).map (·.2)

/-- The pending word, if any, put before the tokens after it. -/
def flushWord (w : List Char) (rest : List AsmTok) : List AsmTok :=
  if w.isEmpty then rest else .word w.reverse :: rest

/-- The tokens of a line up to its comment; `w` is the word being read, last character first. -/
def tokenize : List Char → List Char → List AsmTok
  | w, [] => flushWord w []
  | w, c :: cs =>
    if c = ';' then flushWord w []
    else if c = ' ' ∨ c = '\t' then flushWord w (tokenize [] cs)
    else if c = ',' then flushWord w (.comma :: tokenize [] cs)
    else if c = '(' then flushWord w (.lpar :: tokenize [] cs)
    else if c = ')' then flushWord w (.rpar :: tokenize [] cs)
    else if c = ':' then flushWord w (.colon :: tokenize [] cs)
    else tokenize (c :: w) cs

/-- A digit's value in the given base, 10 or 16. -/
def digitValue (base : Nat) (c : Char) : Option Nat :=
  let v : Nat :=
    if 48 ≤ c.toNat ∧ c.toNat ≤ 57 then c.toNat - 48
    else if 97 ≤ c.toNat ∧ c.toNat ≤ 102 then c.toNat - 87
    else if 65 ≤ c.toNat ∧ c.toNat ≤ 70 then c.toNat - 55
    else 16
  if v < base then some v else none

/-- Digits in a base after the value `acc`. -/
def digitsFrom (base : Nat) : Nat → List Char → Option Nat
  | acc, [] => some acc
  | acc, c :: cs =>
    match digitValue base c with
    | some v => digitsFrom base (acc * base + v) cs
    | none => none

/-- "Numbers are decimal or `0x` hexadecimal" (R109). -/
def parseNat (cs : List Char) : Option Nat :=
  match cs with
  | [] => none
  | '0' :: 'x' :: d :: ds => digitsFrom 16 0 (d :: ds)
  | d :: ds => digitsFrom 10 0 (d :: ds)

/-- "Registers are `x0`..`x15`" (R109). -/
def parseReg (cs : List Char) : Option Reg :=
  match cs with
  | ['x', d] => (digitValue 10 d).map (Fin.ofNat 16)
  | ['x', '1', d] =>
    match digitValue 10 d with
    | some v => if v < 6 then some (Fin.ofNat 16 (10 + v)) else none
    | none => none
  | _ => none

/-- A word on its own: a register, a signed offset, a number, or else a label. -/
def wordOperand (cs : List Char) : Option AsmOperand :=
  match parseReg cs with
  | some r => some (.reg r)
  | none =>
    match cs with
    | '+' :: ds => (parseNat ds).map fun n => .rel (n : Int)
    | '-' :: ds => (parseNat ds).map fun n => .rel (-(n : Int))
    | c :: ds =>
      match digitValue 10 c with
      | some _ => (parseNat (c :: ds)).map .num
      | none => some (.label (c :: ds))
    | [] => none

/-- One operand from the tokens between two commas. -/
def parseOperand (ts : List AsmTok) : Option AsmOperand :=
  match ts with
  | [.word cs] => wordOperand cs
  | [.lpar, .word r, .rpar] => (parseReg r).map (.mem 0)
  | [.word n, .lpar, .word r, .rpar] =>
    match parseNat n, parseReg r with
    | some imm, some reg => some (.mem imm reg)
    | _, _ => none
  | _ => none

/-- The token lists between commas; `cur` is the list being read, last token first. -/
def splitCommas : List AsmTok → List AsmTok → List (List AsmTok)
  | cur, [] => [cur.reverse]
  | cur, .comma :: ts => cur.reverse :: splitCommas [] ts
  | cur, t :: ts => splitCommas (t :: cur) ts

/-- All operands of a line. -/
def parseOperands (ts : List AsmTok) : Option (List AsmOperand) :=
  if ts.isEmpty then some [] else (splitCommas [] ts).mapM parseOperand

/-- A line: its label, and its mnemonic with its operands; a line may hold neither (log 10). -/
def parseLine (line : List Char) : Option (Option (List Char) × Option (List Char × List AsmOperand)) :=
  let body (ts : List AsmTok) : Option (Option (List Char × List AsmOperand)) :=
    match ts with
    | [] => some none
    | .word m :: rest => (parseOperands rest).map fun os => some (m, os)
    | _ => none
  match tokenize [] line with
  | .word l :: .colon :: rest => (body rest).map fun b => (some l, b)
  | ts => (body ts).map fun b => (none, b)

/-- How many words a form assembles to (R110). -/
def AsmForm.size : AsmForm → Nat
  | .pLi => 2
  | .p1 _ => 1
  | .p2 p =>
    match p 0 0 with
    | .postinc _ _ => 2
    | .postdec _ _ => 2
    | _ => 1
  | .p4 _ => 2
  | .pCmp _ => 2
  | _ => 1

/-- The words of a line, 0 for a line without a mnemonic. -/
def lineSize (line : List Char) : Nat :=
  match parseLine line with
  | some (_, some (m, _)) =>
    match formOfMnemonic m with
    | some f => f.size
    | none => 0
  | _ => 0

/-- The labels of a program: each the index of the word that follows it. -/
def collectLabels : Nat → List (List Char) → List (List Char × Nat)
  | _, [] => []
  | at_, line :: rest =>
    match parseLine line with
    | some (some l, _) => (l, at_) :: collectLabels (at_ + lineSize line) rest
    | _ => collectLabels (at_ + lineSize line) rest

/-- A branch target as a word offset from the branch's own index `pc`: a signed offset as written, or
`label_index - pc` (R109). -/
def targetOffset (labels : List (List Char × Nat)) (pc : Nat) (o : AsmOperand) : Except AsmError Int :=
  match o with
  | .rel off => if offOk off then .ok off else .error .outOfRange
  | .label l =>
    match labels.find? fun e => e.1 == l with
    | some e => if offOk ((e.2 : Int) - (pc : Int)) then .ok ((e.2 : Int) - (pc : Int)) else .error .outOfRange
    | none => .error .unknownLabel
  | _ => .error .badOperands

/-- An instruction that the encoding can hold, or a rejection (R109). -/
def checked (i : Instr) : Except AsmError (List Instr) :=
  if i.wf then .ok [i] else .error .outOfRange

/-- The expansion of a pseudo-instruction that R110 allows. -/
def expanded (p : Pseudo) : Except AsmError (List Instr) :=
  if p.wf then .ok p.expand else .error .badPseudo

/-- The instructions of one mnemonic with its operands, the first of them at index `pc`. -/
def build (labels : List (List Char × Nat)) (pc : Nat) (f : AsmForm) (os : List AsmOperand) :
    Except AsmError (List Instr) :=
  match f, os with
  | .n i, [] => .ok [i]
  | .r3 i, [.reg a, .reg b, .reg c] => .ok [i a b c]
  | .r2 i, [.reg a, .reg b] => .ok [i a b]
  | .imm i, [.reg a, .reg b, .num n] => checked (i a b n)
  | .mem i, [.reg a, .mem n b] => checked (i a b n)
  | .u i, [.reg a, .num n] => checked (i a n)
  | .br i, [.reg a, t] => (targetOffset labels pc t).bind fun off => .ok [i a off]
  | .j i, [t] => (targetOffset labels pc t).bind fun off => .ok [i off]
  | .pLi, [.reg a, .num n, .num v] => if immOk n && immOk v then expanded (.li a n v) else .error .outOfRange
  | .p1 p, [.reg a] => expanded (p a)
  | .p2 p, [.reg a, .reg b] => expanded (p a b)
  | .p4 p, [.reg a, .reg b, .reg c, .reg d] => expanded (p a b c d)
  | .pB, [t] => (targetOffset labels pc t).bind fun off => expanded (.b off)
  | .pCmp op, [.reg a, .reg b, .reg c, t] =>
    (targetOffset labels (pc + 1) t).bind fun off => expanded (.bcmp op a b c off)
  | _, _ => .error .badOperands

/-- One line at index `pc` (R109, R110). -/
def assembleLine (labels : List (List Char × Nat)) (pc : Nat) (line : List Char) :
    Except AsmError (List Instr) :=
  match parseLine line with
  | none => .error .badOperands
  | some (_, none) => .ok []
  | some (_, some (m, os)) =>
    match formOfMnemonic m with
    | none => .error .unknownMnemonic
    | some f => build labels pc f os

/-- The lines of a program from index `pc`. -/
def assembleFrom (labels : List (List Char × Nat)) : Nat → List (List Char) → Except AsmError (List Instr)
  | _, [] => .ok []
  | pc, line :: rest =>
    (assembleLine labels pc line).bind fun is =>
      (assembleFrom labels (pc + is.length) rest).bind fun more => .ok (is ++ more)

/-- A whole program, its first instruction at index 0 (R109). -/
def assemble (lines : List (List Char)) : Except AsmError (List Instr) :=
  assembleFrom (collectLabels 0 lines) 0 lines

end Sys2Proof.Machine
end

