-- ==== Sys2Proof/Machine/Datapath.lean ====
section
/-! DEFINITION. The source's algorithms, limb by limb and bit by bit, as the spec transcribes them: the reference
datapaths R201, R204, R205, R211, R216, the scans R250, R254, the one-bit shift steps R284, R285, and the bit
accessor over a byte buffer R140, R141. "A model may use either": the meanings use the laws of Alu.lean, and
that the two agree is a statement of this row for each. Limbs are naturals below 256, limb 0 first (R15). -/

namespace Sys2Proof.Machine

open Sys2Proof

/-- The `L` limbs of `v`, limb 0 first (R15). -/
def toLimbs : Nat → Nat → List Nat
  | 0, _ => []
  | L + 1, v => v % 256 :: toLimbs L (v / 256)

/-- The value of a limb list: the sum of limb_k x 2^(8k) (R15). -/
def ofLimbs : List Nat → Nat
  | [] => 0
  | x :: rest => x + 256 * ofLimbs rest

/-- `limb_k(v)`: `v[8k+7:8k]` (R15). -/
def limbOf (v k : Nat) : Nat := v / 2 ^ (8 * k) % 256

/-! ## Bit accessor -/

/-- getBit (R140): `buf[i div 8][i mod 8]`. -/
def bufGetBit (buf : List Nat) (i : Nat) : Nat := bitOf (buf.getD (i / 8) 0) (i % 8)

/-- setBit (R141): `buf[i div 8] <- (buf[i div 8] AND NOT 2^(i mod 8)) OR (b x 2^(i mod 8))`. -/
def bufSetBit (buf : List Nat) (i b : Nat) : List Nat :=
  buf.set (i / 8) (setBitOf (buf.getD (i / 8) 0) (i % 8) b)

/-! ## Addition -/

/-- Ripple carry (R201) over two limb lists of one length: the sum's limbs and the carry out. -/
def rippleCarry : List Nat → List Nat → Nat → List Nat × Nat
  | x :: xs, y :: ys, c =>
    let r := rippleCarry xs ys ((x + y + c) / 256)
    ((x + y + c) % 256 :: r.1, r.2)
  | _, _, c => ([], c)

/-! ## Subtraction -/

/-- R205's walk: decrement the first nonzero limb and set the zero limbs before it to 0xFF. -/
def borrowWalk : List Nat → List Nat
  | [] => []
  | 0 :: xs => 255 :: borrowWalk xs
  | (x + 1) :: xs => x :: xs

/-- Ripple borrow (R205) over two limb lists of one length, for a minuend that is not smaller. -/
def rippleBorrow : List Nat → List Nat → List Nat
  | x :: xs, y :: ys =>
    if x < y then (x + 256 - y) :: rippleBorrow (borrowWalk xs) ys
    else (x - y) :: rippleBorrow xs ys
  | _, _ => []

/-! ## Comparison -/

/-- The less-than scan (R254) over limbs k-1 down to 0. -/
def lessScan (a b : Nat) : Nat → Bool
  | 0 => false
  | k + 1 => if limbOf a k ≠ limbOf b k then decide (limbOf a k < limbOf b k) else lessScan a b k

/-- The equality scan (R250): the overlapping limbs equal, the extra limbs of the longer operand all zero. -/
def equalScan : List Nat → List Nat → Bool
  | x :: xs, y :: ys => decide (x = y) && equalScan xs ys
  | [], ys => ys.all fun y => decide (y = 0)
  | xs, [] => xs.all fun x => decide (x = 0)

/-- The source's subtraction at `W` limbs (R204): `(maxValue - (b - a)) + 1` when b > a, the ripple borrow
otherwise. -/
def twoCaseSub (W a b : Nat) : Nat :=
  if lessScan a b W then (modulus W - 1 - ofLimbs (rippleBorrow (toLimbs W b) (toLimbs W a))) + 1
  else ofLimbs (rippleBorrow (toLimbs W a) (toLimbs W b))

/-! ## Multiplication -/

/-- R211's loop: `h` halves, `d` doubles modulo `m`, `acc` sums the doubled values whose halved value was odd.
`fuel` bounds the passes; 8W are enough for h < 2^(8W). -/
def doubleAndAdd (m : Nat) : Nat → Nat → Nat → Nat → Nat
  | 0, _, _, acc => acc
  | fuel + 1, h, d, acc =>
    let acc' := if h % 2 = 1 then (acc + d) % m else acc
    if h = 1 then acc' else doubleAndAdd m fuel (h / 2) (2 * d % m) acc'

/-- The shift-and-add multiplier (R211) at `W` limbs. -/
def shiftAndAddMul (W a b : Nat) : Nat :=
  if a = 0 ∨ b = 0 then 0 else doubleAndAdd (modulus W) (8 * W) a b 0

/-! ## Division -/

/-- The restoring divider's loop (R216) over bits k-1 down to 0, from quotient `q` and remainder `r`. -/
def restoringLoop (a b : Nat) : Nat → Nat → Nat → Nat × Nat
  | 0, q, r => (q, r)
  | k + 1, q, r =>
    if b ≤ 2 * r + bitOf a k then restoringLoop a b k (setBitOf q k 1) (2 * r + bitOf a k - b)
    else restoringLoop a b k q (2 * r + bitOf a k)

/-- The restoring divider (R216) for a dividend of `aLen` limbs: quotient and remainder. -/
def restoringDivide (aLen a b : Nat) : Nat × Nat := restoringLoop a b (8 * aLen) 0 0

/-! ## Shifts -/

/-- One left-shift step (R284): each limb shifts left by one, its top bit goes to bit 0 of the next higher limb,
the top limb's is lost. `c` is the bit that enters limb 0. -/
def shlStep : Nat → List Nat → List Nat
  | _, [] => []
  | c, x :: xs => (2 * x % 256 + c) :: shlStep (x / 128) xs

/-- One right-shift step (R285): each limb shifts right by one, its bit 0 goes to the top bit of the next lower
limb, zero enters at the top. -/
def shrStep : List Nat → List Nat
  | [] => []
  | x :: xs => (x / 2 + 128 * (xs.headD 0 % 2)) :: shrStep xs

/-- "one bit at a time, n times" (R284, R285). -/
def repeatStep (f : List Nat → List Nat) : Nat → List Nat → List Nat
  | 0, l => l
  | n + 1, l => repeatStep f n (f l)

end Sys2Proof.Machine
end

