-- ==== Sys2Proof/Safety.lean ====
section
/-! DEFINITION. What the claims are stated in: the invariant of the machine, the end of a run (R387), and what it
means that an instruction completes, with all it leaves unchanged, or takes a fault (R360). -/

namespace Sys2Proof.Machine

open Sys2Proof

/-! ## The invariant -/

/-- Every register holds a pair that R31 allows, and the hardwired x0 holds (0, 0) (R33). -/
def State.regsOk (s : State) : Bool :=
  decide (∀ r : Reg, (s.regs.get r).fits s.params.maxl = true) &&
    decide (s.regs.get 0 = { len := 0, val := 0 })

/-- Both memories are in canonical form and list only cells that exist (R43). -/
def State.memoriesOk (s : State) : Bool :=
  Memory.wf s.imem && Memory.within s.params.imemWords s.imem &&
    Memory.wf s.dmem && Memory.within s.params.dmemBytes s.dmem

/-- CAUSE is one of the codes 0 to 6 (R350, S9), and it is not 0 exactly while STATE = FAULTED (R57, R360, R382,
R386). -/
def State.causeOk (s : State) : Bool :=
  decide (s.cause.toNat ≤ 6) && decide (s.cause ≠ 0#4 ↔ s.runState = .faulted)

/-- STOP_REQ is 1 only while RUNNING (R42). -/
def State.stopOk (s : State) : Bool := !s.stopReq || s.isRunning

/-- The invariant of the machine. -/
abbrev State.Inv (s : State) : Prop :=
  s.params.legal = true ∧ s.regsOk = true ∧ s.memoriesOk = true ∧ s.causeOk = true ∧ s.stopOk = true

/-! ## Runs -/

/-- "A run ... ends at the first step that leaves STATE in HALTED or FAULTED" (R387): that state, or none within
`n` steps. -/
def runToEnd : Nat → State → Option State
  | 0, _ => none
  | n + 1, s =>
    match step s with
    | .next t => if t.runState = .halted ∨ t.runState = .faulted then some t else runToEnd n t
    | .fault _ => none
    | .refused _ => none

/-- A safe run: it ends, and not in a fault. -/
def safeRun (n : Nat) (s : State) : Bool :=
  match runToEnd n s with
  | some t => decide (t.runState = .halted)
  | none => false

/-- It is the engine's turn at `s`: no event is listed, or the engine's turn is the first of them (R80, log 2); `u` is
`s` with that event taken off the list, the state the engine's step starts from. -/
def EngineTurnAt (s u : State) : Prop :=
  (s.events = [] ∧ u = s) ∨ ∃ rest, s.events = .engineTurn :: rest ∧ u = { s with events := rest }

/-! ## Completing and faulting -/

/-- Everything but the registers, pc, OVF, TRUNC, STATE, STOP_REQ, IRQ_PEND and DMEM is unchanged. -/
def KeepsRest (s t : State) : Prop :=
  t.irqEn = s.irqEn ∧ t.cause = s.cause ∧ t.faultPc = s.faultPc ∧ t.faultInsn = s.faultInsn ∧
  t.faultInfo = s.faultInfo ∧ t.imem = s.imem ∧ t.params = s.params ∧ t.events = s.events ∧ t.answer = s.answer

/-- STATE, STOP_REQ and IRQ_PEND are unchanged. -/
def KeepsRunState (s t : State) : Prop :=
  t.runState = s.runState ∧ t.stopReq = s.stopReq ∧ t.irqPend = s.irqPend

/-- Every byte of DMEM reads as before. -/
def KeepsDmem (s t : State) : Prop := ∀ a, t.dmemByte a = s.dmemByte a

/-- Every register reads as before. -/
def KeepsRegs (s t : State) : Prop := ∀ r, t.getX r = s.getX r

/-- `rd` reads `v` (x0 reads (0, 0) whatever is written to it, R33) and every other register reads as before. -/
def WritesOnly (s t : State) (rd : Reg) (v : Vui) : Prop :=
  t.getX rd = (if rd = 0 then { len := 0, val := 0 } else v) ∧ ∀ r, r ≠ rd → t.getX r = s.getX r

/-- The outcome `o` of an instruction at `s`: it completes, writes `v` to `rd`, leaves OVF and TRUNC as given,
advances pc (R38) and changes nothing else. -/
def CompletesWith (s : State) (o : Out) (rd : Reg) (v : Vui) (ovf trunc : Bool) : Prop :=
  ∃ t, o = .next t ∧ WritesOnly s t rd v ∧ t.pc = s.pc + 1#16 ∧ t.ovf = ovf ∧ t.trunc = trunc ∧
    KeepsDmem s t ∧ KeepsRunState s t ∧ KeepsRest s t

/-- The outcome `o` of an instruction at `s`: it completes, writes `v` to `rd` and no flag. -/
def Completes (s : State) (o : Out) (rd : Reg) (v : Vui) : Prop := CompletesWith s o rd v s.ovf s.trunc

/-- The outcome `o` of a control transfer at `s`: it completes with the given pc and changes nothing else. -/
def TransfersTo (s : State) (o : Out) (pc : PcWord) : Prop :=
  ∃ t, o = .next t ∧ t.pc = pc ∧ KeepsRegs s t ∧ t.ovf = s.ovf ∧ t.trunc = s.trunc ∧
    KeepsDmem s t ∧ KeepsRunState s t ∧ KeepsRest s t

/-- The outcome `o` of a store at `s`: it completes, the `n` bytes from `addr` become the bytes of `v` (byte k is
`v[8k+7:8k]`), every other byte reads as before, and nothing else changes but pc. -/
def Stores (s : State) (o : Out) (addr n v : Nat) : Prop :=
  ∃ t, o = .next t ∧ t.pc = s.pc + 1#16 ∧
    (∀ k, k < n → (t.dmemByte (addr + k)).toNat = v / 2 ^ (8 * k) % 2 ^ 8) ∧
    (∀ a, a < addr ∨ addr + n ≤ a → t.dmemByte a = s.dmemByte a) ∧
    KeepsRegs s t ∧ t.ovf = s.ovf ∧ t.trunc = s.trunc ∧ KeepsRunState s t ∧ KeepsRest s t

/-- The outcome `o` of an engine step at `s` is fault entry (R360): the fault record, STATE = FAULTED, IRQ_PEND = 1,
STOP_REQ = 0, and nothing else changed, pc included. -/
def TakesFault (s : State) (o : Out) (cause : Nat) (insn : Word) (info : Nat) : Prop :=
  ∃ t, o = .next t ∧ t.runState = .faulted ∧ t.cause.toNat = cause ∧ t.faultPc = s.pc ∧ t.faultInsn = insn ∧
    t.faultInfo.toNat = min info (2 ^ 32 - 1) ∧ t.irqPend = true ∧ t.stopReq = false ∧ t.pc = s.pc ∧
    KeepsRegs s t ∧ KeepsDmem s t ∧ t.ovf = s.ovf ∧ t.trunc = s.trunc ∧ t.irqEn = s.irqEn ∧ t.imem = s.imem ∧
    t.params = s.params ∧ t.events = s.events ∧ t.answer = s.answer

/-- Nothing but the registers changes. -/
def KeepsNonRegs (s t : State) : Prop :=
  t.pc = s.pc ∧ t.ovf = s.ovf ∧ t.trunc = s.trunc ∧ KeepsDmem s t ∧ KeepsRunState s t ∧ KeepsRest s t

/-- The reset values of R400, memories apart (R44). -/
def HasResetValues (t : State) : Prop :=
  (∀ r, t.getX r = { len := 0, val := 0 }) ∧ t.pc = 0#16 ∧ t.runState = .idle ∧ t.stopReq = false ∧
  t.ovf = false ∧ t.trunc = false ∧ t.irqPend = false ∧ t.irqEn = false ∧ t.cause = 0#4 ∧ t.faultPc = 0#16 ∧
  t.faultInsn = 0#32 ∧ t.faultInfo = 0#32 ∧ t.irq = false

/-! ## What an instruction may write (R107, R108) -/

/-- The destination register of an instruction, if it writes one (R107, R108). -/
def destOf : Instr → Option Reg
  | .nop => none
  | .halt => none
  | .jmp _ => none
  | .bz _ _ => none
  | .bnz _ _ => none
  | .new rd _ => some rd
  | .seti rd _ => some rd
  | .cpy rd _ => some rd
  | .mov rd _ => some rd
  | .maxv rd _ => some rd
  | .add rd _ _ => some rd
  | .sub rd _ _ => some rd
  | .mul rd _ _ => some rd
  | .div rd _ _ => some rd
  | .rem rd _ _ => some rd
  | .neg rd _ => some rd
  | .inc rd _ => some rd
  | .dec rd _ => some rd
  | .and rd _ _ => some rd
  | .or rd _ _ => some rd
  | .xor rd _ _ => some rd
  | .not rd _ => some rd
  | .shl rd _ _ => some rd
  | .shr rd _ _ => some rd
  | .shli rd _ _ => some rd
  | .shri rd _ _ => some rd
  | .ceq rd _ _ => some rd
  | .cne rd _ _ => some rd
  | .clt rd _ _ => some rd
  | .cgt rd _ _ => some rd
  | .cle rd _ _ => some rd
  | .cge rd _ _ => some rd
  | .bext rd _ _ => some rd
  | .bins rd _ _ => some rd
  | .bexti rd _ _ => some rd
  | .binsi rd _ _ => some rd
  | .bgetm rd _ _ => some rd
  | .bputm _ _ _ => none
  | .ld rd _ _ => some rd
  | .st _ _ _ => none

/-- The length an instruction writes to its destination: the table of R107, row by row, on the old lengths; 0 where
no register is written. -/
def resultLength (len : Reg → Nat) : Instr → Nat
  | .add _ a b => max (len a) (len b)
  | .sub _ a b => max (len a) (len b)
  | .mul _ a b => max (len a) (len b)
  | .div _ a b => max (len a) (len b)
  | .rem _ a b => max (len a) (len b)
  | .and _ a b => max (len a) (len b)
  | .or _ a b => max (len a) (len b)
  | .xor _ a b => max (len a) (len b)
  | .neg _ a => len a
  | .inc _ a => len a
  | .dec _ a => len a
  | .not _ a => len a
  | .maxv _ a => len a
  | .cpy _ a => len a
  | .shl _ a _ => len a
  | .shr _ a _ => len a
  | .shli _ a _ => len a
  | .shri _ a _ => len a
  | .ceq _ _ _ => 1
  | .cne _ _ _ => 1
  | .clt _ _ _ => 1
  | .cgt _ _ _ => 1
  | .cle _ _ _ => 1
  | .cge _ _ _ => 1
  | .bext _ _ _ => 1
  | .bexti _ _ _ => 1
  | .bgetm _ _ _ => 1
  | .mov d a => max (len d) (len a)
  | .new _ imm => imm
  | .seti d _ => len d
  | .ld d _ _ => len d
  | .bins d _ _ => len d
  | .binsi d _ _ => len d
  | .st _ _ _ => 0
  | .bputm _ _ _ => 0
  | .nop => 0
  | .halt => 0
  | .jmp _ => 0
  | .bz _ _ => 0
  | .bnz _ _ => 0

/-- The instructions that may store to DMEM: ST and BPUTM (R75, R108). -/
def mayStore : Instr → Bool
  | .st _ _ _ => true
  | .bputm _ _ _ => true
  | _ => false

/-- The instructions that may set OVF: ADD, MUL and INC (R45). -/
def maySetOvf : Instr → Bool
  | .add _ _ _ => true
  | .mul _ _ _ => true
  | .inc _ _ => true
  | _ => false

/-- The instruction that may set TRUNC: SETI (R46). -/
def maySetTrunc : Instr → Bool
  | .seti _ _ => true
  | _ => false

/-! ## Encodings as the spec writes them (R103) -/

/-- `op x 2^26 + A x 2^22 + B x 2^18 + C x 2^14 + imm16`. -/
def specWord (op a b c imm16 : Nat) : Word :=
  BitVec.ofNat 32 (op * 2 ^ 26 + a * 2 ^ 22 + b * 2 ^ 18 + c * 2 ^ 14 + imm16)

/-- The R3 words of an opcode decode to the instruction, at every register. -/
def DecodesR3 (op : Nat) (i : Reg → Reg → Reg → Instr) : Prop :=
  ∀ a b c : Reg, decode (specWord op a.val b.val c.val 0) = .ok (i a b c)

/-- The R2 words of an opcode decode to the instruction, at every register. -/
def DecodesR2 (op : Nat) (i : Reg → Reg → Instr) : Prop :=
  ∀ a b : Reg, decode (specWord op a.val b.val 0 0) = .ok (i a b)

/-- The I and S words of an opcode decode to the instruction, at every register and immediate. -/
def DecodesI (op : Nat) (i : Reg → Reg → Nat → Instr) : Prop :=
  ∀ (a b : Reg) (imm : Nat), imm < 2 ^ 16 → decode (specWord op a.val b.val 0 imm) = .ok (i a b imm)

/-- The U words of an opcode decode to the instruction, at every register and immediate. -/
def DecodesU (op : Nat) (i : Reg → Nat → Instr) : Prop :=
  ∀ (a : Reg) (imm : Nat), imm < 2 ^ 16 → decode (specWord op a.val 0 0 imm) = .ok (i a imm)

/-- The B words of an opcode decode to the instruction; the offset is `sext_16(imm16)` (R101). -/
def DecodesB (op : Nat) (i : Reg → Int → Instr) : Prop :=
  ∀ (b : Reg) (imm : Nat), imm < 2 ^ 16 →
    decode (specWord op 0 b.val 0 imm) = .ok (i b (if 2 ^ 15 ≤ imm then (imm : Int) - 65536 else imm))

/-- The J words of an opcode decode to the instruction; the offset is `sext_16(imm16)` (R101). -/
def DecodesJ (op : Nat) (i : Int → Instr) : Prop :=
  ∀ imm : Nat, imm < 2 ^ 16 →
    decode (specWord op 0 0 0 imm) = .ok (i (if 2 ^ 15 ≤ imm then (imm : Int) - 65536 else imm))

end Sys2Proof.Machine
end

