-- ==== Sys2Proof/Certificates/Slice0/Obligations.lean ====
section
/-! DEFINITION. The statements for the provers. Words, addresses and results are written as the spec writes them;
the vocabulary (Completes, TakesFault, Stores, ...) stands in Safety.lean. -/

open Sys2Proof Sys2Proof.Machine

/-! ## Encoding -/

/-- R103, R105: the encoder and the decoder agree on every instruction its encoding can hold. -/
def Obligations.DecodeOfEncode : Prop :=
  ∀ i : Instr, i.wf = true → decode (encode i) = .ok i

/-- R105: "every 32-bit word is either exactly one instruction or illegal": a word that decodes is the word of that
instruction, which is well formed. -/
def Obligations.EncodeOfDecode : Prop :=
  ∀ (w : Word) (i : Instr), decode w = .ok i → encode i = w ∧ i.wf = true

/-- R103 to R106: the decoder, written over the fields of R102, accepts exactly the words that the masks of R103 and
the opcode map of R104 make legal. -/
def Obligations.DecoderAcceptsExactlyLegalWords : Prop :=
  ∀ w : Word, (∃ i, decode w = .ok i) ↔ wordLegal w = true

/-- Words of the spec's own examples, one or more of each family, decode to what they stand for. -/
def Obligations.SampleWordsDecode : Prop :=
  decode 0xA0C48000#32 = .ok (.bext 3 1 2) ∧ decode 0xB484000C#32 = .ok (.bputm 2 1 12) ∧
  decode 0x20400004#32 = .ok (.new 1 4) ∧ decode 0x2C840000#32 = .ok (.mov 2 1) ∧
  decode 0x40C48000#32 = .ok (.add 3 1 2) ∧ decode 0x54840000#32 = .ok (.neg 2 1) ∧
  decode 0x88C48000#32 = .ok (.clt 3 1 2) ∧ decode 0x78840009#32 = .ok (.shli 2 1 9) ∧
  decode 0xC0840010#32 = .ok (.ld 2 1 16) ∧ decode 0xC4840010#32 = .ok (.st 2 1 16) ∧
  decode 0x0C00FFFF#32 = .ok (.jmp (-1)) ∧ decode 0x10040003#32 = .ok (.bz 1 3) ∧
  decode 0x00000000#32 = .error .reservedOpcode ∧ decode 0x54844000#32 = .error .mustBeZero

/-! ## The engine's step -/

/-- R383: when the word at pc decodes to `i`, the step of a running engine is `i`'s rule, with no event listed or with
the engine's turn listed first. -/
def Obligations.StepRunsTheDecodedInstruction : Prop :=
  ∀ (s : State) (i : Instr), s.runState = .running → s.stopReq = false → s.pc.toNat < s.params.imemWords →
    decode (s.imemWord s.pc.toNat) = .ok i →
    (s.events = [] → step s = exec i s) ∧
    (∀ rest, s.events = .engineTurn :: rest → step s = exec i { s with events := rest })

/-- R352: on the engine's turn a fetch at pc >= IMEM_WORDS is FETCH_OOB, cause 2, with FAULT_PC that pc, FAULT_INSN 0
and FAULT_INFO 0; R351: otherwise, a fetched word with a reserved opcode or a nonzero must-be-zero bit (by the masks of
R103) is ILLEGAL_INSN, cause 1, with FAULT_INSN the word and FAULT_INFO 0. -/
def Obligations.FetchAndDecodeFaults : Prop :=
  ∀ s u : State, EngineTurnAt s u → s.runState = .running → s.stopReq = false →
    if s.params.imemWords ≤ s.pc.toNat then TakesFault u (step s) 2 0#32 0
    else if wordLegal (s.imemWord s.pc.toNat) = false then TakesFault u (step s) 1 (s.imemWord s.pc.toNat) 0
    else True

/-- R384: the stop request (CTRL[1] = 1, CTRL[2] = 0, address 4) sets STOP_REQ while RUNNING and is ignored while not
RUNNING (here without a start request in the same write; with one see StartAndStopInOneWrite); and the stop
step enters HALTED with pc unchanged. -/
def Obligations.StopRequestAndStopStep : Prop :=
  (∀ (s : State) (w : Word), w.getLsbD 1 = true → w.getLsbD 2 = false →
    (s.runState = .running → s.hostWrite 4#18 w = { s with stopReq := true, irqEn := w.getLsbD 8 }) ∧
    (s.runState ≠ .running → w.getLsbD 0 = false → s.hostWrite 4#18 w = { s with irqEn := w.getLsbD 8 })) ∧
  (∀ s u : State, EngineTurnAt s u → s.runState = .running → s.stopReq = true →
    step s = .next { u with runState := .halted, irqPend := true, stopReq := false })

/-- R360: whenever the step of a running engine, on its turn, ends in FAULTED, it was fault entry: the fault record,
IRQ_PEND, STOP_REQ, and not one register, DMEM byte, flag or pc changed; FAULT_INSN is the fetched word, 0 for
FETCH_OOB; FAULT_INFO is 0 for every cause but OOB_REG and OOB_MEM (R60). -/
def Obligations.EveryFaultIsFaultEntry : Prop :=
  ∀ s u t : State, EngineTurnAt s u → s.runState = .running → step s = .next t → t.runState = .faulted →
    ∃ cause info, 1 ≤ cause ∧ cause ≤ 6 ∧ (cause ≠ 4 → cause ≠ 5 → info = 0) ∧
      TakesFault u (step s) cause (if cause = 2 then 0#32 else s.imemWord s.pc.toNat) info

/-- THE MODEL'S READING (log 14, and for a stopped engine with no event listed log 4; log 2 for the listed ones): no
step of this machine ends but in a next state. It rests on the decoder being total (R105), every fault being a
transition to FAULTED (R360) and every host operation being defined (R64, R80). -/
def Obligations.EveryStepHasANextState : Prop := ∀ s : State, ∃ t, step s = .next t

/-- R386, an inference of the spec ("[derived: from rules R331, R360, R382, R384]"), engine side, on the engine's turn,
listed in `events` or not: a running engine goes to HALTED exactly by the stop step or HALT, never to IDLE; an engine
that is not running takes no step (that the model's step then answers the state as it stands is the model's choice,
log 4). -/
def Obligations.EngineStateTransitions : Prop :=
  ∀ s u t : State, EngineTurnAt s u → step s = .next t →
    (s.runState ≠ .running → t = u) ∧
    (s.runState = .running →
      t.runState ≠ .idle ∧
      (t.runState = .halted ↔
        s.stopReq = true ∨ (s.pc.toNat < s.params.imemWords ∧ s.imemWord s.pc.toNat = 0x08000000#32)))

/-- R386, an inference of the spec ("[derived: from rules R331, R360, R382, R384]"), host side: an event performs its
host operation or reset, and STATE changes only by a hardware reset (to IDLE), a soft reset (to IDLE) or a start
request while not RUNNING (to RUNNING). The event list is the model's (log 2). -/
def Obligations.HostStateTransitions : Prop :=
  ∀ (s : State) (rest : List Event),
    (∀ a, s.events = .hostRead a :: rest →
      step s = .next { s with events := rest, answer := some (s.hostRead a) }) ∧
    (∀ a w, s.events = .hostWrite a w :: rest →
      step s = .next ({ s with events := rest }.hostWrite a w) ∧
      (s.hostWrite a w).runState =
        if a.toNat / 4 = 1 then
          (if w.getLsbD 2 then .idle
           else if w.getLsbD 0 = true ∧ s.runState ≠ .running then .running else s.runState)
        else s.runState) ∧
    (∀ im dm, s.events = .hardwareReset im dm :: rest →
      ∃ t, step s = .next t ∧ t.events = rest ∧ t.runState = .idle)

/-! ## Reset and the invariant -/

/-- R400: a hardware reset sets every piece of state to its reset value whatever the memories then hold, irq is 0, and
ID and PARAM0 to PARAM2 read their constants; State.reset is such a state. -/
def Obligations.HardwareResetValues : Prop :=
  (∀ (s : State) (rest : List Event) (im : List (Nat × Word)) (dm : List Host.Cell),
    s.events = .hardwareReset im dm :: rest →
    ∃ t, step s = .next t ∧ HasResetValues t ∧ t.params = s.params ∧
      t.hostRead 0#18 = 0x4C425631#32 ∧ t.hostRead 0x20#18 = s.hostRead 0x20#18 ∧
      t.hostRead 0x24#18 = s.hostRead 0x24#18 ∧ t.hostRead 0x28#18 = s.hostRead 0x28#18) ∧
  HasResetValues State.reset

/-- R402: a CTRL write with bit 2 = 1 resets everything but IMEM and DMEM, and its other bits are ignored. -/
def Obligations.SoftResetKeepsTheMemories : Prop :=
  ∀ (s : State) (w : Word), w.getLsbD 2 = true →
    HasResetValues (s.hostWrite 4#18 w) ∧ (s.hostWrite 4#18 w).imem = s.imem ∧
    (s.hostWrite 4#18 w).dmem = s.dmem ∧ (s.hostWrite 4#18 w).params = s.params

/-- The invariant holds right after reset, with any legal parameters and any memory contents that exist. -/
def Obligations.ResetMeetsTheInvariant : Prop :=
  State.reset.Inv ∧
  ∀ (c : Config) (im : List (Nat × Word)) (dm : List Host.Cell), c.legal = true →
    (State.resetWith c (cellsLoad c.imemWords im) (cellsLoad c.dmemBytes dm)).Inv

/-- Every step of the machine keeps the invariant: the parameters stay legal, every register holds a pair that R31
allows and x0 (0, 0), both memories stay canonical and within their bounds, CAUSE is a code of R350 and nonzero
exactly in FAULTED, and STOP_REQ is 1 only while RUNNING. -/
def Obligations.StepKeepsTheInvariant : Prop :=
  ∀ s t : State, s.Inv → step s = .next t → t.Inv

/-! ## What an instruction leaves alone -/

/-- R85, R34, R108: no instruction writes IMEM, IRQ_EN or the parameters, or a register other than its destination;
and none but ST and BPUTM changes a byte of DMEM. -/
def Obligations.InstructionFrame : Prop :=
  ∀ (i : Instr) (s t : State), exec i s = .next t →
    t.imem = s.imem ∧ t.irqEn = s.irqEn ∧ t.params = s.params ∧ t.events = s.events ∧ t.answer = s.answer ∧
    (∀ r, destOf i ≠ some r → t.getX r = s.getX r) ∧
    (mayStore i = false → ∀ a, t.dmemByte a = s.dmemByte a)

/-- R45, R46, R47: no instruction clears OVF or TRUNC; only ADD, MUL and INC set OVF, only SETI sets TRUNC. -/
def Obligations.FlagsAreSticky : Prop :=
  ∀ (i : Instr) (s t : State), exec i s = .next t →
    (s.ovf = true → t.ovf = true) ∧ (s.trunc = true → t.trunc = true) ∧
    (maySetOvf i = false → t.ovf = s.ovf) ∧ (maySetTrunc i = false → t.trunc = s.trunc)

/-- R107: the length that a completed instruction leaves in its destination register is the table's; an instruction
of the table's last row writes no register. -/
def Obligations.ResultLengths : Prop :=
  ∀ (i : Instr) (s t : State), s.runState = .running → exec i s = .next t → t.runState ≠ .faulted →
    (∀ rd, destOf i = some rd → rd ≠ 0 → (t.getX rd).len = resultLength (fun r => (s.getX r).len) i) ∧
    (destOf i = none → KeepsRegs s t)

/-! ## The host's view -/

/-- R421: while RUNNING, PC, the register window, the IMEM window and the DMEM window read 0 and ignore writes. -/
def Obligations.HostIsLockedOutWhileRunning : Prop :=
  ∀ (s : State) (a : HostAddr) (w : Word), s.runState = .running →
    (0xC ≤ a.toNat ∧ a.toNat < 0x10 ∨ 0x1000 ≤ a.toNat ∧ a.toNat < 0x1800 ∨
      0x10000 ≤ a.toNat ∧ a.toNat < 0x30000) →
    s.hostRead a = 0#32 ∧ s.hostWrite a w = s

/-- R64: address bits [1:0] are ignored, reserved addresses (R50, and those of the register window, R61) read 0 and
ignore writes, and a host read changes nothing (but the model's own `events` and `answer`, log 2). -/
def Obligations.HostAccessesAreWords : Prop :=
  ∀ (s : State) (a : HostAddr) (w : Word),
    s.hostRead a = s.hostRead (BitVec.ofNat 18 (a.toNat / 4 * 4)) ∧
    s.hostWrite a w = s.hostWrite (BitVec.ofNat 18 (a.toNat / 4 * 4)) w ∧
    (0x2C ≤ a.toNat ∧ a.toNat < 0x1000 ∨ 0x1800 ≤ a.toNat ∧ a.toNat < 0x10000 ∨ 0x30000 ≤ a.toNat ∨
        0x1000 ≤ a.toNat ∧ a.toNat < 0x1800 ∧ 4 ≤ a.toNat % 0x80 ∧ a.toNat % 0x80 < 0x40 →
      s.hostRead a = 0#32 ∧ s.hostWrite a w = s) ∧
    (∀ rest, s.events = .hostRead a :: rest →
      ∃ x, step s = .next { s with events := rest, answer := x })

/-- R61, LEN word: reads `len`; a write of w <= MAXL to x1 .. x15 gives `(w, val mod 2^(8w))`, any other write is
ignored; nothing else changes. -/
def Obligations.RegisterLenWindow : Prop :=
  ∀ (s : State) (r : Reg) (w : Word), s.Inv → s.runState ≠ .running →
    (s.hostRead (BitVec.ofNat 18 (0x1000 + 0x80 * r.val))).toNat = (s.getX r).len ∧
    WritesOnly s (s.hostWrite (BitVec.ofNat 18 (0x1000 + 0x80 * r.val)) w) r
      (if w.toNat ≤ s.params.maxl then { len := w.toNat, val := (s.getX r).val % 2 ^ (8 * w.toNat) } else s.getX r) ∧
    KeepsNonRegs s (s.hostWrite (BitVec.ofNat 18 (0x1000 + 0x80 * r.val)) w)

/-- R61, DATA_k word and the reserved words +0x04 .. +0x3C: byte j reads limb 4k+j, 0 at or above len; a write sets
limb 4k+j from byte j where it exists, keeps every other limb and the length, and changes nothing else. -/
def Obligations.RegisterDataWindow : Prop :=
  ∀ (s : State) (r : Reg) (k : Nat) (w : Word), s.Inv → s.runState ≠ .running → k < 16 →
    let a : HostAddr := BitVec.ofNat 18 (0x1000 + 0x80 * r.val + 0x40 + 4 * k)
    (∀ j, j < 4 → (s.hostRead a).toNat / 2 ^ (8 * j) % 256 =
      if 4 * k + j < (s.getX r).len then (s.getX r).val / 2 ^ (8 * (4 * k + j)) % 256 else 0) ∧
    (r ≠ 0 → ((s.hostWrite a w).getX r).len = (s.getX r).len ∧
      ∀ m, m < 64 → ((s.hostWrite a w).getX r).val / 2 ^ (8 * m) % 256 =
        if m / 4 = k ∧ m < (s.getX r).len then w.toNat / 2 ^ (8 * (m % 4)) % 256
        else (s.getX r).val / 2 ^ (8 * m) % 256) ∧
    (∀ q, q ≠ r ∨ q = 0 → (s.hostWrite a w).getX q = s.getX q) ∧
    KeepsNonRegs s (s.hostWrite a w) ∧
    (1 ≤ k → s.hostRead (BitVec.ofNat 18 (0x1000 + 0x80 * r.val + 4 * k)) = 0#32 ∧
      s.hostWrite (BitVec.ofNat 18 (0x1000 + 0x80 * r.val + 4 * k)) w = s)

/-- R62: the word at 0x10000 + 4p is IMEM[p], read-write while not RUNNING; p >= IMEM_WORDS is RAZ/WI; while RUNNING
the window reads 0 and ignores writes. -/
def Obligations.ImemWindow : Prop :=
  ∀ (s : State) (p : Nat) (w : Word), Memory.wf s.imem = true → p < 2 ^ 14 →
    let a : HostAddr := BitVec.ofNat 18 (0x10000 + 4 * p)
    if s.runState ≠ .running ∧ p < s.params.imemWords then
      s.hostRead a = s.imemWord p ∧ s.hostWrite a w = { s with imem := (s.hostWrite a w).imem } ∧
      (s.hostWrite a w).imemWord p = w ∧
      (∀ q, q ≠ p → (s.hostWrite a w).imemWord q = s.imemWord q)
    else s.hostRead a = 0#32 ∧ s.hostWrite a w = s

/-- R63: the word at 0x20000 + 4q is the four bytes DMEM[4q .. 4q+3], little-endian, read-write while not RUNNING;
4q >= DMEM_BYTES is RAZ/WI; while RUNNING the window reads 0 and ignores writes. -/
def Obligations.DmemWindow : Prop :=
  ∀ (s : State) (q : Nat) (w : Word), Memory.wf s.dmem = true → q < 2 ^ 14 →
    let a : HostAddr := BitVec.ofNat 18 (0x20000 + 4 * q)
    if s.runState ≠ .running ∧ 4 * q < s.params.dmemBytes then
      (s.hostRead a).toNat = (s.dmemByte (4 * q)).toNat + (s.dmemByte (4 * q + 1)).toNat * 2 ^ 8 +
        (s.dmemByte (4 * q + 2)).toNat * 2 ^ 16 + (s.dmemByte (4 * q + 3)).toNat * 2 ^ 24 ∧
      s.hostWrite a w = { s with dmem := (s.hostWrite a w).dmem } ∧
      (∀ j, j < 4 → ((s.hostWrite a w).dmemByte (4 * q + j)).toNat = w.toNat / 2 ^ (8 * j) % 256) ∧
      (∀ b, b < 4 * q ∨ 4 * q + 4 ≤ b → (s.hostWrite a w).dmemByte b = s.dmemByte b)
    else s.hostRead a = 0#32 ∧ s.hostWrite a w = s

/-- R56: PC reads pc and takes value[15:0] while not RUNNING; while RUNNING it reads 0 and ignores writes. -/
def Obligations.PcRegister : Prop :=
  ∀ (s : State) (w : Word),
    if s.runState = .running then s.hostRead 0xC#18 = 0#32 ∧ s.hostWrite 0xC#18 w = s
    else (s.hostRead 0xC#18).toNat = s.pc.toNat ∧
      s.hostWrite 0xC#18 w = { s with pc := BitVec.ofNat 16 (w.toNat % 2 ^ 16) }

/-- R55: STATUS[1:0] is STATE, bits 8 to 10 are IRQ_PEND, OVF and TRUNC, every other bit reads 0; a write of 1 clears
one of bits 8 to 10 and nothing else happens, in every STATE. -/
def Obligations.StatusRegister : Prop :=
  ∀ (s : State) (w : Word),
    (s.hostRead 8#18).toNat =
      (match s.runState with | .idle => 0 | .running => 1 | .halted => 2 | .faulted => 3) +
      (if s.irqPend then 256 else 0) + (if s.ovf then 512 else 0) + (if s.trunc then 1024 else 0) ∧
    s.hostWrite 8#18 w = { s with
      irqPend := s.irqPend && !w.getLsbD 8, ovf := s.ovf && !w.getLsbD 9, trunc := s.trunc && !w.getLsbD 10 }

/-- R54, the CTRL register, and R382, the start request. CTRL reads IRQ_EN in bit 8 and 0 in every other bit, in every
STATE. Of a write with CTRL[2] = 0, IRQ_EN takes bit 8 in every STATE; with CTRL[0] = CTRL[1] = 0 nothing else changes.
A start request (CTRL[0] = 1, CTRL[1] = 0) while not RUNNING also sets STATE to RUNNING, CAUSE to 0 and STOP_REQ to 0,
and changes nothing else; while RUNNING it is ignored. (A stop request: StopRequestAndStopStep; both in one write:
StartAndStopInOneWrite, log 5; CTRL[2] = 1: SoftResetKeepsTheMemories.) -/
def Obligations.StartRequest : Prop :=
  ∀ s : State, (s.hostRead 4#18).toNat = (if s.irqEn then 2 ^ 8 else 0) ∧
    ∀ w : Word, w.getLsbD 1 = false → w.getLsbD 2 = false →
      (w.getLsbD 0 = false → s.hostWrite 4#18 w = { s with irqEn := w.getLsbD 8 }) ∧
      (w.getLsbD 0 = true → s.hostWrite 4#18 w =
        if s.runState = .running then { s with irqEn := w.getLsbD 8 }
        else { s with runState := .running, cause := 0#4, stopReq := false, irqEn := w.getLsbD 8 })

/-- THE MODEL'S READING (log 5): in one CTRL write with START = STOP = 1 and SRESET = 0, each request is judged by the
STATE before the write, so the engine starts without a stop request, or, already running, gets one. -/
def Obligations.StartAndStopInOneWrite : Prop :=
  ∀ (s : State) (w : Word), w.getLsbD 0 = true → w.getLsbD 1 = true → w.getLsbD 2 = false →
    s.hostWrite 4#18 w =
      if s.runState = .running then { s with stopReq := true, irqEn := w.getLsbD 8 }
      else { s with runState := .running, cause := 0#4, stopReq := false, irqEn := w.getLsbD 8 }

/-- R48: IRQ_PEND is 1 after every step on which STATE enters HALTED or FAULTED; it goes to 0 by a host write of 1 to
STATUS[8], by a soft reset and by a hardware reset, and by nothing else; and irq = IRQ_PEND and IRQ_EN. -/
def Obligations.InterruptPending : Prop :=
  ∀ s t : State, step s = .next t →
    s.irq = (s.irqPend && s.irqEn) ∧
    (s.runState = .running → t.runState = .halted ∨ t.runState = .faulted → t.irqPend = true) ∧
    (s.irqPend = true → t.irqPend = false →
      (∃ a w rest, s.events = .hostWrite a w :: rest ∧
        (a.toNat / 4 = 2 ∧ w.getLsbD 8 = true ∨ a.toNat / 4 = 1 ∧ w.getLsbD 2 = true)) ∨
      (∃ im dm rest, s.events = .hardwareReset im dm :: rest)) ∧
    (∀ a w rest, s.events = .hostWrite a w :: rest →
      (a.toNat / 4 = 2 ∧ w.getLsbD 8 = true ∨ a.toNat / 4 = 1 ∧ w.getLsbD 2 = true) → t.irqPend = false) ∧
    (∀ im dm rest, s.events = .hardwareReset im dm :: rest → t.irqPend = false)

/-- 10_state.md section 7, from R51, R52 and R57 to R60 together: the read-only registers read the ID constant (R51), the
parameters (R52), CAUSE (R57), FAULT_PC (R58), FAULT_INSN (R59) and FAULT_INFO (R60) in every STATE, and ignore writes.
(What writes the fault record, the other half of R57 to R60, stands in EveryFaultIsFaultEntry, StartRequest and the
reset statements.) -/
def Obligations.ReadOnlyRegisters : Prop :=
  ∀ (s : State) (w : Word), s.params.legal = true →
    s.hostRead 0#18 = 0x4C425631#32 ∧
    (s.hostRead 0x20#18).toNat = s.params.maxl + 16 * 2 ^ 8 + 8 * 2 ^ 16 + 1 * 2 ^ 24 ∧
    (s.hostRead 0x24#18).toNat = s.params.imemWords ∧ (s.hostRead 0x28#18).toNat = s.params.dmemBytes ∧
    (s.hostRead 0x10#18).toNat = s.cause.toNat ∧ (s.hostRead 0x14#18).toNat = s.faultPc.toNat ∧
    s.hostRead 0x18#18 = s.faultInsn ∧ s.hostRead 0x1C#18 = s.faultInfo ∧
    (∀ a : HostAddr, a.toNat < 4 ∨ 0x10 ≤ a.toNat ∧ a.toNat < 0x2C → s.hostWrite a w = s)

/-! ## The source's datapaths compute the laws -/

/-- 43_arithmetic.md section 2, an inference of the spec ("[derived: from the ripple-carry invariant]"): the ripple
carry of R201 over W limbs gives `(a + b) mod 2^(8W)`, and its carry out is 1 iff `a + b >= 2^(8W)`. -/
def Obligations.RippleCarryAdds : Prop :=
  ∀ W a b : Nat, a < 2 ^ (8 * W) → b < 2 ^ (8 * W) →
    ofLimbs (rippleCarry (toLimbs W a) (toLimbs W b) 0).1 = (a + b) % 2 ^ (8 * W) ∧
    (rippleCarry (toLimbs W a) (toLimbs W b) 0).2 = if 2 ^ (8 * W) ≤ a + b then 1 else 0

/-- 43_arithmetic.md section 3, inferences of the spec ("[derived: the working minuend's remaining high part stays >=
the subtrahend's]", "[derived: from this rule and rule R205]"): the ripple borrow of R205 over W limbs gives `a - b`
when a >= b, and the two cases of R204 together give `(a - b) mod 2^(8W)`. -/
def Obligations.RippleBorrowSubtracts : Prop :=
  ∀ W a b : Nat, a < 2 ^ (8 * W) → b < 2 ^ (8 * W) →
    (b ≤ a → ofLimbs (rippleBorrow (toLimbs W a) (toLimbs W b)) = a - b) ∧
    (twoCaseSub W a b : Int) = ((a : Int) - (b : Int)) % ((2 ^ (8 * W) : Nat) : Int)

/-- 43_arithmetic.md section 5, an inference of the spec ("[derived: acc = sum over set bits k of h of (b.val x 2^k)
mod 2^(8W)]"): the double-and-add multiplier of R211 at W limbs gives `(a x b) mod 2^(8W)`, whichever operand is
halved. -/
def Obligations.DoubleAndAddMultiplies : Prop :=
  ∀ W a b : Nat, a < 2 ^ (8 * W) → b < 2 ^ (8 * W) →
    shiftAndAddMul W a b = a * b % 2 ^ (8 * W) ∧ shiftAndAddMul W b a = a * b % 2 ^ (8 * W)

/-- 43_arithmetic.md section 6, an inference of the spec ("[derived: from the loop invariant]"): the restoring divider
of R216 gives the floor quotient and the remainder, over the dividend's own bit width, and over
any wider one of the same kind. -/
def Obligations.RestoringDividerDivides : Prop :=
  ∀ L W a b : Nat, a < 2 ^ (8 * L) → L ≤ W → 0 < b →
    restoringDivide L a b = (a / b, a % b) ∧ restoringDivide W a b = (a / b, a % b)

/-- 44_compare.md section 1, inferences of the spec ("[derived: from the quoted equality scan and 00_scope.md rule
R15]", "[derived: from this rule and 00_scope.md rule R15]"): the equality scan of R250 over limbs of different
lengths decides `a = b`, and the less-than scan of R254 over the union of both widths decides `a < b`. -/
def Obligations.ComparisonScansDecide : Prop :=
  ∀ L M a b : Nat, a < 2 ^ (8 * L) → b < 2 ^ (8 * M) →
    equalScan (toLimbs L a) (toLimbs M b) = decide (a = b) ∧ lessScan a b (max L M) = decide (a < b)

/-- 45_bitwise_shift.md section 2, inferences of the spec ("[derived: from the per-limb carry walk]"): n one-bit shift
steps of R284 and R285 over L limbs give `(v x 2^n) mod 2^(8L)` to the left and `v div 2^n` to the
right. -/
def Obligations.RepeatedShiftStepsShift : Prop :=
  ∀ L v n : Nat, v < 2 ^ (8 * L) →
    ofLimbs (repeatStep (shlStep 0) n (toLimbs L v)) = v * 2 ^ n % 2 ^ (8 * L) ∧
    ofLimbs (repeatStep shrStep n (toLimbs L v)) = v / 2 ^ n

/-- R140, R141, R143: on a register's limbs as a byte buffer, getBit reads bit i of the value, and setBit changes
that bit alone. -/
def Obligations.BufferBitsAreValueBits : Prop :=
  ∀ L v i b : Nat, v < 2 ^ (8 * L) → i < 8 * L → b < 2 →
    bufGetBit (toLimbs L v) i = (v.testBit i).toNat ∧
    ofLimbs (bufSetBit (toLimbs L v) i b) < 2 ^ (8 * L) ∧
    ∀ j, (ofLimbs (bufSetBit (toLimbs L v) i b)).testBit j = if j = i then decide (b = 1) else v.testBit j

/-! ## Bit access -/

/-- R144, R145: BEXT and BEXTI. -/
def Obligations.BitExtract : Prop :=
  DecodesR3 0x28 .bext ∧ DecodesI 0x2A .bexti ∧
  ∀ (s : State) (rd rs1 rs2 : Reg) (imm : Nat),
    (if 8 * (s.getX rs1).len ≤ (s.getX rs2).val then
      TakesFault s (exec (.bext rd rs1 rs2) s) 4 (encode (.bext rd rs1 rs2)) (s.getX rs2).val
    else Completes s (exec (.bext rd rs1 rs2) s) rd
      { len := 1, val := ((s.getX rs1).val.testBit (s.getX rs2).val).toNat }) ∧
    (if 8 * (s.getX rs1).len ≤ imm then
      TakesFault s (exec (.bexti rd rs1 imm) s) 4 (encode (.bexti rd rs1 imm)) imm
    else Completes s (exec (.bexti rd rs1 imm) s) rd { len := 1, val := ((s.getX rs1).val.testBit imm).toNat })

/-- R146, R147: BINS and BINSI; the written value has bit i equal to bit 0 of x[rs1] and every other bit as before. -/
def Obligations.BitInsert : Prop :=
  DecodesR3 0x29 .bins ∧ DecodesI 0x2B .binsi ∧
  ∀ (s : State) (rd rs1 rs2 : Reg) (imm : Nat),
    (if 8 * (s.getX rd).len ≤ (s.getX rs2).val then
      TakesFault s (exec (.bins rd rs1 rs2) s) 4 (encode (.bins rd rs1 rs2)) (s.getX rs2).val
    else ∃ v, Completes s (exec (.bins rd rs1 rs2) s) rd { len := (s.getX rd).len, val := v } ∧
      ∀ j, v.testBit j = if j = (s.getX rs2).val then (s.getX rs1).val.testBit 0 else (s.getX rd).val.testBit j) ∧
    (if 8 * (s.getX rd).len ≤ imm then
      TakesFault s (exec (.binsi rd rs1 imm) s) 4 (encode (.binsi rd rs1 imm)) imm
    else ∃ v, Completes s (exec (.binsi rd rs1 imm) s) rd { len := (s.getX rd).len, val := v } ∧
      ∀ j, v.testBit j = if j = imm then (s.getX rs1).val.testBit 0 else (s.getX rd).val.testBit j)

/-- R150: BGETM. -/
def Obligations.MemoryBitRead : Prop :=
  DecodesI 0x2C .bgetm ∧
  ∀ (s : State) (rd rs1 : Reg) (imm : Nat),
    let i := (s.getX rs1).val + imm
    if s.params.dmemBytes ≤ i / 8 then
      TakesFault s (exec (.bgetm rd rs1 imm) s) 5 (encode (.bgetm rd rs1 imm)) i
    else Completes s (exec (.bgetm rd rs1 imm) s) rd
      { len := 1, val := ((s.dmemByte (i / 8)).getLsbD (i % 8)).toNat }

/-- R151: BPUTM; the byte's other seven bits are preserved. -/
def Obligations.MemoryBitWrite : Prop :=
  DecodesI 0x2D .bputm ∧
  ∀ (s : State) (rt rs1 : Reg) (imm : Nat), Memory.wf s.dmem = true →
    let i := (s.getX rs1).val + imm
    if s.params.dmemBytes ≤ i / 8 then
      TakesFault s (exec (.bputm rt rs1 imm) s) 5 (encode (.bputm rt rs1 imm)) i
    else Stores s (exec (.bputm rt rs1 imm) s) (i / 8) 1
      ((s.dmemByte (i / 8)).toNat &&& (255 - 2 ^ (i % 8)) ||| ((s.getX rt).val % 2) * 2 ^ (i % 8))

/-! ## Construction and assignment -/

/-- R172: NEW; a length above MAXL is BAD_WIDTH, even for x0. -/
def Obligations.NewConstructsZero : Prop :=
  DecodesU 0x08 .new ∧
  ∀ (s : State) (rd : Reg) (imm : Nat),
    if imm > s.params.maxl then TakesFault s (exec (.new rd imm) s) 6 (encode (.new rd imm)) 0
    else Completes s (exec (.new rd imm) s) rd { len := imm, val := 0 }

/-- R178: SETI keeps the length, stores `v mod 2^(8L)`, and sets TRUNC iff `v >= 2^(8L)`. -/
def Obligations.SetiAssignsNative : Prop :=
  DecodesU 0x09 .seti ∧
  ∀ (s : State) (rd : Reg) (imm : Nat),
    CompletesWith s (exec (.seti rd imm) s) rd
      { len := (s.getX rd).len, val := imm % 2 ^ (8 * (s.getX rd).len) }
      s.ovf (s.trunc || decide (imm ≥ 2 ^ (8 * (s.getX rd).len)))

/-- R174, R176, R180: CPY copies, MOV grows to the larger length and never shrinks, MAXV writes `2^(8L) - 1`. -/
def Obligations.CopyMoveAndMaximum : Prop :=
  DecodesR2 0x0A .cpy ∧ DecodesR2 0x0B .mov ∧ DecodesR2 0x0C .maxv ∧
  ∀ (s : State) (rd rs1 : Reg),
    Completes s (exec (.cpy rd rs1) s) rd (s.getX rs1) ∧
    Completes s (exec (.mov rd rs1) s) rd
      { len := max (s.getX rd).len (s.getX rs1).len, val := (s.getX rs1).val } ∧
    Completes s (exec (.maxv rd rs1) s) rd
      { len := (s.getX rs1).len, val := 2 ^ (8 * (s.getX rs1).len) - 1 }

/-! ## Arithmetic -/

/-- R202: ADD. -/
def Obligations.AddWrapsAtTheWiderLength : Prop :=
  DecodesR3 0x10 .add ∧
  ∀ (s : State) (rd rs1 rs2 : Reg),
    let W := max (s.getX rs1).len (s.getX rs2).len
    let sum := (s.getX rs1).val + (s.getX rs2).val
    CompletesWith s (exec (.add rd rs1 rs2) s) rd { len := W, val := sum % 2 ^ (8 * W) }
      (s.ovf || decide (sum ≥ 2 ^ (8 * W))) s.trunc

/-- R206: SUB: the value is the one natural below 2^(8W) congruent to the exact difference; no flag. -/
def Obligations.SubWrapsAtTheWiderLength : Prop :=
  DecodesR3 0x11 .sub ∧
  ∀ (s : State) (rd rs1 rs2 : Reg),
    let W := max (s.getX rs1).len (s.getX rs2).len
    ∃ v : Nat, Completes s (exec (.sub rd rs1 rs2) s) rd { len := W, val := v } ∧ v < 2 ^ (8 * W) ∧
      (v : Int) = ((s.getX rs1).val - (s.getX rs2).val : Int) % (2 ^ (8 * W) : Int)

/-- R212: MUL. -/
def Obligations.MulWrapsAtTheWiderLength : Prop :=
  DecodesR3 0x12 .mul ∧
  ∀ (s : State) (rd rs1 rs2 : Reg),
    let W := max (s.getX rs1).len (s.getX rs2).len
    let p := (s.getX rs1).val * (s.getX rs2).val
    CompletesWith s (exec (.mul rd rs1 rs2) s) rd { len := W, val := p % 2 ^ (8 * W) }
      (s.ovf || decide (p ≥ 2 ^ (8 * W))) s.trunc

/-- R218, R220: DIV and REM give the floor quotient and remainder at length W, and raise DIV_BY_ZERO for a divisor
value of 0. -/
def Obligations.DivideAndRemainder : Prop :=
  DecodesR3 0x13 .div ∧ DecodesR3 0x14 .rem ∧
  ∀ (s : State) (rd rs1 rs2 : Reg),
    let W := max (s.getX rs1).len (s.getX rs2).len
    if (s.getX rs2).val = 0 then
      TakesFault s (exec (.div rd rs1 rs2) s) 3 (encode (.div rd rs1 rs2)) 0 ∧
      TakesFault s (exec (.rem rd rs1 rs2) s) 3 (encode (.rem rd rs1 rs2)) 0
    else
      Completes s (exec (.div rd rs1 rs2) s) rd { len := W, val := (s.getX rs1).val / (s.getX rs2).val } ∧
      Completes s (exec (.rem rd rs1 rs2) s) rd { len := W, val := (s.getX rs1).val % (s.getX rs2).val }

/-- R210, R226: NEG and DEC wrap within the operand's length and set no flag. The operand fits its length, as in every
reachable state. -/
def Obligations.NegateAndDecrement : Prop :=
  DecodesR2 0x15 .neg ∧ DecodesR2 0x17 .dec ∧
  ∀ (s : State) (rd rs1 : Reg), (s.getX rs1).val < 2 ^ (8 * (s.getX rs1).len) →
    Completes s (exec (.neg rd rs1) s) rd
      { len := (s.getX rs1).len,
        val := (2 ^ (8 * (s.getX rs1).len) - (s.getX rs1).val) % 2 ^ (8 * (s.getX rs1).len) } ∧
    Completes s (exec (.dec rd rs1) s) rd
      { len := (s.getX rs1).len,
        val := if (s.getX rs1).val = 0 then 2 ^ (8 * (s.getX rs1).len) - 1 else (s.getX rs1).val - 1 }

/-- R224: INC. -/
def Obligations.IncrementWrapsAndSetsOvf : Prop :=
  DecodesR2 0x16 .inc ∧
  ∀ (s : State) (rd rs1 : Reg),
    CompletesWith s (exec (.inc rd rs1) s) rd
      { len := (s.getX rs1).len, val := ((s.getX rs1).val + 1) % 2 ^ (8 * (s.getX rs1).len) }
      (s.ovf || decide ((s.getX rs1).val + 1 ≥ 2 ^ (8 * (s.getX rs1).len))) s.trunc

/-! ## Comparison -/

/-- R252, R253, R256 to R259: the six comparisons, on values whatever the lengths. -/
def Obligations.ComparisonsCompareValues : Prop :=
  DecodesR3 0x20 .ceq ∧ DecodesR3 0x21 .cne ∧ DecodesR3 0x22 .clt ∧ DecodesR3 0x23 .cgt ∧
  DecodesR3 0x24 .cle ∧ DecodesR3 0x25 .cge ∧
  ∀ (s : State) (rd rs1 rs2 : Reg),
    let a := (s.getX rs1).val
    let b := (s.getX rs2).val
    Completes s (exec (.ceq rd rs1 rs2) s) rd { len := 1, val := if a = b then 1 else 0 } ∧
    Completes s (exec (.cne rd rs1 rs2) s) rd { len := 1, val := if a ≠ b then 1 else 0 } ∧
    Completes s (exec (.clt rd rs1 rs2) s) rd { len := 1, val := if a < b then 1 else 0 } ∧
    Completes s (exec (.cgt rd rs1 rs2) s) rd { len := 1, val := if a > b then 1 else 0 } ∧
    Completes s (exec (.cle rd rs1 rs2) s) rd { len := 1, val := if a ≤ b then 1 else 0 } ∧
    Completes s (exec (.cge rd rs1 rs2) s) rd { len := 1, val := if a ≥ b then 1 else 0 }

/-! ## Bitwise and shift -/

/-- R280 to R283: AND, OR, XOR at the wider length, NOT within the operand's length. -/
def Obligations.BitwiseOperations : Prop :=
  DecodesR3 0x18 .and ∧ DecodesR3 0x19 .or ∧ DecodesR3 0x1A .xor ∧ DecodesR2 0x1B .not ∧
  ∀ (s : State) (rd rs1 rs2 : Reg),
    let a := s.getX rs1
    let b := s.getX rs2
    Completes s (exec (.and rd rs1 rs2) s) rd { len := max a.len b.len, val := a.val &&& b.val } ∧
    Completes s (exec (.or rd rs1 rs2) s) rd { len := max a.len b.len, val := a.val ||| b.val } ∧
    Completes s (exec (.xor rd rs1 rs2) s) rd { len := max a.len b.len, val := a.val ^^^ b.val } ∧
    Completes s (exec (.not rd rs1) s) rd { len := a.len, val := 2 ^ (8 * a.len) - 1 - a.val }

/-- R286, R288, R290, R291: the four shifts, for every count. -/
def Obligations.ShiftsByAnyCount : Prop :=
  DecodesR3 0x1C .shl ∧ DecodesR3 0x1D .shr ∧ DecodesI 0x1E .shli ∧ DecodesI 0x1F .shri ∧
  ∀ (s : State) (rd rs1 rs2 : Reg) (imm : Nat),
    let a := s.getX rs1
    let n := (s.getX rs2).val
    Completes s (exec (.shl rd rs1 rs2) s) rd { len := a.len, val := a.val * 2 ^ n % 2 ^ (8 * a.len) } ∧
    Completes s (exec (.shr rd rs1 rs2) s) rd { len := a.len, val := a.val / 2 ^ n } ∧
    Completes s (exec (.shli rd rs1 imm) s) rd { len := a.len, val := a.val * 2 ^ imm % 2 ^ (8 * a.len) } ∧
    Completes s (exec (.shri rd rs1 imm) s) rd { len := a.len, val := a.val / 2 ^ imm }

/-- R287: the count is the whole value; a count of 8L or more gives 0 in both directions, a count of 0 returns the
operand. The operand fits its length, as in every reachable state. -/
def Obligations.ShiftCountEnds : Prop :=
  ∀ (s : State) (rd rs1 rs2 : Reg), (s.getX rs1).val < 2 ^ (8 * (s.getX rs1).len) →
    (8 * (s.getX rs1).len ≤ (s.getX rs2).val →
      Completes s (exec (.shl rd rs1 rs2) s) rd { len := (s.getX rs1).len, val := 0 } ∧
      Completes s (exec (.shr rd rs1 rs2) s) rd { len := (s.getX rs1).len, val := 0 }) ∧
    ((s.getX rs2).val = 0 →
      Completes s (exec (.shl rd rs1 rs2) s) rd (s.getX rs1) ∧
      Completes s (exec (.shr rd rs1 rs2) s) rd (s.getX rs1))

/-! ## Load and store -/

/-- R310: LD: the byte k of the loaded value is DMEM[ea+k], for k below rd's length; out of bounds is OOB_MEM(ea). -/
def Obligations.LoadReadsLittleEndian : Prop :=
  DecodesI 0x30 .ld ∧
  ∀ (s : State) (rd rs1 : Reg) (imm : Nat),
    let ea := (s.getX rs1).val + imm
    let L := (s.getX rd).len
    if ea + L > s.params.dmemBytes then TakesFault s (exec (.ld rd rs1 imm) s) 5 (encode (.ld rd rs1 imm)) ea
    else ∃ v, Completes s (exec (.ld rd rs1 imm) s) rd { len := L, val := v } ∧ v < 2 ^ (8 * L) ∧
      ∀ k, k < L → v / 2 ^ (8 * k) % 2 ^ 8 = (s.dmemByte (ea + k)).toNat

/-- R311: ST: limb k goes to DMEM[ea+k], for k below rt's length, and no other byte changes; out of bounds is
OOB_MEM(ea) and no byte is written. -/
def Obligations.StoreWritesLittleEndian : Prop :=
  DecodesI 0x31 .st ∧
  ∀ (s : State) (rt rs1 : Reg) (imm : Nat), Memory.wf s.dmem = true →
    let ea := (s.getX rs1).val + imm
    let L := (s.getX rt).len
    if ea + L > s.params.dmemBytes then TakesFault s (exec (.st rt rs1 imm) s) 5 (encode (.st rt rs1 imm)) ea
    else Stores s (exec (.st rt rs1 imm) s) ea L (s.getX rt).val

/-- 20_memory.md section 1, an inference of the spec ("[derived: from rule R70 and 46_load_store.md rules R310,
R311]", R73): an ST of a length-L register and then an LD into a register of length M at the same address reads the L
bytes stored as far as M goes, and beyond L what DMEM held before. -/
def Obligations.StoreThenLoad : Prop :=
  ∀ (s t : State) (rt rd rs1 : Reg) (imm : Nat), Memory.wf s.dmem = true → rd ≠ 0 →
    (s.getX rs1).val + imm + (s.getX rt).len ≤ s.params.dmemBytes →
    (s.getX rs1).val + imm + (s.getX rd).len ≤ s.params.dmemBytes →
    exec (.st rt rs1 imm) s = .next t →
    ∃ u, exec (.ld rd rs1 imm) t = .next u ∧ (u.getX rd).len = (s.getX rd).len ∧
      ∀ k, k < (s.getX rd).len → (u.getX rd).val / 2 ^ (8 * k) % 256 =
        if k < (s.getX rt).len then (s.getX rt).val / 2 ^ (8 * k) % 256
        else (s.dmemByte ((s.getX rs1).val + imm + k)).toNat

/-! ## Control -/

/-- R330, R332: NOP advances pc, its only legal word is 0x04000000; JMP goes to `(pc + off) mod 2^16`; nothing else
changes. -/
def Obligations.NopAndJump : Prop :=
  decode 0x04000000#32 = .ok .nop ∧
  (∀ w : Word, w.toNat / 2 ^ 26 = 1 → w ≠ 0x04000000#32 → decode w = .error .mustBeZero) ∧
  DecodesJ 0x03 .jmp ∧
  ∀ (s : State) (off : Int),
    TransfersTo s (exec .nop s) (s.pc + 1#16) ∧
    TransfersTo s (exec (.jmp off) s) (BitVec.ofInt 16 (s.pc.toNat + off))

/-- R331: HALT: pc advances, STATE is HALTED, IRQ_PEND 1, STOP_REQ 0; nothing else changes; its only legal word is
0x08000000. -/
def Obligations.HaltStopsTheEngine : Prop :=
  decode 0x08000000#32 = .ok .halt ∧
  (∀ w : Word, w.toNat / 2 ^ 26 = 2 → w ≠ 0x08000000#32 → decode w = .error .mustBeZero) ∧
  ∀ s : State, ∃ t, exec .halt s = .next t ∧ t.pc = s.pc + 1#16 ∧ t.runState = .halted ∧ t.irqPend = true ∧
    t.stopReq = false ∧ KeepsRegs s t ∧ KeepsDmem s t ∧ t.ovf = s.ovf ∧ t.trunc = s.trunc ∧ KeepsRest s t

/-- R333, R334: BZ and BNZ branch on the register's value alone. -/
def Obligations.BranchOnValue : Prop :=
  DecodesB 0x04 .bz ∧ DecodesB 0x05 .bnz ∧
  ∀ (s : State) (rs1 : Reg) (off : Int),
    TransfersTo s (exec (.bz rs1 off) s)
      (if (s.getX rs1).val = 0 then BitVec.ofInt 16 (s.pc.toNat + off) else s.pc + 1#16) ∧
    TransfersTo s (exec (.bnz rs1 off) s)
      (if (s.getX rs1).val ≠ 0 then BitVec.ofInt 16 (s.pc.toNat + off) else s.pc + 1#16)
end

