-- ==== Sys2Proof/Laws/Alu.lean ====
section
/-! SUPPORT. What the shared results of Alu.lean and the bit operations of Operands.lean can be: their values as the
spec writes them, and that a result fits its length (R31). -/

namespace Sys2Proof.Machine

open Sys2Proof

theorem modulus_pos (L : Nat) : 0 < modulus L := by
  unfold modulus
  positivity

theorem modulus_mono {a b : Nat} (h : a ≤ b) : modulus a ≤ modulus b :=
  Nat.pow_le_pow_right (by decide) (by omega)

theorem Vui.fits_iff (m : Nat) (v : Vui) : v.fits m = true ↔ v.len ≤ m ∧ v.val < modulus v.len := by
  simp [Vui.fits]

theorem wider_le {m : Nat} {a b : Vui} (ha : a.len ≤ m) (hb : b.len ≤ m) : wider a b ≤ m := max_le ha hb

theorem val_lt_wider_left {a : Vui} (b : Vui) (h : a.val < modulus a.len) : a.val < modulus (wider a b) :=
  lt_of_lt_of_le h (modulus_mono (le_max_left _ _))

theorem val_lt_wider_right {b : Vui} (a : Vui) (h : b.val < modulus b.len) : b.val < modulus (wider a b) :=
  lt_of_lt_of_le h (modulus_mono (le_max_right _ _))

theorem reduce_fits {m L : Nat} (e : Nat) (hL : L ≤ m) : (reduce L e).fits m = true :=
  (Vui.fits_iff _ _).2 ⟨hL, Nat.mod_lt _ (modulus_pos L)⟩

/-- The value of `reduceInt` as an integer. -/
theorem reduceInt_val (L : Nat) (e : Int) : ((reduceInt L e).val : Int) = e % (modulus L : Int) :=
  Int.toNat_of_nonneg (Int.emod_nonneg e (by have := modulus_pos L; omega))

theorem reduceInt_val_lt (L : Nat) (e : Int) : (reduceInt L e).val < modulus L := by
  have h1 := reduceInt_val L e
  have h2 := Int.emod_lt_of_pos e (show (0 : Int) < modulus L by exact_mod_cast modulus_pos L)
  omega

theorem reduceInt_fits {m L : Nat} (e : Int) (hL : L ≤ m) : (reduceInt L e).fits m = true :=
  (Vui.fits_iff _ _).2 ⟨hL, reduceInt_val_lt L e⟩

/-- The left shift for every count; the early answer 0 of `aluShl` is no exception. -/
theorem aluShl_eq (a : Vui) (n : Nat) : aluShl a n = reduce a.len (a.val * 2 ^ n) := by
  unfold aluShl
  split
  · rename_i h
    obtain ⟨k, rfl⟩ := Nat.exists_eq_add_of_le h
    simp [reduce, modulus, Nat.pow_add, ← Nat.mul_assoc, Nat.mul_right_comm]
  · rfl

theorem aluShr_eq (a : Vui) (n : Nat) : aluShr a n = { len := a.len, val := a.val / 2 ^ n } := by
  simp [aluShr, Nat.shiftRight_eq_div_pow]

theorem aluShl_fits {m : Nat} {a : Vui} (n : Nat) (h : a.len ≤ m) : (aluShl a n).fits m = true := by
  rw [aluShl_eq]
  exact reduce_fits _ h

theorem aluShr_fits {m : Nat} {a : Vui} (n : Nat) (h : a.fits m = true) : (aluShr a n).fits m = true := by
  rw [Vui.fits_iff] at h
  rw [aluShr_eq, Vui.fits_iff]
  exact ⟨h.1, lt_of_le_of_lt (Nat.div_le_self _ _) h.2⟩

theorem truth_fits {m : Nat} (c : Bool) (h : 1 ≤ m) : (truth c).fits m = true := by
  rw [Vui.fits_iff]
  exact ⟨h, by cases c <;> decide⟩

theorem oneBit_fits {m b : Nat} (hb : b < 2) (h : 1 ≤ m) : (oneBit b).fits m = true := by
  rw [Vui.fits_iff]
  exact ⟨h, lt_trans hb (show 2 < modulus 1 by decide)⟩

theorem bitOf_lt (v i : Nat) : bitOf v i < 2 := Nat.mod_lt _ (by decide)

theorem bitOf_eq_testBit (v i : Nat) : bitOf v i = (v.testBit i).toNat := by
  rw [bitOf, Nat.testBit_eq_decide_div_mod_eq]
  rcases Nat.mod_two_eq_zero_or_one (v / 2 ^ i) with h | h <;> simp [h]

/-- `setBitOf` changes bit `i` alone. -/
theorem setBitOf_testBit (v i b j : Nat) (hb : b < 2) :
    (setBitOf v i b).testBit j = if j = i then decide (b = 1) else v.testBit j := by
  unfold setBitOf
  rw [Nat.testBit_or, Nat.testBit_xor, Nat.testBit_and, Nat.testBit_mul_two_pow, Nat.testBit_two_pow]
  by_cases hj : j = i
  · subst hj
    interval_cases b <;> simp
  · by_cases hl : i ≤ j
    · have h0 : b.testBit (j - i) = false := by
        apply Nat.testBit_lt_two_pow
        exact lt_of_lt_of_le hb (by simpa using Nat.pow_le_pow_right (n := 2) (by decide) (show 1 ≤ j - i by omega))
      simp [hj, Ne.symm hj, h0]
    · simp [hj, Ne.symm hj, hl]

theorem setBitOf_lt (v i b n : Nat) (h : v < 2 ^ n) (hi : i < n) (hb : b < 2) : setBitOf v i b < 2 ^ n := by
  apply Nat.or_lt_two_pow
  · exact Nat.xor_lt_two_pow h (lt_of_le_of_lt Nat.and_le_left h)
  · exact lt_of_le_of_lt (by simpa using Nat.mul_le_mul_right (2 ^ i) (show b ≤ 1 by omega))
      (Nat.pow_lt_pow_right (by decide) hi)

end Sys2Proof.Machine
end

