-- ==== Sys2Proof/Laws/Encoding.lean ====
section
/-! SUPPORT. The bits of an encoded word: its number, its fields, and which bits a zero field clears. -/

namespace Sys2Proof.Laws

open Sys2Proof

/-- A word whose C and imm16 fields do not overlap is the number R103 gives. -/
theorem wordOf_toNat (op : Nat) (a b c : Reg) (imm : Nat) (hop : op < 64)
    (hc : c.val * 2 ^ 14 + imm % 2 ^ 16 < 2 ^ 18) :
    (wordOf op a b c imm).toNat =
      op * 2 ^ 26 + a.val * 2 ^ 22 + b.val * 2 ^ 18 + c.val * 2 ^ 14 + imm % 2 ^ 16 := by
  have ha := a.isLt
  have hb := b.isLt
  simp only [wordOf, BitVec.toNat_ofNat]
  omega

/-- R3 words (imm16 field unused). -/
theorem wordOf_r3 (op : Nat) (a b c : Reg) (hop : op < 64) :
    (wordOf op a b c 0).toNat = op * 2 ^ 26 + a.val * 2 ^ 22 + b.val * 2 ^ 18 + c.val * 2 ^ 14 := by
  have hc := c.isLt
  have := wordOf_toNat op a b c 0 hop (by omega)
  simpa using this

/-- Words with the C field unused. -/
theorem wordOf_imm (op : Nat) (a b : Reg) (imm : Nat) (hop : op < 64) :
    (wordOf op a b 0 imm).toNat = op * 2 ^ 26 + a.val * 2 ^ 22 + b.val * 2 ^ 18 + imm % 2 ^ 16 := by
  have := wordOf_toNat op a b 0 imm hop (by simp; omega)
  simpa using this

/-- A zero field has no bit set. -/
theorem testBit_of_field_zero (v lo n i : Nat) (h : v / 2 ^ lo % 2 ^ n = 0) (hlo : lo ≤ i) (hi : i < lo + n) :
    v.testBit i = false := by
  have h1 : (v / 2 ^ lo % 2 ^ n).testBit (i - lo) = false := by rw [h]; simp
  rw [Nat.testBit_mod_two_pow, Nat.testBit_div_two_pow, show i - lo + lo = i by omega] at h1
  simpa [show i - lo < n by omega] using h1

/-- A word is legal when its opcode is assigned and no bit of the mask below bit 26 is set. -/
theorem wordLegal_of (w : Word) (f : Format) (hf : formatOf (w.toNat / 2 ^ 26) = some f)
    (hz : ∀ i, i < 26 → f.mask.getLsbD i = true → w.toNat.testBit i = false) : wordLegal w = true := by
  have hm : ∀ i, i < 32 → 26 ≤ i → f.mask.getLsbD i = true := by cases f <;> decide
  simp only [wordLegal, hf, decide_eq_true_eq]
  apply BitVec.eq_of_getLsbD_eq
  intro i hi
  have hw : w.toNat / 2 ^ 26 * 2 ^ 26 < 2 ^ 32 := by have := w.isLt; omega
  rw [BitVec.getLsbD_and, BitVec.getLsbD_ofNat, Nat.testBit_mul_two_pow, Nat.testBit_div_two_pow]
  by_cases h26 : 26 ≤ i
  · rw [hm i hi h26, show i - 26 + 26 = i by omega]
    simp [hi, h26, BitVec.getLsbD]
  · cases hb : f.mask.getLsbD i with
    | false => simp [h26]
    | true =>
      have := hz i (by omega) hb
      simp [h26, BitVec.getLsbD, this]

end Sys2Proof.Laws
end

