-- ==== Sys2Proof/Laws/Decoding.lean ====
section
/-! SUPPORT. The fields of a word from its number, and one lemma per format: an opcode whose words the decoder reads
in that format has them decode to the instruction (the `Decodes...` of Safety.lean). -/

namespace Sys2Proof.Laws

open Sys2Proof Sys2Proof.Machine

/-- The number of a word whose fields do not overlap. -/
theorem specWord_toNat (op a b c imm : Nat) (hop : op < 64) (ha : a < 16) (hb : b < 16)
    (hc : c * 2 ^ 14 + imm < 2 ^ 18) :
    (specWord op a b c imm).toNat = op * 2 ^ 26 + a * 2 ^ 22 + b * 2 ^ 18 + c * 2 ^ 14 + imm := by
  simp only [specWord, BitVec.toNat_ofNat]
  omega

/-- The encoder's word is the spec's. -/
theorem wordOf_eq_specWord (op : Nat) (a b c : Reg) (imm : Nat) :
    wordOf op a b c imm = specWord op a.val b.val c.val (imm % 2 ^ 16) := rfl

theorem fieldA_eq (w : Word) (r : Reg) (h : w.toNat / 2 ^ 22 % 2 ^ 4 = r.val) : fieldA w = r := by
  apply Fin.ext
  have := r.isLt
  simp only [fieldA, bits, Fin.ofNat, h]
  omega

theorem fieldB_eq (w : Word) (r : Reg) (h : w.toNat / 2 ^ 18 % 2 ^ 4 = r.val) : fieldB w = r := by
  apply Fin.ext
  have := r.isLt
  simp only [fieldB, bits, Fin.ofNat, h]
  omega

theorem fieldC_eq (w : Word) (r : Reg) (h : w.toNat / 2 ^ 14 % 2 ^ 4 = r.val) : fieldC w = r := by
  apply Fin.ext
  have := r.isLt
  simp only [fieldC, bits, Fin.ofNat, h]
  omega

/-- `sext_16` as the number of the low 16 bits, less 65536 from 2^15 on. -/
theorem sext16_eq (w : Word) (imm : Nat) (h : w.toNat % 2 ^ 16 = imm) :
    sext16 w = if 2 ^ 15 ≤ imm then (imm : Int) - 65536 else (imm : Int) := by
  subst h
  have h0 : bits w 0 16 = w.toNat % 2 ^ 16 := by simp only [bits]; omega
  by_cases h : bits w 15 1 = 1
  · rw [sext16, if_pos h, if_pos (by simp only [bits] at h; omega), h0]
  · rw [sext16, if_neg h, if_neg (by simp only [bits] at h; omega), h0]

/-- `sext_16` undoes `off16` within the range of R109. -/
theorem sext16_off16 (w : Word) (off : Int) (hoff : offOk off = true) (h : w.toNat % 2 ^ 16 = off16 off) :
    sext16 w = off := by
  simp only [offOk, Bool.and_eq_true, decide_eq_true_eq] at hoff
  rw [sext16_eq w _ h]
  unfold off16
  split <;> omega

theorem decodesR3_of (op : Nat) (i : Reg → Reg → Reg → Instr) (hop : op < 64)
    (h : ∀ w, bits w 26 6 = op → decode w = asR3 w i) : DecodesR3 op i := by
  intro a b c
  have ha := a.isLt
  have hb := b.isLt
  have hc := c.isLt
  have hw := specWord_toNat op a.val b.val c.val 0 hop ha hb (by omega)
  have hz : bits (specWord op a.val b.val c.val 0) 0 14 = 0 := by simp only [bits, hw]; omega
  rw [h _ (by simp only [bits, hw]; omega)]
  simp [asR3, ifZero, hz, fieldA_eq _ a (by rw [hw]; omega), fieldB_eq _ b (by rw [hw]; omega),
    fieldC_eq _ c (by rw [hw]; omega)]

theorem decodesR2_of (op : Nat) (i : Reg → Reg → Instr) (hop : op < 64)
    (h : ∀ w, bits w 26 6 = op → decode w = asR2 w i) : DecodesR2 op i := by
  intro a b
  have ha := a.isLt
  have hb := b.isLt
  have hw := specWord_toNat op a.val b.val 0 0 hop ha hb (by norm_num)
  have hz : bits (specWord op a.val b.val 0 0) 0 18 = 0 := by simp only [bits, hw]; omega
  rw [h _ (by simp only [bits, hw]; omega)]
  simp [asR2, ifZero, hz, fieldA_eq _ a (by rw [hw]; omega), fieldB_eq _ b (by rw [hw]; omega)]

theorem decodesI_of (op : Nat) (i : Reg → Reg → Nat → Instr) (hop : op < 64)
    (h : ∀ w, bits w 26 6 = op → decode w = asI w i) : DecodesI op i := by
  intro a b imm hi
  have ha := a.isLt
  have hb := b.isLt
  have hw := specWord_toNat op a.val b.val 0 imm hop ha hb (by omega)
  have hz : bits (specWord op a.val b.val 0 imm) 16 2 = 0 := by simp only [bits, hw]; omega
  have hx : zext16 (specWord op a.val b.val 0 imm) = imm := by simp only [zext16, bits, hw]; omega
  rw [h _ (by simp only [bits, hw]; omega)]
  simp [asI, ifZero, hz, hx, fieldA_eq _ a (by rw [hw]; omega), fieldB_eq _ b (by rw [hw]; omega)]

theorem decodesU_of (op : Nat) (i : Reg → Nat → Instr) (hop : op < 64)
    (h : ∀ w, bits w 26 6 = op → decode w = asU w i) : DecodesU op i := by
  intro a imm hi
  have ha := a.isLt
  have hw := specWord_toNat op a.val 0 0 imm hop ha (by omega) (by omega)
  have hz : bits (specWord op a.val 0 0 imm) 16 6 = 0 := by simp only [bits, hw]; omega
  have hx : zext16 (specWord op a.val 0 0 imm) = imm := by simp only [zext16, bits, hw]; omega
  rw [h _ (by simp only [bits, hw]; omega)]
  simp [asU, ifZero, hz, hx, fieldA_eq _ a (by rw [hw]; omega)]

theorem decodesB_of (op : Nat) (i : Reg → Int → Instr) (hop : op < 64)
    (h : ∀ w, bits w 26 6 = op → decode w = asB w i) : DecodesB op i := by
  intro b imm hi
  have hb := b.isLt
  have hw := specWord_toNat op 0 b.val 0 imm hop (by omega) hb (by omega)
  have hz : bits (specWord op 0 b.val 0 imm) 16 2 = 0 := by simp only [bits, hw]; omega
  have hz' : bits (specWord op 0 b.val 0 imm) 22 4 = 0 := by simp only [bits, hw]; omega
  rw [h _ (by simp only [bits, hw]; omega)]
  simp only [asB, ifZero, hz, hz', fieldB_eq _ b (by rw [hw]; omega), sext16_eq _ imm (by rw [hw]; omega)]
  rfl

theorem decodesJ_of (op : Nat) (i : Int → Instr) (hop : op < 64)
    (h : ∀ w, bits w 26 6 = op → decode w = asJ w i) : DecodesJ op i := by
  intro imm hi
  have hw := specWord_toNat op 0 0 0 imm hop (by omega) (by omega) (by omega)
  have hz : bits (specWord op 0 0 0 imm) 16 10 = 0 := by simp only [bits, hw]; omega
  rw [h _ (by simp only [bits, hw]; omega)]
  simp only [asJ, ifZero, hz, sext16_eq _ imm (by rw [hw]; omega)]
  rfl

end Sys2Proof.Laws
end

