-- ==== Sys2Proof/Laws/HostPort.lean ====
section
/-! SUPPORT. What the host address map names, range by range (R50, R61 to R64). -/

namespace Sys2Proof.Machine

open Sys2Proof

/-- From word index 11 on there is no control register. -/
theorem controlAt_reserved (i : Nat) (h : 11 ≤ i) : controlAt i = .reserved := by
  unfold controlAt
  split <;> first | rfl | omega

theorem registerAt_len (r : Reg) : registerAt (0x80 * r.val) = .regLen r := by
  have hr : 0x80 * r.val / 0x80 = r.val := by omega
  simp [registerAt, hr]

theorem registerAt_reserved (off : Nat) (h : 4 ≤ off % 0x80) (h' : off % 0x80 < 0x40) :
    registerAt off = .reserved := by
  simp [registerAt, h', show off % 0x80 ≠ 0 by omega]

theorem registerAt_data (r : Reg) (k : Nat) (hk : k < 16) :
    registerAt (0x80 * r.val + 0x40 + 4 * k) = .regData r k := by
  have hd : (0x80 * r.val + 0x40 + 4 * k) / 0x80 = r.val := by omega
  have hm : (0x80 * r.val + 0x40 + 4 * k) % 0x80 = 0x40 + 4 * k := by omega
  simp [registerAt, hd, hm]

variable (a : HostAddr)

/-- Address bits [1:0] are ignored (R64). -/
theorem locate_word (b : HostAddr) (h : a.toNat / 4 = b.toNat / 4) : locate a = locate b := by
  simp only [locate, h]

theorem locate_control (h : a.toNat < 0x1000) : locate a = controlAt (a.toNat / 4) := by
  have hq : a.toNat / 4 * 4 / 0x10000 = 0 := by omega
  have hc : a.toNat / 4 * 4 < 0x1000 := by omega
  simp [locate, hq, hc]

theorem locate_registers (h : 0x1000 ≤ a.toNat) (h' : a.toNat < 0x1800) :
    locate a = registerAt (a.toNat / 4 * 4 - 0x1000) := by
  have hq : a.toNat / 4 * 4 / 0x10000 = 0 := by omega
  have hc : ¬ a.toNat / 4 * 4 < 0x1000 := by omega
  have hr : a.toNat / 4 * 4 < 0x1800 := by omega
  simp [locate, hq, hc, hr]

theorem locate_reserved_mid (h : 0x1800 ≤ a.toNat) (h' : a.toNat < 0x10000) : locate a = .reserved := by
  have hq : a.toNat / 4 * 4 / 0x10000 = 0 := by omega
  have hc : ¬ a.toNat / 4 * 4 < 0x1000 := by omega
  have hr : ¬ a.toNat / 4 * 4 < 0x1800 := by omega
  simp [locate, hq, hc, hr]

theorem locate_reserved_high (h : 0x30000 ≤ a.toNat) : locate a = .reserved := by
  have hq : a.toNat / 4 * 4 / 0x10000 = 3 := by omega
  simp [locate, hq]

theorem locate_imem (p : Nat) (hp : p < 2 ^ 14) (h : a.toNat / 4 * 4 = 0x10000 + 4 * p) : locate a = .imem p := by
  have hq : (0x10000 + 4 * p) / 0x10000 = 1 := by omega
  simp [locate, h, hq]

theorem locate_dmem (q : Nat) (hq : q < 2 ^ 14) (h : a.toNat / 4 * 4 = 0x20000 + 4 * q) : locate a = .dmem q := by
  have hd : (0x20000 + 4 * q) / 0x10000 = 2 := by omega
  simp [locate, h, hd]

theorem locate_ctrl (h : a.toNat / 4 = 1) : locate a = .ctrl := by
  rw [locate_control a (by omega), h]
  rfl

theorem locate_status (h : a.toNat / 4 = 2) : locate a = .status := by
  rw [locate_control a (by omega), h]
  rfl

theorem locate_pc (h : a.toNat / 4 = 3) : locate a = .pc := by
  rw [locate_control a (by omega), h]
  rfl

theorem locate_reserved_low (h : 0x2C ≤ a.toNat) (h' : a.toNat < 0x1000) : locate a = .reserved := by
  rw [locate_control a h', controlAt_reserved _ (by omega)]

theorem locate_reserved_reg (h : 0x1000 ≤ a.toNat) (h' : a.toNat < 0x1800) (h4 : 4 ≤ a.toNat % 0x80)
    (h40 : a.toNat % 0x80 < 0x40) : locate a = .reserved := by
  rw [locate_registers a h h', registerAt_reserved _ (by omega) (by omega)]

theorem locate_regLen (r : Reg) (h : a.toNat / 4 * 4 = 0x1000 + 0x80 * r.val) : locate a = .regLen r := by
  have hr := r.isLt
  rw [locate_registers a (by omega) (by omega), h, Nat.add_sub_cancel_left, registerAt_len]

theorem locate_regData (r : Reg) (k : Nat) (hk : k < 16)
    (h : a.toNat / 4 * 4 = 0x1000 + (0x80 * r.val + 0x40 + 4 * k)) : locate a = .regData r k := by
  have hr := r.isLt
  rw [locate_registers a (by omega) (by omega), h, Nat.add_sub_cancel_left, registerAt_data r k hk]

end Sys2Proof.Machine
end

