-- ==== Sys2Proof/Laws/State.lean ====
section
/-! SUPPORT. One lemma per field per state update: what each named update leaves and what it sets. -/

namespace Sys2Proof.Machine

open Sys2Proof

variable (s : State)


/-! ## setX -/
@[simp] theorem State.setX_regs (r : Reg) (v : Vui) : (s.setX r v).regs = if r = 0 then s.regs else s.regs.set r.val v r.isLt := rfl
@[simp] theorem State.setX_pc (r : Reg) (v : Vui) : (s.setX r v).pc = s.pc := rfl
@[simp] theorem State.setX_runState (r : Reg) (v : Vui) : (s.setX r v).runState = s.runState := rfl
@[simp] theorem State.setX_stopReq (r : Reg) (v : Vui) : (s.setX r v).stopReq = s.stopReq := rfl
@[simp] theorem State.setX_irqPend (r : Reg) (v : Vui) : (s.setX r v).irqPend = s.irqPend := rfl
@[simp] theorem State.setX_ovf (r : Reg) (v : Vui) : (s.setX r v).ovf = s.ovf := rfl
@[simp] theorem State.setX_trunc (r : Reg) (v : Vui) : (s.setX r v).trunc = s.trunc := rfl
@[simp] theorem State.setX_irqEn (r : Reg) (v : Vui) : (s.setX r v).irqEn = s.irqEn := rfl
@[simp] theorem State.setX_cause (r : Reg) (v : Vui) : (s.setX r v).cause = s.cause := rfl
@[simp] theorem State.setX_faultPc (r : Reg) (v : Vui) : (s.setX r v).faultPc = s.faultPc := rfl
@[simp] theorem State.setX_faultInsn (r : Reg) (v : Vui) : (s.setX r v).faultInsn = s.faultInsn := rfl
@[simp] theorem State.setX_faultInfo (r : Reg) (v : Vui) : (s.setX r v).faultInfo = s.faultInfo := rfl
@[simp] theorem State.setX_imem (r : Reg) (v : Vui) : (s.setX r v).imem = s.imem := rfl
@[simp] theorem State.setX_dmem (r : Reg) (v : Vui) : (s.setX r v).dmem = s.dmem := rfl
@[simp] theorem State.setX_params (r : Reg) (v : Vui) : (s.setX r v).params = s.params := rfl
@[simp] theorem State.setX_events (r : Reg) (v : Vui) : (s.setX r v).events = s.events := rfl
@[simp] theorem State.setX_answer (r : Reg) (v : Vui) : (s.setX r v).answer = s.answer := rfl

/-! ## stickOvf -/
@[simp] theorem State.stickOvf_regs (c : Bool) : (s.stickOvf c).regs = s.regs := rfl
@[simp] theorem State.stickOvf_pc (c : Bool) : (s.stickOvf c).pc = s.pc := rfl
@[simp] theorem State.stickOvf_runState (c : Bool) : (s.stickOvf c).runState = s.runState := rfl
@[simp] theorem State.stickOvf_stopReq (c : Bool) : (s.stickOvf c).stopReq = s.stopReq := rfl
@[simp] theorem State.stickOvf_irqPend (c : Bool) : (s.stickOvf c).irqPend = s.irqPend := rfl
@[simp] theorem State.stickOvf_ovf (c : Bool) : (s.stickOvf c).ovf = (s.ovf || c) := rfl
@[simp] theorem State.stickOvf_trunc (c : Bool) : (s.stickOvf c).trunc = s.trunc := rfl
@[simp] theorem State.stickOvf_irqEn (c : Bool) : (s.stickOvf c).irqEn = s.irqEn := rfl
@[simp] theorem State.stickOvf_cause (c : Bool) : (s.stickOvf c).cause = s.cause := rfl
@[simp] theorem State.stickOvf_faultPc (c : Bool) : (s.stickOvf c).faultPc = s.faultPc := rfl
@[simp] theorem State.stickOvf_faultInsn (c : Bool) : (s.stickOvf c).faultInsn = s.faultInsn := rfl
@[simp] theorem State.stickOvf_faultInfo (c : Bool) : (s.stickOvf c).faultInfo = s.faultInfo := rfl
@[simp] theorem State.stickOvf_imem (c : Bool) : (s.stickOvf c).imem = s.imem := rfl
@[simp] theorem State.stickOvf_dmem (c : Bool) : (s.stickOvf c).dmem = s.dmem := rfl
@[simp] theorem State.stickOvf_params (c : Bool) : (s.stickOvf c).params = s.params := rfl
@[simp] theorem State.stickOvf_events (c : Bool) : (s.stickOvf c).events = s.events := rfl
@[simp] theorem State.stickOvf_answer (c : Bool) : (s.stickOvf c).answer = s.answer := rfl

/-! ## stickTrunc -/
@[simp] theorem State.stickTrunc_regs (c : Bool) : (s.stickTrunc c).regs = s.regs := rfl
@[simp] theorem State.stickTrunc_pc (c : Bool) : (s.stickTrunc c).pc = s.pc := rfl
@[simp] theorem State.stickTrunc_runState (c : Bool) : (s.stickTrunc c).runState = s.runState := rfl
@[simp] theorem State.stickTrunc_stopReq (c : Bool) : (s.stickTrunc c).stopReq = s.stopReq := rfl
@[simp] theorem State.stickTrunc_irqPend (c : Bool) : (s.stickTrunc c).irqPend = s.irqPend := rfl
@[simp] theorem State.stickTrunc_ovf (c : Bool) : (s.stickTrunc c).ovf = s.ovf := rfl
@[simp] theorem State.stickTrunc_trunc (c : Bool) : (s.stickTrunc c).trunc = (s.trunc || c) := rfl
@[simp] theorem State.stickTrunc_irqEn (c : Bool) : (s.stickTrunc c).irqEn = s.irqEn := rfl
@[simp] theorem State.stickTrunc_cause (c : Bool) : (s.stickTrunc c).cause = s.cause := rfl
@[simp] theorem State.stickTrunc_faultPc (c : Bool) : (s.stickTrunc c).faultPc = s.faultPc := rfl
@[simp] theorem State.stickTrunc_faultInsn (c : Bool) : (s.stickTrunc c).faultInsn = s.faultInsn := rfl
@[simp] theorem State.stickTrunc_faultInfo (c : Bool) : (s.stickTrunc c).faultInfo = s.faultInfo := rfl
@[simp] theorem State.stickTrunc_imem (c : Bool) : (s.stickTrunc c).imem = s.imem := rfl
@[simp] theorem State.stickTrunc_dmem (c : Bool) : (s.stickTrunc c).dmem = s.dmem := rfl
@[simp] theorem State.stickTrunc_params (c : Bool) : (s.stickTrunc c).params = s.params := rfl
@[simp] theorem State.stickTrunc_events (c : Bool) : (s.stickTrunc c).events = s.events := rfl
@[simp] theorem State.stickTrunc_answer (c : Bool) : (s.stickTrunc c).answer = s.answer := rfl

/-! ## enterHalted -/
@[simp] theorem State.enterHalted_regs : (s.enterHalted).regs = s.regs := rfl
@[simp] theorem State.enterHalted_pc : (s.enterHalted).pc = s.pc := rfl
@[simp] theorem State.enterHalted_runState : (s.enterHalted).runState = .halted := rfl
@[simp] theorem State.enterHalted_stopReq : (s.enterHalted).stopReq = false := rfl
@[simp] theorem State.enterHalted_irqPend : (s.enterHalted).irqPend = true := rfl
@[simp] theorem State.enterHalted_ovf : (s.enterHalted).ovf = s.ovf := rfl
@[simp] theorem State.enterHalted_trunc : (s.enterHalted).trunc = s.trunc := rfl
@[simp] theorem State.enterHalted_irqEn : (s.enterHalted).irqEn = s.irqEn := rfl
@[simp] theorem State.enterHalted_cause : (s.enterHalted).cause = s.cause := rfl
@[simp] theorem State.enterHalted_faultPc : (s.enterHalted).faultPc = s.faultPc := rfl
@[simp] theorem State.enterHalted_faultInsn : (s.enterHalted).faultInsn = s.faultInsn := rfl
@[simp] theorem State.enterHalted_faultInfo : (s.enterHalted).faultInfo = s.faultInfo := rfl
@[simp] theorem State.enterHalted_imem : (s.enterHalted).imem = s.imem := rfl
@[simp] theorem State.enterHalted_dmem : (s.enterHalted).dmem = s.dmem := rfl
@[simp] theorem State.enterHalted_params : (s.enterHalted).params = s.params := rfl
@[simp] theorem State.enterHalted_events : (s.enterHalted).events = s.events := rfl
@[simp] theorem State.enterHalted_answer : (s.enterHalted).answer = s.answer := rfl

/-! ## faultEntry -/
@[simp] theorem State.faultEntry_regs (c : BitVec 4) (w : Word) (n : Nat) : (s.faultEntry c w n).regs = s.regs := rfl
@[simp] theorem State.faultEntry_pc (c : BitVec 4) (w : Word) (n : Nat) : (s.faultEntry c w n).pc = s.pc := rfl
@[simp] theorem State.faultEntry_runState (c : BitVec 4) (w : Word) (n : Nat) : (s.faultEntry c w n).runState = .faulted := rfl
@[simp] theorem State.faultEntry_stopReq (c : BitVec 4) (w : Word) (n : Nat) : (s.faultEntry c w n).stopReq = false := rfl
@[simp] theorem State.faultEntry_irqPend (c : BitVec 4) (w : Word) (n : Nat) : (s.faultEntry c w n).irqPend = true := rfl
@[simp] theorem State.faultEntry_ovf (c : BitVec 4) (w : Word) (n : Nat) : (s.faultEntry c w n).ovf = s.ovf := rfl
@[simp] theorem State.faultEntry_trunc (c : BitVec 4) (w : Word) (n : Nat) : (s.faultEntry c w n).trunc = s.trunc := rfl
@[simp] theorem State.faultEntry_irqEn (c : BitVec 4) (w : Word) (n : Nat) : (s.faultEntry c w n).irqEn = s.irqEn := rfl
@[simp] theorem State.faultEntry_cause (c : BitVec 4) (w : Word) (n : Nat) : (s.faultEntry c w n).cause = c := rfl
@[simp] theorem State.faultEntry_faultPc (c : BitVec 4) (w : Word) (n : Nat) : (s.faultEntry c w n).faultPc = s.pc := rfl
@[simp] theorem State.faultEntry_faultInsn (c : BitVec 4) (w : Word) (n : Nat) : (s.faultEntry c w n).faultInsn = w := rfl
@[simp] theorem State.faultEntry_faultInfo (c : BitVec 4) (w : Word) (n : Nat) : (s.faultEntry c w n).faultInfo = saturate32 n := rfl
@[simp] theorem State.faultEntry_imem (c : BitVec 4) (w : Word) (n : Nat) : (s.faultEntry c w n).imem = s.imem := rfl
@[simp] theorem State.faultEntry_dmem (c : BitVec 4) (w : Word) (n : Nat) : (s.faultEntry c w n).dmem = s.dmem := rfl
@[simp] theorem State.faultEntry_params (c : BitVec 4) (w : Word) (n : Nat) : (s.faultEntry c w n).params = s.params := rfl
@[simp] theorem State.faultEntry_events (c : BitVec 4) (w : Word) (n : Nat) : (s.faultEntry c w n).events = s.events := rfl
@[simp] theorem State.faultEntry_answer (c : BitVec 4) (w : Word) (n : Nat) : (s.faultEntry c w n).answer = s.answer := rfl

/-! ## putDmemBit -/
@[simp] theorem State.putDmemBit_regs (i b : Nat) : (s.putDmemBit i b).regs = s.regs := rfl
@[simp] theorem State.putDmemBit_pc (i b : Nat) : (s.putDmemBit i b).pc = s.pc := rfl
@[simp] theorem State.putDmemBit_runState (i b : Nat) : (s.putDmemBit i b).runState = s.runState := rfl
@[simp] theorem State.putDmemBit_stopReq (i b : Nat) : (s.putDmemBit i b).stopReq = s.stopReq := rfl
@[simp] theorem State.putDmemBit_irqPend (i b : Nat) : (s.putDmemBit i b).irqPend = s.irqPend := rfl
@[simp] theorem State.putDmemBit_ovf (i b : Nat) : (s.putDmemBit i b).ovf = s.ovf := rfl
@[simp] theorem State.putDmemBit_trunc (i b : Nat) : (s.putDmemBit i b).trunc = s.trunc := rfl
@[simp] theorem State.putDmemBit_irqEn (i b : Nat) : (s.putDmemBit i b).irqEn = s.irqEn := rfl
@[simp] theorem State.putDmemBit_cause (i b : Nat) : (s.putDmemBit i b).cause = s.cause := rfl
@[simp] theorem State.putDmemBit_faultPc (i b : Nat) : (s.putDmemBit i b).faultPc = s.faultPc := rfl
@[simp] theorem State.putDmemBit_faultInsn (i b : Nat) : (s.putDmemBit i b).faultInsn = s.faultInsn := rfl
@[simp] theorem State.putDmemBit_faultInfo (i b : Nat) : (s.putDmemBit i b).faultInfo = s.faultInfo := rfl
@[simp] theorem State.putDmemBit_imem (i b : Nat) : (s.putDmemBit i b).imem = s.imem := rfl
@[simp] theorem State.putDmemBit_dmem (i b : Nat) : (s.putDmemBit i b).dmem = cellWrite s.dmem (i / 8) (BitVec.ofNat 8 (setBitOf (s.dmemByte (i / 8)).toNat (i % 8) b)) := rfl
@[simp] theorem State.putDmemBit_params (i b : Nat) : (s.putDmemBit i b).params = s.params := rfl
@[simp] theorem State.putDmemBit_events (i b : Nat) : (s.putDmemBit i b).events = s.events := rfl
@[simp] theorem State.putDmemBit_answer (i b : Nat) : (s.putDmemBit i b).answer = s.answer := rfl

/-! ## writeStatus -/
@[simp] theorem State.writeStatus_regs (w : Word) : (s.writeStatus w).regs = s.regs := rfl
@[simp] theorem State.writeStatus_pc (w : Word) : (s.writeStatus w).pc = s.pc := rfl
@[simp] theorem State.writeStatus_runState (w : Word) : (s.writeStatus w).runState = s.runState := rfl
@[simp] theorem State.writeStatus_stopReq (w : Word) : (s.writeStatus w).stopReq = s.stopReq := rfl
@[simp] theorem State.writeStatus_irqPend (w : Word) : (s.writeStatus w).irqPend = (s.irqPend && !w.getLsbD 8) := rfl
@[simp] theorem State.writeStatus_ovf (w : Word) : (s.writeStatus w).ovf = (s.ovf && !w.getLsbD 9) := rfl
@[simp] theorem State.writeStatus_trunc (w : Word) : (s.writeStatus w).trunc = (s.trunc && !w.getLsbD 10) := rfl
@[simp] theorem State.writeStatus_irqEn (w : Word) : (s.writeStatus w).irqEn = s.irqEn := rfl
@[simp] theorem State.writeStatus_cause (w : Word) : (s.writeStatus w).cause = s.cause := rfl
@[simp] theorem State.writeStatus_faultPc (w : Word) : (s.writeStatus w).faultPc = s.faultPc := rfl
@[simp] theorem State.writeStatus_faultInsn (w : Word) : (s.writeStatus w).faultInsn = s.faultInsn := rfl
@[simp] theorem State.writeStatus_faultInfo (w : Word) : (s.writeStatus w).faultInfo = s.faultInfo := rfl
@[simp] theorem State.writeStatus_imem (w : Word) : (s.writeStatus w).imem = s.imem := rfl
@[simp] theorem State.writeStatus_dmem (w : Word) : (s.writeStatus w).dmem = s.dmem := rfl
@[simp] theorem State.writeStatus_params (w : Word) : (s.writeStatus w).params = s.params := rfl
@[simp] theorem State.writeStatus_events (w : Word) : (s.writeStatus w).events = s.events := rfl
@[simp] theorem State.writeStatus_answer (w : Word) : (s.writeStatus w).answer = s.answer := rfl

/-! ## softReset -/
@[simp] theorem State.softReset_regs : (s.softReset).regs = resetRegs := rfl
@[simp] theorem State.softReset_pc : (s.softReset).pc = 0#16 := rfl
@[simp] theorem State.softReset_runState : (s.softReset).runState = .idle := rfl
@[simp] theorem State.softReset_stopReq : (s.softReset).stopReq = false := rfl
@[simp] theorem State.softReset_irqPend : (s.softReset).irqPend = false := rfl
@[simp] theorem State.softReset_ovf : (s.softReset).ovf = false := rfl
@[simp] theorem State.softReset_trunc : (s.softReset).trunc = false := rfl
@[simp] theorem State.softReset_irqEn : (s.softReset).irqEn = false := rfl
@[simp] theorem State.softReset_cause : (s.softReset).cause = 0#4 := rfl
@[simp] theorem State.softReset_faultPc : (s.softReset).faultPc = 0#16 := rfl
@[simp] theorem State.softReset_faultInsn : (s.softReset).faultInsn = 0#32 := rfl
@[simp] theorem State.softReset_faultInfo : (s.softReset).faultInfo = 0#32 := rfl
@[simp] theorem State.softReset_imem : (s.softReset).imem = s.imem := rfl
@[simp] theorem State.softReset_dmem : (s.softReset).dmem = s.dmem := rfl
@[simp] theorem State.softReset_params : (s.softReset).params = s.params := rfl
@[simp] theorem State.softReset_events : (s.softReset).events = s.events := rfl
@[simp] theorem State.softReset_answer : (s.softReset).answer = s.answer := rfl

/-! ## hardReset -/
@[simp] theorem State.hardReset_regs (im : List (Nat × Word)) (dm : List Host.Cell) : (s.hardReset im dm).regs = resetRegs := rfl
@[simp] theorem State.hardReset_pc (im : List (Nat × Word)) (dm : List Host.Cell) : (s.hardReset im dm).pc = 0#16 := rfl
@[simp] theorem State.hardReset_runState (im : List (Nat × Word)) (dm : List Host.Cell) : (s.hardReset im dm).runState = .idle := rfl
@[simp] theorem State.hardReset_stopReq (im : List (Nat × Word)) (dm : List Host.Cell) : (s.hardReset im dm).stopReq = false := rfl
@[simp] theorem State.hardReset_irqPend (im : List (Nat × Word)) (dm : List Host.Cell) : (s.hardReset im dm).irqPend = false := rfl
@[simp] theorem State.hardReset_ovf (im : List (Nat × Word)) (dm : List Host.Cell) : (s.hardReset im dm).ovf = false := rfl
@[simp] theorem State.hardReset_trunc (im : List (Nat × Word)) (dm : List Host.Cell) : (s.hardReset im dm).trunc = false := rfl
@[simp] theorem State.hardReset_irqEn (im : List (Nat × Word)) (dm : List Host.Cell) : (s.hardReset im dm).irqEn = false := rfl
@[simp] theorem State.hardReset_cause (im : List (Nat × Word)) (dm : List Host.Cell) : (s.hardReset im dm).cause = 0#4 := rfl
@[simp] theorem State.hardReset_faultPc (im : List (Nat × Word)) (dm : List Host.Cell) : (s.hardReset im dm).faultPc = 0#16 := rfl
@[simp] theorem State.hardReset_faultInsn (im : List (Nat × Word)) (dm : List Host.Cell) : (s.hardReset im dm).faultInsn = 0#32 := rfl
@[simp] theorem State.hardReset_faultInfo (im : List (Nat × Word)) (dm : List Host.Cell) : (s.hardReset im dm).faultInfo = 0#32 := rfl
@[simp] theorem State.hardReset_imem (im : List (Nat × Word)) (dm : List Host.Cell) : (s.hardReset im dm).imem = cellsLoad s.params.imemWords im := rfl
@[simp] theorem State.hardReset_dmem (im : List (Nat × Word)) (dm : List Host.Cell) : (s.hardReset im dm).dmem = cellsLoad s.params.dmemBytes dm := rfl
@[simp] theorem State.hardReset_params (im : List (Nat × Word)) (dm : List Host.Cell) : (s.hardReset im dm).params = s.params := rfl
@[simp] theorem State.hardReset_events (im : List (Nat × Word)) (dm : List Host.Cell) : (s.hardReset im dm).events = s.events := rfl
@[simp] theorem State.hardReset_answer (im : List (Nat × Word)) (dm : List Host.Cell) : (s.hardReset im dm).answer = s.answer := rfl

/-! ## placeWord -/
@[simp] theorem State.placeWord_regs (w : Word) : (s.placeWord w).regs = s.regs := rfl
@[simp] theorem State.placeWord_pc (w : Word) : (s.placeWord w).pc = if s.fetchOob then 0#16 else s.pc := rfl
@[simp] theorem State.placeWord_runState (w : Word) : (s.placeWord w).runState = .running := rfl
@[simp] theorem State.placeWord_stopReq (w : Word) : (s.placeWord w).stopReq = false := rfl
@[simp] theorem State.placeWord_irqPend (w : Word) : (s.placeWord w).irqPend = s.irqPend := rfl
@[simp] theorem State.placeWord_ovf (w : Word) : (s.placeWord w).ovf = s.ovf := rfl
@[simp] theorem State.placeWord_trunc (w : Word) : (s.placeWord w).trunc = s.trunc := rfl
@[simp] theorem State.placeWord_irqEn (w : Word) : (s.placeWord w).irqEn = s.irqEn := rfl
@[simp] theorem State.placeWord_cause (w : Word) : (s.placeWord w).cause = s.cause := rfl
@[simp] theorem State.placeWord_faultPc (w : Word) : (s.placeWord w).faultPc = s.faultPc := rfl
@[simp] theorem State.placeWord_faultInsn (w : Word) : (s.placeWord w).faultInsn = s.faultInsn := rfl
@[simp] theorem State.placeWord_faultInfo (w : Word) : (s.placeWord w).faultInfo = s.faultInfo := rfl
@[simp] theorem State.placeWord_imem (w : Word) : (s.placeWord w).imem = cellWrite s.imem (if s.fetchOob then 0#16 else s.pc : PcWord).toNat w := rfl
@[simp] theorem State.placeWord_dmem (w : Word) : (s.placeWord w).dmem = s.dmem := rfl
@[simp] theorem State.placeWord_params (w : Word) : (s.placeWord w).params = s.params := rfl
@[simp] theorem State.placeWord_events (w : Word) : (s.placeWord w).events = [] := rfl
@[simp] theorem State.placeWord_answer (w : Word) : (s.placeWord w).answer = s.answer := rfl

/-! ## startRequest (R382) -/

theorem State.startRequest_running (h : s.runState = .running) : s.startRequest = s := by
  simp [State.startRequest, h]

theorem State.startRequest_stopped (h : s.runState ≠ .running) :
    s.startRequest = { s with runState := .running, cause := 0#4, stopReq := false } := by
  simp [State.startRequest, h]

/-! ## stopRequest (R384) -/

theorem State.stopRequest_running (h : s.runState = .running) : s.stopRequest = { s with stopReq := true } := by
  simp [State.stopRequest, h]

theorem State.stopRequest_stopped (h : s.runState ≠ .running) : s.stopRequest = s := by
  simp [State.stopRequest, h]

end Sys2Proof.Machine
end

