-- ==== Sys2Proof/Laws/Memory.lean ====
section
/-! SUPPORT. Memory cells: what a read gives after a write, and that every memory operation keeps the canonical
form and lists only cells that exist. -/

namespace Sys2Proof.Machine

open Sys2Proof

variable {w : Nat}

/-! ## One cell -/

theorem cellRead_below (m : List (Nat × BitVec w)) (lo a : Nat) (h : cellsFrom lo m = true) (ha : a < lo) :
    cellRead m a = 0#w := by
  induction m generalizing lo with
  | nil => rfl
  | cons c rest ih =>
    obtain ⟨b, v⟩ := c
    simp only [cellsFrom, Bool.and_eq_true, decide_eq_true_eq] at h
    have hab : a ≠ b := by omega
    simp only [cellRead, if_neg hab]
    exact ih (b + 1) h.2 (by omega)

theorem cellsFrom_mono (m : List (Nat × BitVec w)) (lo lo' : Nat) (h : cellsFrom lo m = true) (hl : lo' ≤ lo) :
    cellsFrom lo' m = true := by
  cases m with
  | nil => rfl
  | cons c rest =>
    obtain ⟨b, v⟩ := c
    simp only [cellsFrom, Bool.and_eq_true, decide_eq_true_eq] at h ⊢
    exact ⟨⟨by omega, h.1.2⟩, h.2⟩

/-- A write leaves every other address alone, in any cell list. -/
theorem cellRead_cellWrite_other (m : List (Nat × BitVec w)) (a b : Nat) (v : BitVec w) (h : b ≠ a) :
    cellRead (cellWrite m a v) b = cellRead m b := by
  induction m with
  | nil => simp only [cellWrite]; split <;> simp [cellRead, h]
  | cons c rest ih =>
    obtain ⟨d, u⟩ := c
    simp only [cellWrite]
    split
    · split <;> simp [cellRead, h]
    · split
      · rename_i had
        subst had
        split <;> simp [cellRead, h]
      · simp only [cellRead, ih]

/-- A read after a write to the same place gives the value written, in a canonical memory. -/
theorem cellRead_cellWrite_same (m : List (Nat × BitVec w)) (a : Nat) (v : BitVec w) (h : Memory.wf m = true) :
    cellRead (cellWrite m a v) a = v := by
  have key : ∀ lo, cellsFrom lo m = true → cellRead (cellWrite m a v) a = v := by
    clear h
    induction m with
    | nil => intro lo _; simp only [cellWrite]; split <;> simp_all [cellRead]
    | cons c rest ih =>
      obtain ⟨d, u⟩ := c
      intro lo h
      simp only [cellsFrom, Bool.and_eq_true, decide_eq_true_eq] at h
      simp only [cellWrite]
      split
      · rename_i had
        split
        · rename_i hv
          have hne : a ≠ d := by omega
          simp only [cellRead, if_neg hne, hv]
          exact cellRead_below rest (d + 1) a h.2 (by omega)
        · simp [cellRead]
      · split
        · rename_i had
          subst had
          split
          · rename_i hv
            rw [hv]
            exact cellRead_below rest (a + 1) a h.2 (by omega)
          · simp [cellRead]
        · rename_i _ hne
          simp only [cellRead, if_neg hne]
          exact ih (d + 1) h.2
  exact key 0 h

theorem cellWrite_cellsFrom (m : List (Nat × BitVec w)) (lo a : Nat) (v : BitVec w) (h : cellsFrom lo m = true)
    (ha : lo ≤ a) : cellsFrom lo (cellWrite m a v) = true := by
  induction m generalizing lo with
  | nil =>
    simp only [cellWrite]
    split
    · rfl
    · rename_i hv; simp [cellsFrom, ha, hv]
  | cons c rest ih =>
    obtain ⟨d, u⟩ := c
    have h' := h
    simp only [cellsFrom, Bool.and_eq_true, decide_eq_true_eq] at h'
    simp only [cellWrite]
    split
    · split
      · exact h
      · rename_i had hv
        simp only [cellsFrom, Bool.and_eq_true, decide_eq_true_eq]
        exact ⟨⟨ha, hv⟩, ⟨by omega, h'.1.2⟩, h'.2⟩
    · split
      · rename_i _ had
        subst had
        split
        · exact cellsFrom_mono rest (a + 1) lo h'.2 (by omega)
        · rename_i hv
          simp only [cellsFrom, Bool.and_eq_true, decide_eq_true_eq]
          exact ⟨⟨ha, hv⟩, h'.2⟩
      · simp only [cellsFrom, Bool.and_eq_true, decide_eq_true_eq]
        exact ⟨h'.1, ih (d + 1) h'.2 (by omega)⟩

/-- A write keeps the canonical form. -/
theorem cellWrite_wf (m : List (Nat × BitVec w)) (a : Nat) (v : BitVec w) (h : Memory.wf m = true) :
    Memory.wf (cellWrite m a v) = true :=
  cellWrite_cellsFrom m 0 a v h (Nat.zero_le a)

theorem mem_cellWrite (m : List (Nat × BitVec w)) (a : Nat) (v : BitVec w) (c : Nat × BitVec w)
    (h : c ∈ cellWrite m a v) : c = (a, v) ∨ c ∈ m := by
  induction m with
  | nil => simp only [cellWrite] at h; split at h <;> simp_all
  | cons d rest ih =>
    obtain ⟨b, u⟩ := d
    simp only [cellWrite] at h
    split at h
    · split at h
      · exact .inr h
      · simpa using h
    · split at h
      · split at h
        · exact .inr (List.mem_cons_of_mem _ h)
        · rcases List.mem_cons.mp h with h | h
          · exact .inl h
          · exact .inr (List.mem_cons_of_mem _ h)
      · rcases List.mem_cons.mp h with h | h
        · exact .inr (h ▸ List.mem_cons_self)
        · rcases ih h with h | h
          · exact .inl h
          · exact .inr (List.mem_cons_of_mem _ h)

/-- A write below the bound lists only cells that exist. -/
theorem cellWrite_within (bound : Nat) (m : List (Nat × BitVec w)) (a : Nat) (v : BitVec w)
    (h : Memory.within bound m = true) (ha : a < bound) : Memory.within bound (cellWrite m a v) = true := by
  simp only [Memory.within, List.all_eq_true, decide_eq_true_eq] at h ⊢
  intro c hc
  rcases mem_cellWrite m a v c hc with rfl | hc
  · exact ha
  · exact h c hc

/-! ## Loading contents -/

theorem cellsLoad_ok (bound : Nat) (contents : List (Nat × BitVec w)) :
    Memory.wf (cellsLoad bound contents) = true ∧ Memory.within bound (cellsLoad bound contents) = true := by
  have key : ∀ (cs : List (Nat × BitVec w)) (m : List (Nat × BitVec w)),
      Memory.wf m = true ∧ Memory.within bound m = true →
      Memory.wf (cs.foldl (fun m c => if c.1 < bound then cellWrite m c.1 c.2 else m) m) = true ∧
      Memory.within bound (cs.foldl (fun m c => if c.1 < bound then cellWrite m c.1 c.2 else m) m) = true := by
    intro cs
    induction cs with
    | nil => intro m h; exact h
    | cons c rest ih =>
      intro m h
      simp only [List.foldl_cons]
      apply ih
      split
      · rename_i hc
        exact ⟨cellWrite_wf m c.1 c.2 h.1, cellWrite_within bound m c.1 c.2 h.2 hc⟩
      · exact h
  exact key contents [] ⟨rfl, rfl⟩

/-! ## Several bytes -/

theorem memWrite_wf (m : List Host.Cell) (addr n v : Nat) (h : Memory.wf m = true) :
    Memory.wf (memWrite m addr n v) = true := by
  induction n generalizing m addr v with
  | zero => exact h
  | succ n ih => exact ih _ _ _ (cellWrite_wf _ _ _ h)

theorem memWrite_within (bound : Nat) (m : List Host.Cell) (addr n v : Nat) (h : Memory.within bound m = true)
    (ha : addr + n ≤ bound) : Memory.within bound (memWrite m addr n v) = true := by
  induction n generalizing m addr v with
  | zero => exact h
  | succ n ih => exact ih _ _ _ (cellWrite_within bound _ _ _ h (by omega)) (by omega)

/-- MemWrite leaves every byte outside [addr, addr+n) alone. -/
theorem cellRead_memWrite_outside (m : List Host.Cell) (addr n v a : Nat) (h : a < addr ∨ addr + n ≤ a) :
    cellRead (memWrite m addr n v) a = cellRead m a := by
  induction n generalizing m addr v with
  | zero => rfl
  | succ n ih =>
    simp only [memWrite]
    rw [ih _ _ _ (by omega), cellRead_cellWrite_other _ _ _ _ (by omega)]

/-- MemWrite puts `v[8k+7:8k]` at addr+k, for every k below n, in a canonical memory. -/
theorem cellRead_memWrite_inside (m : List Host.Cell) (addr n v k : Nat) (h : Memory.wf m = true) (hk : k < n) :
    cellRead (memWrite m addr n v) (addr + k) = BitVec.ofNat 8 (v / 2 ^ (8 * k)) := by
  induction n generalizing m addr v k with
  | zero => omega
  | succ n ih =>
    simp only [memWrite]
    cases k with
    | zero =>
      rw [cellRead_memWrite_outside _ _ _ _ _ (by omega), show addr + 0 = addr from rfl,
        cellRead_cellWrite_same _ _ _ h]
      simp
    | succ k =>
      have := ih (cellWrite m addr (BitVec.ofNat 8 v)) (addr + 1) (v / 2 ^ 8) k (cellWrite_wf _ _ _ h) (by omega)
      rw [show addr + (k + 1) = addr + 1 + k by omega, this, Nat.div_div_eq_div_mul, ← Nat.pow_add,
        show 8 + 8 * k = 8 * (k + 1) by ring]

/-- MemRead gives less than 2^(8n). -/
theorem memRead_lt (m : List Host.Cell) (addr n : Nat) : memRead m addr n < modulus n := by
  induction n generalizing addr with
  | zero => simp [memRead, modulus]
  | succ n ih =>
    have h1 := ih (addr + 1)
    have h2 := (cellRead m addr).isLt
    simp only [memRead, modulus] at *
    rw [show 8 * (n + 1) = 8 + 8 * n by ring, Nat.pow_add]
    have : 2 ^ 8 * (memRead m (addr + 1) n + 1) ≤ 2 ^ 8 * 2 ^ (8 * n) := Nat.mul_le_mul_left _ h1
    omega

/-- MemRead depends on the bytes [addr, addr+n) alone. -/
theorem memRead_congr (m m' : List Host.Cell) (addr n : Nat)
    (h : ∀ a, addr ≤ a → a < addr + n → cellRead m a = cellRead m' a) : memRead m addr n = memRead m' addr n := by
  induction n generalizing addr with
  | zero => rfl
  | succ n ih =>
    simp only [memRead]
    rw [h addr (by omega) (by omega), ih (addr + 1) fun a h1 h2 => h a (by omega) (by omega)]

/-! ## Reset -/

/-- The memories of the reset state are canonical. -/
theorem reset_memories_wf : Memory.wf State.reset.imem = true ∧ Memory.wf State.reset.dmem = true := ⟨rfl, rfl⟩

end Sys2Proof.Machine
end

