-- ==== Sys2Proof/Laws/Invariant.lean ====
section
/-! SUPPORT. The shared operations on states keep the invariant's parts (R31, R33, R42, R43, R57). -/

namespace Sys2Proof.Machine

open Sys2Proof

theorem State.getX_fits {s : State} (h : s.regsOk = true) (r : Reg) : (s.getX r).fits s.params.maxl = true := by
  simp only [State.regsOk, Bool.and_eq_true, decide_eq_true_eq] at h
  unfold State.getX
  split
  · simp [Vui.fits, modulus]
  · exact h.1 r

theorem State.setX_regsOk {s : State} (h : s.regsOk = true) (r : Reg) (v : Vui)
    (hv : v.fits s.params.maxl = true) : (s.setX r v).regsOk = true := by
  simp only [State.regsOk, Bool.and_eq_true, decide_eq_true_eq] at h ⊢
  refine ⟨fun q => ?_, ?_⟩
  · by_cases hr : r = 0
    · simpa [State.setX, hr] using h.1 q
    · by_cases hq : q = r
      · subst hq
        simpa [State.setX, hr, Vector.get_eq_getElem] using hv
      · have hn : r.val ≠ q.val := fun e => hq (Fin.ext e.symm)
        have := h.1 q
        simp_all [State.setX, Vector.get_eq_getElem]
  · by_cases hr : r = 0
    · simpa [State.setX, hr] using h.2
    · have hn : r.val ≠ 0 := fun e => hr (Fin.ext e)
      have := h.2
      simp_all [State.setX, Vector.get_eq_getElem]

/-- The invariant looks at these fields alone. -/
theorem State.Inv.congr {s t : State} (h : s.Inv) (hp : t.params = s.params) (hr : t.regs = s.regs)
    (hi : t.imem = s.imem) (hd : t.dmem = s.dmem) (hc : t.cause = s.cause) (hs : t.runState = s.runState)
    (hq : t.stopReq = s.stopReq) : t.Inv := by
  obtain ⟨a, b, c, d, e⟩ := h
  refine ⟨by rw [hp]; exact a, ?_, ?_, ?_, ?_⟩
  · simpa [State.regsOk, hp, hr] using b
  · simpa [State.memoriesOk, hp, hi, hd] using c
  · simpa [State.causeOk, hc, hs] using d
  · simpa [State.stopOk, State.isRunning, hs, hq] using e

theorem State.Inv.setX {s : State} (h : s.Inv) (r : Reg) (v : Vui) (hv : v.fits s.params.maxl = true) :
    (s.setX r v).Inv :=
  ⟨h.1, State.setX_regsOk h.2.1 r v hv, h.2.2.1, h.2.2.2.1, h.2.2.2.2⟩

theorem State.Inv.dmem {s : State} (h : s.Inv) (m : List Host.Cell) (hw : Memory.wf m = true)
    (hb : Memory.within s.params.dmemBytes m = true) : { s with dmem := m }.Inv := by
  obtain ⟨a, b, c, d, e⟩ := h
  refine ⟨a, b, ?_, d, e⟩
  simp only [State.memoriesOk, Bool.and_eq_true] at c ⊢
  exact ⟨⟨c.1.1, hw⟩, hb⟩

theorem State.Inv.faultEntry {s : State} (h : s.Inv) (c : BitVec 4) (w : Word) (n : Nat) (h0 : c ≠ 0#4)
    (h6 : c.toNat ≤ 6) : (s.faultEntry c w n).Inv := by
  obtain ⟨a, b, c', -, -⟩ := h
  refine ⟨a, b, c', ?_, ?_⟩
  · simp [State.causeOk, h0, h6]
  · simp [State.stopOk]

theorem State.Inv.enterHalted {s : State} (h : s.Inv) (hr : s.runState = .running) : s.enterHalted.Inv := by
  obtain ⟨a, b, c, d, -⟩ := h
  refine ⟨a, b, c, ?_, ?_⟩
  · simp only [State.causeOk, Bool.and_eq_true, decide_eq_true_eq, hr] at d ⊢
    have h0 : s.cause = 0#4 := by simpa using d.2
    exact ⟨d.1, by simp [State.enterHalted, h0]⟩
  · simp [State.stopOk]

end Sys2Proof.Machine
end

