-- ==== Sys2Proof/Laws/Registers.lean ====
section
/-! SUPPORT. Register reads after register writes, and reads through every update that writes no register. -/

namespace Sys2Proof.Machine

open Sys2Proof

variable (s : State)

@[simp] theorem State.getX_zero : s.getX 0 = { len := 0, val := 0 } := rfl

theorem State.getX_congr {s t : State} (h : t.regs = s.regs) (r : Reg) : t.getX r = s.getX r := by
  simp [State.getX, h]

/-- What a register reads after a write: the value at the written register, unless that is x0. -/
theorem State.getX_setX (r q : Reg) (v : Vui) :
    (s.setX r v).getX q = if q = r ∧ q ≠ 0 then v else s.getX q := by
  by_cases hq : q = 0
  · simp [State.getX, hq]
  · by_cases hr : r = 0
    · have : q ≠ r := fun h => hq (h.trans hr)
      simp [State.getX, State.setX, hq, hr]
    · by_cases hqr : q = r
      · subst hqr
        simp [State.getX, State.setX, hq, Vector.get_eq_getElem]
      · have hv : r.val ≠ q.val := fun h => hqr (Fin.ext h.symm)
        simp [State.getX, State.setX, hq, hr, hqr, Vector.get_eq_getElem, hv]

@[simp] theorem State.getX_setX_same {r : Reg} (v : Vui) (hr : r ≠ 0) : (s.setX r v).getX r = v := by
  simp [State.getX_setX, hr]

@[simp] theorem State.getX_setX_ne {r q : Reg} (v : Vui) (h : q ≠ r) : (s.setX r v).getX q = s.getX q := by
  simp [State.getX_setX, h]

@[simp] theorem State.getX_stickOvf (c : Bool) (r : Reg) : (s.stickOvf c).getX r = s.getX r := rfl
@[simp] theorem State.getX_stickTrunc (c : Bool) (r : Reg) : (s.stickTrunc c).getX r = s.getX r := rfl
@[simp] theorem State.getX_enterHalted (r : Reg) : s.enterHalted.getX r = s.getX r := rfl
@[simp] theorem State.getX_faultEntry (c : BitVec 4) (w : Word) (n : Nat) (r : Reg) :
    (s.faultEntry c w n).getX r = s.getX r := rfl
@[simp] theorem State.getX_putDmemBit (i b : Nat) (r : Reg) : (s.putDmemBit i b).getX r = s.getX r := rfl
@[simp] theorem State.getX_writeStatus (w : Word) (r : Reg) : (s.writeStatus w).getX r = s.getX r := rfl

/-- `setX` writes its register only. -/
theorem State.setX_writesOnly (rd : Reg) (v : Vui) : WritesOnly s (s.setX rd v) rd v := by
  refine ⟨?_, fun r hr => State.getX_setX_ne s v hr⟩
  by_cases h : rd = 0
  · subst h; rfl
  · simp [h]

end Sys2Proof.Machine
end

