-- ==== Sys2Proof/Laws/Outcome.lean ====
section
/-! SUPPORT. One lemma per shared operation that says all it can do; later proofs cite these and do not unfold the
operations again. -/

namespace Sys2Proof.Machine

open Sys2Proof

variable (s : State)

/-! ## Completing -/

theorem finish_next {s t : State} (h : finish s = .next t) : t = { s with pc := s.pc + 1#16 } := by
  cases h; rfl

theorem goto_next {s t : State} {p : PcWord} (h : goto p s = .next t) : t = { s with pc := p } := by
  cases h; rfl

theorem writeBack_next {s t : State} {rd : Reg} {v : Vui} (h : writeBack rd v s = .next t) :
    t = { s.setX rd v with pc := s.pc + 1#16 } := by
  cases h; rfl

theorem finish_transfers : TransfersTo s (finish s) (s.pc + 1#16) :=
  ⟨_, rfl, rfl, fun _ => rfl, rfl, rfl, fun _ => rfl, ⟨rfl, rfl, rfl⟩, ⟨rfl, rfl, rfl, rfl, rfl, rfl, rfl, rfl, rfl⟩⟩

theorem goto_transfers (p : PcWord) : TransfersTo s (goto p s) p :=
  ⟨_, rfl, rfl, fun _ => rfl, rfl, rfl, fun _ => rfl, ⟨rfl, rfl, rfl⟩, ⟨rfl, rfl, rfl, rfl, rfl, rfl, rfl, rfl, rfl⟩⟩

/-- Writing back after any update that touched OVF and TRUNC alone. -/
theorem writeBack_completesWith (rd : Reg) (v : Vui) (o c : Bool) :
    CompletesWith s (writeBack rd v { s with ovf := o, trunc := c }) rd v o c := by
  refine ⟨_, rfl, ?_, rfl, rfl, rfl, fun _ => rfl, ⟨rfl, rfl, rfl⟩, ⟨rfl, rfl, rfl, rfl, rfl, rfl, rfl, rfl, rfl⟩⟩
  exact State.setX_writesOnly s rd v

theorem writeBack_completes (rd : Reg) (v : Vui) : Completes s (writeBack rd v s) rd v :=
  writeBack_completesWith s rd v s.ovf s.trunc

theorem writeBack_stickOvf (rd : Reg) (v : Vui) (c : Bool) :
    CompletesWith s (writeBack rd v (s.stickOvf c)) rd v (s.ovf || c) s.trunc :=
  writeBack_completesWith s rd v (s.ovf || c) s.trunc

theorem writeBack_stickTrunc (rd : Reg) (v : Vui) (c : Bool) :
    CompletesWith s (writeBack rd v (s.stickTrunc c)) rd v s.ovf (s.trunc || c) :=
  writeBack_completesWith s rd v s.ovf (s.trunc || c)

/-! ## Fault entry -/

theorem saturate32_toNat (n : Nat) : (saturate32 n).toNat = min n (2 ^ 32 - 1) := by
  simp only [saturate32, BitVec.toNat_ofNat]
  omega

theorem faultEntry_takesFault (c : BitVec 4) (w : Word) (n : Nat) :
    TakesFault s (.next (s.faultEntry c w n)) c.toNat w n :=
  ⟨_, rfl, rfl, rfl, rfl, rfl, saturate32_toNat n, rfl, rfl, rfl, fun _ => rfl, fun _ => rfl, rfl, rfl, rfl, rfl,
    rfl, rfl, rfl⟩

theorem raise_takesFault (c : BitVec 4) (n : Nat) (i : Instr) :
    TakesFault s (raise c n i s) c.toNat (encode i) n :=
  faultEntry_takesFault s c (encode i) n

/-! ## Bit access -/

theorem extractBit_cases (self : Instr) (rd rs1 : Reg) (i : Nat) :
    (i < 8 * (s.getX rs1).len ∧
      extractBit self rd rs1 i s = writeBack rd (oneBit (bitOf (s.getX rs1).val i)) s) ∨
    (8 * (s.getX rs1).len ≤ i ∧ extractBit self rd rs1 i s = raise causeOobReg i self s) := by
  by_cases h : i < 8 * (s.getX rs1).len
  · exact .inl ⟨h, by simp [extractBit, Vui.hasBit, h]⟩
  · exact .inr ⟨by omega, by simp [extractBit, Vui.hasBit, h]⟩

theorem insertBit_cases (self : Instr) (rd rs1 : Reg) (i : Nat) :
    (i < 8 * (s.getX rd).len ∧
      insertBit self rd rs1 i s = writeBack rd (aluBins (s.getX rd) i ((s.getX rs1).val % 2)) s) ∨
    (8 * (s.getX rd).len ≤ i ∧ insertBit self rd rs1 i s = raise causeOobReg i self s) := by
  by_cases h : i < 8 * (s.getX rd).len
  · exact .inl ⟨h, by simp [insertBit, Vui.hasBit, h]⟩
  · exact .inr ⟨by omega, by simp [insertBit, Vui.hasBit, h]⟩

theorem compareRegs_completes (rel : Nat → Nat → Bool) (rd rs1 rs2 : Reg) :
    Completes s (compareRegs rel rd rs1 rs2 s) rd (truth (rel (s.getX rs1).val (s.getX rs2).val)) :=
  writeBack_completes s rd _

/-! ## The engine and the machine -/

theorem runWord_cases (insn : Word) :
    (∃ i, decode insn = .ok i ∧ runWord insn s = exec i s) ∨
    (∃ e, decode insn = .error e ∧ runWord insn s = .next (s.faultEntry causeIllegalInsn insn 0)) := by
  cases h : decode insn with
  | ok i => exact .inl ⟨i, rfl, by simp [runWord, h]⟩
  | error e => exact .inr ⟨e, rfl, by simp [runWord, h]⟩

/-- All an engine step can do: nothing, the stop step, FETCH_OOB, or the fetched word. -/
theorem engineStep_cases :
    (s.runState ≠ .running ∧ engineStep s = .next s) ∨
    (s.runState = .running ∧ s.stopReq = true ∧ engineStep s = .next s.enterHalted) ∨
    (s.runState = .running ∧ s.stopReq = false ∧ s.params.imemWords ≤ s.pc.toNat ∧
      engineStep s = .next (s.faultEntry causeFetchOob 0#32 0)) ∨
    (s.runState = .running ∧ s.stopReq = false ∧ s.pc.toNat < s.params.imemWords ∧
      engineStep s = runWord s.fetched s) := by
  by_cases hr : s.runState = .running
  · right
    cases hs : s.stopReq with
    | true => exact .inl ⟨hr, rfl, by simp [engineStep, hr, hs]⟩
    | false =>
      right
      by_cases hp : s.params.imemWords ≤ s.pc.toNat
      · exact .inl ⟨hr, rfl, hp, by simp [engineStep, hr, hs, State.fetchOob, hp]⟩
      · refine .inr ⟨hr, rfl, by omega, ?_⟩
        simp [engineStep, hr, hs, State.fetchOob, hp]
  · exact .inl ⟨hr, by simp [engineStep, hr]⟩

theorem step_no_event (h : s.events = []) : step s = engineStep s := by
  simp [step, machineStep, h]

theorem step_event (e : Event) (rest : List Event) (h : s.events = e :: rest) :
    step s = eventStep e { s with events := rest } := by
  simp [step, machineStep, h]

/-- On the engine's turn, listed or not, the step is the engine's. -/
theorem step_engineTurnAt {u : State} (h : EngineTurnAt s u) : step s = engineStep u := by
  rcases h with ⟨he, rfl⟩ | ⟨rest, he, rfl⟩
  · exact step_no_event u he
  · exact step_event s _ rest he

/-- Taking the engine's turn off the list changes nothing that the engine's step looks at. -/
theorem EngineTurnAt.fields {s u : State} (h : EngineTurnAt s u) :
    u.runState = s.runState ∧ u.stopReq = s.stopReq ∧ u.pc = s.pc ∧ u.params = s.params ∧ u.imem = s.imem := by
  rcases h with ⟨_, rfl⟩ | ⟨_, _, rfl⟩ <;> exact ⟨rfl, rfl, rfl, rfl, rfl⟩

end Sys2Proof.Machine
end

