-- ==== Sys2Proof/Laws/PerInstr.lean ====
section
/-! SUPPORT. Statements about every instruction as syntax, one lemma per constructor. -/

namespace Sys2Proof.Laws

open Sys2Proof

/-- The encoder obeys the opcode map and the must-be-zero masks: the word of an instruction is legal (R103, R104,
R105), whatever its operands. -/
def EncodingLegal.Statement (i : Instr) : Prop := wordLegal (encode i) = true

/-! ## One lemma per format -/

theorem legal_r3 (op : Nat) (a b c : Reg) (hop : op < 64) (hf : formatOf op = some .r3) :
    wordLegal (wordOf op a b c 0) = true := by
  have hw := wordOf_r3 op a b c hop
  have hm : ∀ i, i < 26 → Format.r3.mask.getLsbD i = true → i < 14 := by decide
  have ho : (wordOf op a b c 0).toNat / 2 ^ 26 = op := by rw [hw]; omega
  refine wordLegal_of _ .r3 (by rw [ho, hf]) fun i hi hb => ?_
  · exact testBit_of_field_zero _ 0 14 i (by rw [hw]; omega) (by omega) (by have := hm i hi hb; omega)

theorem legal_r2 (op : Nat) (a b : Reg) (hop : op < 64) (hf : formatOf op = some .r2) :
    wordLegal (wordOf op a b 0 0) = true := by
  have hw := wordOf_imm op a b 0 hop
  have hm : ∀ i, i < 26 → Format.r2.mask.getLsbD i = true → i < 18 := by decide
  have ho : (wordOf op a b 0 0).toNat / 2 ^ 26 = op := by rw [hw]; omega
  refine wordLegal_of _ .r2 (by rw [ho, hf]) fun i hi hb => ?_
  · exact testBit_of_field_zero _ 0 18 i (by rw [hw]; omega) (by omega) (by have := hm i hi hb; omega)

theorem legal_i (op : Nat) (a b : Reg) (imm : Nat) (hop : op < 64)
    (hf : formatOf op = some .i ∨ formatOf op = some .s) : wordLegal (wordOf op a b 0 imm) = true := by
  have hw := wordOf_imm op a b imm hop
  have hm : ∀ i, i < 26 → Format.i.mask.getLsbD i = true → 16 ≤ i ∧ i < 18 := by decide
  have hz : ∀ i, i < 26 → Format.i.mask.getLsbD i = true → (wordOf op a b 0 imm).toNat.testBit i = false :=
    fun i hi hb => testBit_of_field_zero _ 16 2 i (by rw [hw]; omega) (hm i hi hb).1 (hm i hi hb).2
  have ho : (wordOf op a b 0 imm).toNat / 2 ^ 26 = op := by rw [hw]; omega
  rcases hf with hf | hf
  · exact wordLegal_of _ .i (by rw [ho, hf]) hz
  · exact wordLegal_of _ .s (by rw [ho, hf]) hz

theorem legal_u (op : Nat) (a : Reg) (imm : Nat) (hop : op < 64) (hf : formatOf op = some .u) :
    wordLegal (wordOf op a 0 0 imm) = true := by
  have hw := wordOf_imm op a 0 imm hop
  simp only [Fin.val_zero] at hw
  have hm : ∀ i, i < 26 → Format.u.mask.getLsbD i = true → 16 ≤ i ∧ i < 22 := by decide
  have ho : (wordOf op a 0 0 imm).toNat / 2 ^ 26 = op := by rw [hw]; omega
  refine wordLegal_of _ .u (by rw [ho, hf]) fun i hi hb => ?_
  · exact testBit_of_field_zero _ 16 6 i (by rw [hw]; omega) (hm i hi hb).1 (hm i hi hb).2

theorem legal_b (op : Nat) (b : Reg) (imm : Nat) (hop : op < 64) (hf : formatOf op = some .b) :
    wordLegal (wordOf op 0 b 0 imm) = true := by
  have hw := wordOf_imm op 0 b imm hop
  have hb' := b.isLt
  simp only [Fin.val_zero] at hw
  have hm : ∀ i, i < 26 → Format.b.mask.getLsbD i = true → (16 ≤ i ∧ i < 18) ∨ (22 ≤ i ∧ i < 26) := by decide
  have ho : (wordOf op 0 b 0 imm).toNat / 2 ^ 26 = op := by rw [hw]; omega
  refine wordLegal_of _ .b (by rw [ho, hf]) fun i hi hb => ?_
  · rcases hm i hi hb with h | h
    · exact testBit_of_field_zero _ 16 2 i (by rw [hw]; omega) h.1 h.2
    · exact testBit_of_field_zero _ 22 4 i (by rw [hw]; omega) h.1 h.2

theorem legal_j (op : Nat) (imm : Nat) (hop : op < 64) (hf : formatOf op = some .j) :
    wordLegal (wordOf op 0 0 0 imm) = true := by
  have hw := wordOf_imm op 0 0 imm hop
  simp only [Fin.val_zero] at hw
  have hm : ∀ i, i < 26 → Format.j.mask.getLsbD i = true → 16 ≤ i ∧ i < 26 := by decide
  have ho : (wordOf op 0 0 0 imm).toNat / 2 ^ 26 = op := by rw [hw]; omega
  refine wordLegal_of _ .j (by rw [ho, hf]) fun i hi hb => ?_
  · exact testBit_of_field_zero _ 16 10 i (by rw [hw]; omega) (hm i hi hb).1 (hm i hi hb).2

/-! ## One lemma per constructor -/

theorem EncodingLegal.nop : EncodingLegal.Statement .nop := by
  unfold EncodingLegal.Statement; decide
theorem EncodingLegal.halt : EncodingLegal.Statement .halt := by
  unfold EncodingLegal.Statement; decide
theorem EncodingLegal.jmp (off : Int) :
    EncodingLegal.Statement (.jmp off) :=
  legal_j _ _ (by decide) (by decide)
theorem EncodingLegal.bz (rs1 : Reg) (off : Int) :
    EncodingLegal.Statement (.bz rs1 off) :=
  legal_b _ rs1 _ (by decide) (by decide)
theorem EncodingLegal.bnz (rs1 : Reg) (off : Int) :
    EncodingLegal.Statement (.bnz rs1 off) :=
  legal_b _ rs1 _ (by decide) (by decide)
theorem EncodingLegal.new (rd : Reg) (imm : Nat) :
    EncodingLegal.Statement (.new rd imm) :=
  legal_u _ rd imm (by decide) (by decide)
theorem EncodingLegal.seti (rd : Reg) (imm : Nat) :
    EncodingLegal.Statement (.seti rd imm) :=
  legal_u _ rd imm (by decide) (by decide)
theorem EncodingLegal.cpy (rd : Reg) (rs1 : Reg) :
    EncodingLegal.Statement (.cpy rd rs1) :=
  legal_r2 _ rd rs1 (by decide) (by decide)
theorem EncodingLegal.mov (rd : Reg) (rs1 : Reg) :
    EncodingLegal.Statement (.mov rd rs1) :=
  legal_r2 _ rd rs1 (by decide) (by decide)
theorem EncodingLegal.maxv (rd : Reg) (rs1 : Reg) :
    EncodingLegal.Statement (.maxv rd rs1) :=
  legal_r2 _ rd rs1 (by decide) (by decide)
theorem EncodingLegal.add (rd : Reg) (rs1 : Reg) (rs2 : Reg) :
    EncodingLegal.Statement (.add rd rs1 rs2) :=
  legal_r3 _ rd rs1 rs2 (by decide) (by decide)
theorem EncodingLegal.sub (rd : Reg) (rs1 : Reg) (rs2 : Reg) :
    EncodingLegal.Statement (.sub rd rs1 rs2) :=
  legal_r3 _ rd rs1 rs2 (by decide) (by decide)
theorem EncodingLegal.mul (rd : Reg) (rs1 : Reg) (rs2 : Reg) :
    EncodingLegal.Statement (.mul rd rs1 rs2) :=
  legal_r3 _ rd rs1 rs2 (by decide) (by decide)
theorem EncodingLegal.div (rd : Reg) (rs1 : Reg) (rs2 : Reg) :
    EncodingLegal.Statement (.div rd rs1 rs2) :=
  legal_r3 _ rd rs1 rs2 (by decide) (by decide)
theorem EncodingLegal.rem (rd : Reg) (rs1 : Reg) (rs2 : Reg) :
    EncodingLegal.Statement (.rem rd rs1 rs2) :=
  legal_r3 _ rd rs1 rs2 (by decide) (by decide)
theorem EncodingLegal.neg (rd : Reg) (rs1 : Reg) :
    EncodingLegal.Statement (.neg rd rs1) :=
  legal_r2 _ rd rs1 (by decide) (by decide)
theorem EncodingLegal.inc (rd : Reg) (rs1 : Reg) :
    EncodingLegal.Statement (.inc rd rs1) :=
  legal_r2 _ rd rs1 (by decide) (by decide)
theorem EncodingLegal.dec (rd : Reg) (rs1 : Reg) :
    EncodingLegal.Statement (.dec rd rs1) :=
  legal_r2 _ rd rs1 (by decide) (by decide)
theorem EncodingLegal.and (rd : Reg) (rs1 : Reg) (rs2 : Reg) :
    EncodingLegal.Statement (.and rd rs1 rs2) :=
  legal_r3 _ rd rs1 rs2 (by decide) (by decide)
theorem EncodingLegal.or (rd : Reg) (rs1 : Reg) (rs2 : Reg) :
    EncodingLegal.Statement (.or rd rs1 rs2) :=
  legal_r3 _ rd rs1 rs2 (by decide) (by decide)
theorem EncodingLegal.xor (rd : Reg) (rs1 : Reg) (rs2 : Reg) :
    EncodingLegal.Statement (.xor rd rs1 rs2) :=
  legal_r3 _ rd rs1 rs2 (by decide) (by decide)
theorem EncodingLegal.not (rd : Reg) (rs1 : Reg) :
    EncodingLegal.Statement (.not rd rs1) :=
  legal_r2 _ rd rs1 (by decide) (by decide)
theorem EncodingLegal.shl (rd : Reg) (rs1 : Reg) (rs2 : Reg) :
    EncodingLegal.Statement (.shl rd rs1 rs2) :=
  legal_r3 _ rd rs1 rs2 (by decide) (by decide)
theorem EncodingLegal.shr (rd : Reg) (rs1 : Reg) (rs2 : Reg) :
    EncodingLegal.Statement (.shr rd rs1 rs2) :=
  legal_r3 _ rd rs1 rs2 (by decide) (by decide)
theorem EncodingLegal.shli (rd : Reg) (rs1 : Reg) (imm : Nat) :
    EncodingLegal.Statement (.shli rd rs1 imm) :=
  legal_i _ rd rs1 imm (by decide) (by decide)
theorem EncodingLegal.shri (rd : Reg) (rs1 : Reg) (imm : Nat) :
    EncodingLegal.Statement (.shri rd rs1 imm) :=
  legal_i _ rd rs1 imm (by decide) (by decide)
theorem EncodingLegal.ceq (rd : Reg) (rs1 : Reg) (rs2 : Reg) :
    EncodingLegal.Statement (.ceq rd rs1 rs2) :=
  legal_r3 _ rd rs1 rs2 (by decide) (by decide)
theorem EncodingLegal.cne (rd : Reg) (rs1 : Reg) (rs2 : Reg) :
    EncodingLegal.Statement (.cne rd rs1 rs2) :=
  legal_r3 _ rd rs1 rs2 (by decide) (by decide)
theorem EncodingLegal.clt (rd : Reg) (rs1 : Reg) (rs2 : Reg) :
    EncodingLegal.Statement (.clt rd rs1 rs2) :=
  legal_r3 _ rd rs1 rs2 (by decide) (by decide)
theorem EncodingLegal.cgt (rd : Reg) (rs1 : Reg) (rs2 : Reg) :
    EncodingLegal.Statement (.cgt rd rs1 rs2) :=
  legal_r3 _ rd rs1 rs2 (by decide) (by decide)
theorem EncodingLegal.cle (rd : Reg) (rs1 : Reg) (rs2 : Reg) :
    EncodingLegal.Statement (.cle rd rs1 rs2) :=
  legal_r3 _ rd rs1 rs2 (by decide) (by decide)
theorem EncodingLegal.cge (rd : Reg) (rs1 : Reg) (rs2 : Reg) :
    EncodingLegal.Statement (.cge rd rs1 rs2) :=
  legal_r3 _ rd rs1 rs2 (by decide) (by decide)
theorem EncodingLegal.bext (rd : Reg) (rs1 : Reg) (rs2 : Reg) :
    EncodingLegal.Statement (.bext rd rs1 rs2) :=
  legal_r3 _ rd rs1 rs2 (by decide) (by decide)
theorem EncodingLegal.bins (rd : Reg) (rs1 : Reg) (rs2 : Reg) :
    EncodingLegal.Statement (.bins rd rs1 rs2) :=
  legal_r3 _ rd rs1 rs2 (by decide) (by decide)
theorem EncodingLegal.bexti (rd : Reg) (rs1 : Reg) (imm : Nat) :
    EncodingLegal.Statement (.bexti rd rs1 imm) :=
  legal_i _ rd rs1 imm (by decide) (by decide)
theorem EncodingLegal.binsi (rd : Reg) (rs1 : Reg) (imm : Nat) :
    EncodingLegal.Statement (.binsi rd rs1 imm) :=
  legal_i _ rd rs1 imm (by decide) (by decide)
theorem EncodingLegal.bgetm (rd : Reg) (rs1 : Reg) (imm : Nat) :
    EncodingLegal.Statement (.bgetm rd rs1 imm) :=
  legal_i _ rd rs1 imm (by decide) (by decide)
theorem EncodingLegal.bputm (rt : Reg) (rs1 : Reg) (imm : Nat) :
    EncodingLegal.Statement (.bputm rt rs1 imm) :=
  legal_i _ rt rs1 imm (by decide) (by decide)
theorem EncodingLegal.ld (rd : Reg) (rs1 : Reg) (imm : Nat) :
    EncodingLegal.Statement (.ld rd rs1 imm) :=
  legal_i _ rd rs1 imm (by decide) (by decide)
theorem EncodingLegal.st (rt : Reg) (rs1 : Reg) (imm : Nat) :
    EncodingLegal.Statement (.st rt rs1 imm) :=
  legal_i _ rt rs1 imm (by decide) (by decide)

end Sys2Proof.Laws
end

