-- ==== Sys2Proof/Tests/Slice0.lean ====
section
/-! SUPPORT. Tests: every constructor's decoding from a word of the spec's encoding, the refusals of WellFormed, one
step of each instruction on vectors of `spec/95_test_vectors.md`, host and reset vectors, the assembler, and for each
statement with hypotheses a state and operands that meet them, clause by clause. -/

namespace Sys2Proof.Tests.Slice0

open Sys2Proof Sys2Proof.Machine

set_option maxRecDepth 20000

/-! ## Helpers -/

/-- A state with the given registers `(r, len, val)` and DMEM bytes, the engine about to run `w` at `pc`. -/
def ready (w : Nat) (regs : List (Reg × Nat × Nat)) (dm : List Host.Cell := []) (pc : PcWord := 0#16) : State :=
  let s : State := { State.reset with dmem := dm, pc := pc }
  (regs.foldl (fun t e => t.setX e.1 { len := e.2.1, val := e.2.2 }) s).withFetchWord 32 w

/-- The state after one step. -/
def after (s : State) : State :=
  match step s with
  | .next t => t
  | .fault _ => State.reset
  | .refused _ => State.reset

/-- One step completes, `rd` holds `(len, val)`, and OVF and TRUNC are as given. -/
def gives (s : State) (rd : Reg) (len val : Nat) (ovf : Bool := false) (trunc : Bool := false) : Bool :=
  let t := after s
  decide (t.getX rd = { len := len, val := val }) && decide (t.pc = s.pc + 1#16) && (t.ovf == ovf) &&
    (t.trunc == trunc) && decide (t.runState = .running)

/-- One step is fault entry with the given cause and info. -/
def faults (s : State) (cause info : Nat) : Bool :=
  let t := after s
  decide (t.runState = .faulted) && decide (t.cause.toNat = cause) && decide (t.faultInfo.toNat = info) &&
    decide (t.faultInsn = s.imemWord s.pc.toNat) && decide (t.faultPc = s.pc) && decide (t.pc = s.pc) && t.irqPend

/-- A sequence of host writes. -/
def hostWrites (ws : List (HostAddr × Word)) (s : State) : State := ws.foldl (fun t e => t.hostWrite e.1 e.2) s

/-- `n` steps. -/
def steps : Nat → State → State
  | 0, s => s
  | n + 1, s => steps n (after s)

/-! ## Decoding: every instruction, a word written out in the spec (its Example line) -/

/-- Words of bit access, R144 to R151. -/
theorem test_decode_bit_access :
    decode 0xA0C48000#32 = .ok (.bext 3 1 2) ∧
    decode 0xA8C40008#32 = .ok (.bexti 3 1 8) ∧
    decode 0xA448C000#32 = .ok (.bins 1 2 3) ∧
    decode 0xAC48000F#32 = .ok (.binsi 1 2 15) ∧
    decode 0xB1040003#32 = .ok (.bgetm 4 1 3) ∧
    decode 0xB4840003#32 = .ok (.bputm 2 1 3) := by decide

/-- Words of construction and assignment, R172 to R180. -/
theorem test_decode_construct :
    decode 0x20400004#32 = .ok (.new 1 4) ∧
    decode 0x244003E8#32 = .ok (.seti 1 1000) ∧
    decode 0x28840000#32 = .ok (.cpy 2 1) ∧
    decode 0x2C840000#32 = .ok (.mov 2 1) ∧
    decode 0x30C40000#32 = .ok (.maxv 3 1) := by decide

/-- Words of arithmetic, R202 to R226. -/
theorem test_decode_arithmetic :
    decode 0x40C48000#32 = .ok (.add 3 1 2) ∧
    decode 0x44C48000#32 = .ok (.sub 3 1 2) ∧
    decode 0x48C48000#32 = .ok (.mul 3 1 2) ∧
    decode 0x4CC48000#32 = .ok (.div 3 1 2) ∧
    decode 0x51048000#32 = .ok (.rem 4 1 2) ∧
    decode 0x54840000#32 = .ok (.neg 2 1) ∧
    decode 0x58440000#32 = .ok (.inc 1 1) ∧
    decode 0x5C440000#32 = .ok (.dec 1 1) := by decide

/-- Words of comparison, R252 to R259. -/
theorem test_decode_compare :
    decode 0x80C48000#32 = .ok (.ceq 3 1 2) ∧
    decode 0x84C48000#32 = .ok (.cne 3 1 2) ∧
    decode 0x88C48000#32 = .ok (.clt 3 1 2) ∧
    decode 0x8CC48000#32 = .ok (.cgt 3 1 2) ∧
    decode 0x90C48000#32 = .ok (.cle 3 1 2) ∧
    decode 0x94C48000#32 = .ok (.cge 3 1 2) := by decide

/-- Words of bitwise and shift, R280 to R291. -/
theorem test_decode_bitwise_shift :
    decode 0x60C48000#32 = .ok (.and 3 1 2) ∧
    decode 0x64C48000#32 = .ok (.or 3 1 2) ∧
    decode 0x68C48000#32 = .ok (.xor 3 1 2) ∧
    decode 0x6C840000#32 = .ok (.not 2 1) ∧
    decode 0x70C48000#32 = .ok (.shl 3 1 2) ∧
    decode 0x74C48000#32 = .ok (.shr 3 1 2) ∧
    decode 0x78840009#32 = .ok (.shli 2 1 9) ∧
    decode 0x7C840004#32 = .ok (.shri 2 1 4) := by decide

/-- Words of load and store, R310, R311. -/
theorem test_decode_load_store :
    decode 0xC0840010#32 = .ok (.ld 2 1 16) ∧
    decode 0xC4840010#32 = .ok (.st 2 1 16) := by decide

/-- Words of control, R330 to R334. -/
theorem test_decode_control :
    decode 0x04000000#32 = .ok (.nop) ∧
    decode 0x08000000#32 = .ok (.halt) ∧
    decode 0x0C00FFFF#32 = .ok (.jmp (-1)) ∧
    decode 0x10040003#32 = .ok (.bz 1 3) ∧
    decode 0x1404FFFE#32 = .ok (.bnz 1 (-2)) := by decide

/-- Words written out bit by bit from R102 and R103: op, A, B, C or imm16. -/
theorem test_decode_fields :
    decode (0b110000_1111_0001_00_1000000000000001#32) = .ok (.ld 15 1 0x8001) ∧
    decode (0b000100_0000_1111_00_1000000000000000#32) = .ok (.bz 15 (-32768)) ∧
    decode (0b000011_0000000000_0111111111111111#32) = .ok (.jmp 32767) ∧
    decode (0b010001_1010_0101_1100_00000000000000#32) = .ok (.sub 10 5 12) ∧
    decode (0b001000_1001_000000_1111111111111111#32) = .ok (.new 9 65535) := by decide

/-- Illegal words (95_test_vectors.md section 3; R105, R106): reserved opcodes, and one word of each format with a
must-be-zero bit set. -/
theorem test_decode_illegal :
    decode 0x00000000#32 = .error .reservedOpcode ∧ decode 0x18000000#32 = .error .reservedOpcode ∧
    decode 0x98C48000#32 = .error .reservedOpcode ∧ decode 0xFC000000#32 = .error .reservedOpcode ∧
    decode 0x04000001#32 = .error .mustBeZero ∧ decode 0x40C48001#32 = .error .mustBeZero ∧
    decode 0x54844000#32 = .error .mustBeZero ∧ decode 0x78850009#32 = .error .mustBeZero ∧
    decode 0x20440004#32 = .error .mustBeZero ∧ decode 0x10440003#32 = .error .mustBeZero ∧
    decode 0x0C010000#32 = .error .mustBeZero ∧ decode 0xC4850010#32 = .error .mustBeZero := by decide

/-- Every reserved opcode of R106. -/
theorem test_decode_reserved :
    ([0x00, 0x06, 0x07, 0x0D, 0x0E, 0x0F, 0x26, 0x27, 0x2E, 0x2F] ++ (List.range 14).map (0x32 + ·)).all
      (fun op =>
        decide (decode (BitVec.ofNat 32 (op * 2 ^ 26)) = (.error .reservedOpcode : Except IllegalWord Instr))) = true := by
  decide

/-- The host's two questions on one word. -/
theorem test_table_word :
    decodeTableWord 32 0x40C48000 = some (.add 3 1 2) ∧ decodeTableWord 32 0 = none := by decide

/-- The step right after reset runs the word that stands where it fetches. -/
theorem test_with_fetch_word :
    step (State.reset.withFetchWord 32 0x20400004) = exec (.new 1 4) (State.reset.withFetchWord 32 0x20400004) := by
  rfl

/-! ## WellFormed: what each check refuses -/

theorem test_wf_imm : immOk 65535 = true ∧ immOk 65536 = false := by decide
theorem test_wf_off : offOk (-32768) = true ∧ offOk (-32769) = false ∧ offOk 32767 = true ∧ offOk 32768 = false := by
  decide

/-- Every constructor with an immediate or an offset refuses one that its field cannot hold. -/
theorem test_wf_instr :
    ([.jmp 32768, .bz 1 (-32769), .bnz 1 32768, .new 1 65536, .seti 1 65536, .shli 1 2 65536, .shri 1 2 65536,
      .bexti 1 2 65536, .binsi 1 2 65536, .bgetm 1 2 65536, .bputm 1 2 65536, .ld 1 2 65536,
      .st 1 2 65536] : List Instr).all (fun i => !i.wf) = true := by decide

/-- R110: POSTINC and POSTDEC need rt != rd, DIVREM needs rq not in (ra, rb); operands must fit. -/
theorem test_wf_pseudo :
    ([.postinc 3 3, .postdec 3 3, .divrem 1 2 1 4, .divrem 4 2 1 4, .li 1 65536 0, .li 1 0 65536, .b 32768,
      .bcmp .lt 1 2 3 (-32769)] : List Pseudo).all (fun p => !p.wf) = true ∧
    (Pseudo.divrem 1 2 2 4).wf = true := by decide

/-- The word check refuses what section 3 of 95_test_vectors.md lists. -/
theorem test_wf_word :
    ([0x00000000, 0x04000001, 0x40C48001, 0x54844000, 0x78850009, 0x20440004, 0x10440003, 0x0C010000, 0x18000000,
      0x98C48000, 0xFC000000, 0xC4850010] : List Word).all (fun w => !wordLegal w) = true ∧
    wordLegal 0x40C48000#32 = true := by decide

/-! ## One step of each instruction: vectors of `spec/95_test_vectors.md` and Example lines of the rules -/

/-- R144 example. -/
theorem test_bext :
    gives (ready 0xA0C48000 [(1, 2, 0x100), (2, 1, 8)]) 3 1 1 = true := by decide

/-- The index 2^40 saturates in FAULT_INFO (R60). -/
theorem test_bext_huge_index : faults (ready 0xA0C48000 [(1, 2, 0xFFFF), (2, 8, 0x10000000000)]) 4 0xFFFFFFFF = true := by decide

/-- R145: the top bit is in bounds. -/
theorem test_bexti_top_bit :
    gives (ready 0xA8C4000F [(1, 2, 0x8000)]) 3 1 1 = true := by decide

/-- R145: i = 8 x len faults. -/
theorem test_bexti_beyond : faults (ready 0xA8C40010 [(1, 2, 0x8000)]) 4 16 = true := by decide

/-- R146: bit 0 of rs1 is inserted, here 0. -/
theorem test_bins :
    gives (ready 0xA448C000 [(1, 2, 0xFFFF), (2, 1, 2), (3, 1, 0)]) 1 2 0xFFFE = true := by decide

/-- R146: always out of bounds for rd = x0. -/
theorem test_bins_x0 : faults (ready 0xA408C000 [(2, 1, 1), (3, 1, 0)]) 4 0 = true := by decide

/-- R147 with rs1 = rd. -/
theorem test_binsi :
    gives (ready 0xAC440008 [(1, 3, 5)]) 1 3 261 = true := by decide

/-- R147: i = 8 x len faults. -/
theorem test_binsi_beyond : faults (ready 0xAC480010 [(1, 2, 0), (2, 1, 1)]) 4 16 = true := by decide

/-- R150 at the last byte of DMEM. -/
theorem test_bgetm_last_byte :
    gives (ready 0xB1040007 [(1, 2, 32760)] [(4095, 0x80#8)]) 4 1 1 = true := by decide

/-- R150 one bit beyond DMEM. -/
theorem test_bgetm_beyond : faults (ready 0xB1040000 [(1, 2, 32768)]) 5 32768 = true := by decide

/-- R151 example: DMEM[0] = 0xFF, bit 3 cleared. -/
theorem test_bputm : (after (ready 0xB4840003 [(2, 1, 0)] [(0, 0xFF#8)])).dmem = [(0, 0xF7#8)] := by decide

/-- R151: 65535 + 65535 is not reduced modulo 2^16. -/
theorem test_bputm_beyond : faults (ready 0xB484FFFF [(1, 2, 0xFFFF), (2, 1, 1)]) 5 131070 = true := by decide

/-- R172 at MAXL. -/
theorem test_new :
    gives (ready 0x20400040 [(1, 2, 0xFFFF)]) 1 64 0 = true := by decide

/-- R172: NEW x0 still checks the bound. -/
theorem test_new_x0_bad_width : faults (ready 0x20000041 []) 6 0 = true := by decide

/-- R178 example. -/
theorem test_seti_truncates :
    gives (ready 0x24401234 [(1, 1, 0)]) 1 1 0x34 false true = true := by decide

/-- R178: the limbs above limb 1 become 0. -/
theorem test_seti_zeroes_high :
    gives (ready 0x2440ABCD [(1, 8, 0x1000000000000000)]) 1 8 0xABCD = true := by decide

/-- R174 example: CPY shrinks. -/
theorem test_cpy :
    gives (ready 0x28840000 [(1, 4, 0x2A), (2, 8, 5)]) 2 4 0x2A = true := by decide

/-- R176 example. -/
theorem test_mov_never_shrinks :
    gives (ready 0x2C840000 [(2, 4, 0xDEADBEEF), (1, 1, 0x2A)]) 2 4 0x2A = true := by decide

/-- R176 example. -/
theorem test_mov_grows :
    gives (ready 0x2C840000 [(2, 1, 7), (1, 4, 0x12345678)]) 2 4 0x12345678 = true := by decide

/-- R180 example. -/
theorem test_maxv :
    gives (ready 0x30C40000 [(1, 3, 5)]) 3 3 0xFFFFFF = true := by decide

/-- R202 example. -/
theorem test_add_wraps :
    gives (ready 0x40C48000 [(1, 1, 0xFF), (2, 1, 1)]) 3 1 0 true = true := by decide

/-- R202: a shorter operand is zero-extended. -/
theorem test_add_wider :
    gives (ready 0x40C48000 [(1, 1, 0xFF), (2, 2, 1)]) 3 2 0x100 = true := by decide

/-- R206: 0 - 1000 at width 4. -/
theorem test_sub_wraps :
    gives (ready 0x44C48000 [(1, 4, 0), (2, 4, 1000)]) 3 4 4294966296 = true := by decide

/-- R206: mixed lengths wrap at the wider. -/
theorem test_sub_wraps_wider :
    gives (ready 0x44C48000 [(1, 1, 5), (2, 2, 0x100)]) 3 2 0xFF05 = true := by decide

/-- R210 example. -/
theorem test_neg :
    gives (ready 0x54840000 [(1, 4, 1)]) 2 4 0xFFFFFFFF = true := by decide

/-- R210: -0 is 0. -/
theorem test_neg_zero :
    gives (ready 0x54840000 [(1, 4, 0)]) 2 4 0 = true := by decide

/-- R212 example. -/
theorem test_mul_wraps :
    gives (ready 0x48C48000 [(1, 1, 200), (2, 1, 2)]) 3 1 144 true = true := by decide

/-- R212 example. -/
theorem test_mul_wider :
    gives (ready 0x48C48000 [(1, 2, 300), (2, 1, 200)]) 3 2 60000 = true := by decide

/-- R218 example. -/
theorem test_div :
    gives (ready 0x4CC48000 [(1, 4, 1000), (2, 1, 7)]) 3 4 142 = true := by decide

/-- R218: x0 as the divisor. -/
theorem test_div_by_x0 : faults (ready 0x4CC40000 [(1, 4, 1000)]) 3 0 = true := by decide

/-- R220 example. -/
theorem test_rem :
    gives (ready 0x51048000 [(1, 4, 1000), (2, 1, 7)]) 4 4 6 = true := by decide

/-- R220: x0 as the divisor. -/
theorem test_rem_by_x0 : faults (ready 0x51040000 [(1, 4, 1000)]) 3 0 = true := by decide

/-- R224: the maximum wraps and sets OVF. -/
theorem test_inc_wraps :
    gives (ready 0x58440000 [(1, 1, 0xFF)]) 1 1 0 true = true := by decide

/-- R224: L = 0 gives (0, 0) and sets OVF. -/
theorem test_inc_length_zero :
    gives (ready 0x58440000 []) 1 0 0 true = true := by decide

/-- R226 example. -/
theorem test_dec_wraps :
    gives (ready 0x5C440000 [(1, 2, 0)]) 1 2 0xFFFF = true := by decide

/-- R226: a borrow between limbs. -/
theorem test_dec :
    gives (ready 0x5C440000 [(1, 2, 0x100)]) 1 2 0xFF = true := by decide

/-- (1, 255) against (4, 255): equal whatever the lengths. -/
theorem test_ceq_equal :
    gives (ready 0x80C48000 [(1, 1, 255), (2, 4, 255)]) 3 1 1 = true := by decide

/-- (4, 0x100) against (1, 0xFF). -/
theorem test_ceq_greater :
    gives (ready 0x80C48000 [(1, 4, 0x100), (2, 1, 0xFF)]) 3 1 0 = true := by decide

/-- (1, 255) against (4, 255): equal whatever the lengths. -/
theorem test_cne_equal :
    gives (ready 0x84C48000 [(1, 1, 255), (2, 4, 255)]) 3 1 0 = true := by decide

/-- (4, 0x100) against (1, 0xFF). -/
theorem test_cne_greater :
    gives (ready 0x84C48000 [(1, 4, 0x100), (2, 1, 0xFF)]) 3 1 1 = true := by decide

/-- (1, 255) against (4, 255): equal whatever the lengths. -/
theorem test_clt_equal :
    gives (ready 0x88C48000 [(1, 1, 255), (2, 4, 255)]) 3 1 0 = true := by decide

/-- (4, 0x100) against (1, 0xFF). -/
theorem test_clt_greater :
    gives (ready 0x88C48000 [(1, 4, 0x100), (2, 1, 0xFF)]) 3 1 0 = true := by decide

/-- (1, 255) against (4, 255): equal whatever the lengths. -/
theorem test_cgt_equal :
    gives (ready 0x8CC48000 [(1, 1, 255), (2, 4, 255)]) 3 1 0 = true := by decide

/-- (4, 0x100) against (1, 0xFF). -/
theorem test_cgt_greater :
    gives (ready 0x8CC48000 [(1, 4, 0x100), (2, 1, 0xFF)]) 3 1 1 = true := by decide

/-- (1, 255) against (4, 255): equal whatever the lengths. -/
theorem test_cle_equal :
    gives (ready 0x90C48000 [(1, 1, 255), (2, 4, 255)]) 3 1 1 = true := by decide

/-- (4, 0x100) against (1, 0xFF). -/
theorem test_cle_greater :
    gives (ready 0x90C48000 [(1, 4, 0x100), (2, 1, 0xFF)]) 3 1 0 = true := by decide

/-- (1, 255) against (4, 255): equal whatever the lengths. -/
theorem test_cge_equal :
    gives (ready 0x94C48000 [(1, 1, 255), (2, 4, 255)]) 3 1 1 = true := by decide

/-- (4, 0x100) against (1, 0xFF). -/
theorem test_cge_greater :
    gives (ready 0x94C48000 [(1, 4, 0x100), (2, 1, 0xFF)]) 3 1 1 = true := by decide

/-- R280 example. -/
theorem test_and :
    gives (ready 0x60C48000 [(1, 1, 0xF0), (2, 2, 0x0F3C)]) 3 2 0x0030 = true := by decide

/-- R281 example. -/
theorem test_or :
    gives (ready 0x64C48000 [(1, 1, 0xF0), (2, 2, 0x0F3C)]) 3 2 0x0FFC = true := by decide

/-- R282 example. -/
theorem test_xor :
    gives (ready 0x68C48000 [(1, 1, 0xF0), (2, 2, 0x0F3C)]) 3 2 0x0FCC = true := by decide

/-- R283 example. -/
theorem test_not :
    gives (ready 0x6C840000 [(1, 2, 0x00FF)]) 2 2 0xFF00 = true := by decide

/-- R286 example. -/
theorem test_shl_loses_bits :
    gives (ready 0x70C48000 [(1, 3, 98304), (2, 1, 9)]) 3 3 0 = true := by decide

/-- R286: a count of 2^40. -/
theorem test_shl_huge_count :
    gives (ready 0x70C48000 [(1, 2, 0xFFFF), (2, 8, 0x10000000000)]) 3 2 0 = true := by decide

/-- R288 example. -/
theorem test_shr :
    gives (ready 0x74C48000 [(1, 2, 0x8001), (2, 1, 4)]) 3 2 0x0800 = true := by decide

/-- R288: n >= 8L. -/
theorem test_shr_all :
    gives (ready 0x74C48000 [(1, 2, 0x8000), (2, 1, 16)]) 3 2 0 = true := by decide

/-- R290: into the top bit. -/
theorem test_shli_top_bit :
    gives (ready 0x7884001F [(1, 4, 1)]) 2 4 0x80000000 = true := by decide

/-- R290: counts 512..65535 give 0. -/
theorem test_shli_max_count :
    gives (ready 0x7884FFFF [(1, 64, 1)]) 2 64 0 = true := by decide

/-- R291 example. -/
theorem test_shri :
    gives (ready 0x7C840004 [(1, 2, 0x8001)]) 2 2 0x0800 = true := by decide

/-- R291: a count of 0 copies. -/
theorem test_shri_zero :
    gives (ready 0x7C840000 [(1, 2, 0x8001)]) 2 2 0x8001 = true := by decide

/-- R310: rd = rs1, the old value is the base and the old length the count. -/
theorem test_ld :
    gives (ready 0xC0440000 [(1, 2, 8)] [(8, 0xCD#8), (9, 0xAB#8)]) 1 2 0xABCD = true := by decide

/-- R310: three of four bytes would be in bounds. -/
theorem test_ld_beyond : faults (ready 0xC0840FFD [(2, 4, 0)]) 5 4093 = true := by decide

/-- R311 example. -/
theorem test_st : (after (ready 0xC4840010 [(2, 4, 0x12345678)])).dmem =
    [(16, 0x78#8), (17, 0x56#8), (18, 0x34#8), (19, 0x12#8)] := by decide

/-- R311: no byte is written, not even those in bounds. -/
theorem test_st_beyond : faults (ready 0xC4840000 [(1, 2, 4094), (2, 4, 0x12345678)]) 5 4094 = true ∧
    (after (ready 0xC4840000 [(1, 2, 4094), (2, 4, 0x12345678)])).dmem = [] := by decide

/-- R330 example. -/
theorem test_nop : (after (ready 0x04000000 [] [] 5#16)).pc = 6#16 := by decide

/-- R331 example. -/
theorem test_halt : (after (ready 0x08000000 [] [] 7#16)).runState = .halted ∧
    (after (ready 0x08000000 [] [] 7#16)).pc = 8#16 ∧ (after (ready 0x08000000 [] [] 7#16)).irqPend = true := by decide

/-- R332 example, and a target beyond IMEM that is taken (R329). -/
theorem test_jmp : (after (ready 0x0C00FFFF [] [] 4#16)).pc = 3#16 ∧
    (after (ready 0x0C0007D0 [] [] 4#16)).pc = 2004#16 := by decide

/-- R333: taken, and not taken. -/
theorem test_bz : (after (ready 0x10040003 [(1, 1, 0)] [] 10#16)).pc = 13#16 ∧
    (after (ready 0x10040003 [(1, 1, 1)] [] 10#16)).pc = 11#16 := by decide

/-- R333 and R40: BZ x0 always branches, and the target wraps below 0. -/
theorem test_bz_wraps : (after (ready 0x1000FFF5 [] [] 10#16)).pc = 0xFFFF#16 := by decide

/-- R334: taken, and never for x0. -/
theorem test_bnz : (after (ready 0x1404FFFE [(1, 4, 9)] [] 10#16)).pc = 8#16 ∧
    (after (ready 0x1400FFFE [] [] 10#16)).pc = 11#16 := by decide

/-! ## The engine, faults and reset -/

/-- R358: a word that is illegal and would also divide by zero reports ILLEGAL_INSN. -/
theorem test_priority_decode_first : faults (ready 0x4CC40001 [(1, 4, 1000)]) 1 0 = true := by decide

/-- R106: the all-zero word faults, so does a must-be-zero bit. -/
theorem test_illegal_words_fault :
    faults (ready 0x00000000 []) 1 0 = true ∧ faults (ready 0x78850009 []) 1 0 = true := by decide

/-- R352: with IMEM_WORDS = 4 the fetch at pc 10 faults, FAULT_INSN = 0. -/
theorem test_fetch_oob :
    let s : State := { State.reset with
      params := { Config.default with imemWords := 4 }, pc := 10#16, runState := .running, stopReq := false }
    (after s).cause = 2#4 ∧ (after s).faultPc = 10#16 ∧ (after s).faultInsn = 0#32 ∧ (after s).pc = 10#16 ∧
      (after s).runState = .faulted := by decide

/-- H7: the stop step; STATUS = 0x102. -/
theorem test_stop : ((after ((ready 0x0C000000 []).hostWrite 4#18 2#32)).hostRead 8#18) = 0x102#32 := by decide

/-- H1: ID and PARAM0 to PARAM2. -/
theorem test_host_constants :
    State.reset.hostRead 0#18 = 0x4C425631#32 ∧ State.reset.hostRead 0x20#18 = 0x01081040#32 ∧
    State.reset.hostRead 0x24#18 = 1024#32 ∧ State.reset.hostRead 0x28#18 = 4096#32 := by decide

/-- H11 to H14: LEN and DATA words of x1. -/
theorem test_host_register_window :
    let a := hostWrites [(0x1080#18, 4#32), (0x10C0#18, 0x12345678#32)] State.reset
    let b := hostWrites [(0x1080#18, 2#32), (0x10C0#18, 0xAABBCCDD#32), (0x1080#18, 65#32)] a
    a.getX 1 = { len := 4, val := 0x12345678 } ∧ (a.hostWrite 0x1080#18 2#32).hostRead 0x10C0#18 = 0x5678#32 ∧
      b.hostRead 0x10C0#18 = 0xCCDD#32 ∧ b.hostRead 0x1080#18 = 2#32 := by decide

/-- H15: x0 stays (0, 0). -/
theorem test_host_x0 : (State.reset.hostWrite 0x1000#18 4#32).hostRead 0x1000#18 = 0#32 := by decide

/-- H16: the DMEM window, little-endian. -/
theorem test_host_dmem_window :
    (State.reset.hostWrite 0x20000#18 0x04030201#32).dmem = [(0, 1#8), (1, 2#8), (2, 3#8), (3, 4#8)] := by decide

/-- H10: SRESET wins over START in one write; IMEM is kept. -/
theorem test_soft_reset :
    let t := ({ ready 0x0C000000 [(1, 1, 1)] with irqEn := true }).hostWrite 4#18 5#32
    t.runState = .idle ∧ t.irqEn = false ∧ t.imemWord 0 = 0x0C000000#32 ∧ t.getX 1 = { len := 0, val := 0 } := by decide

/-- H17: after a fault START clears CAUSE, keeps the record, and the same instruction faults again. -/
theorem test_restart_after_fault :
    let f := after (ready 0x4CC40000 [(1, 4, 1000)] [] 2#16)
    let r := f.hostWrite 4#18 1#32
    f.cause = 3#4 ∧ r.cause = 0#4 ∧ r.faultInsn = 0x4CC40000#32 ∧ r.runState = .running ∧ (after r).cause = 3#4 := by
  decide

/-- How a program comes to run from State.reset (log 9): two host writes as events, then the engine's step. -/
theorem test_boot_from_reset :
    let s : State := { State.reset with
      events := [.hostWrite 0x10000#18 0x20400004#32, .hostWrite 4#18 1#32, .engineTurn] }
    (steps 3 s).getX 1 = { len := 4, val := 0 } ∧ (steps 3 s).pc = 1#16 := by decide

/-! ## The assembler (R109, R110) -/

/-- A label, lower case, a comment, a hexadecimal immediate and an omitted displacement. -/
theorem test_assemble :
    assemble ["top: new x1, 0x10 ; n".toList, "LD x2, (x1)".toList, "BNZ x2, top".toList] =
      .ok [.new 1 16, .ld 2 1 0, .bnz 2 (-2)] := by decide

/-- R110: LI is NEW and SETI; a compare-and-branch is two words, its offset from the second. -/
theorem test_assemble_pseudo :
    assemble ["LI x1, 4, 7".toList, "BLT x3, x1, x2, +2".toList] =
      .ok [.new 1 4, .seti 1 7, .clt 3 1 2, .bnz 3 2] := by decide

/-- R109, R110: what the assembler rejects. -/
theorem test_assemble_rejects :
    assemble ["NEW x1, 65536".toList] = .error .outOfRange ∧ assemble ["FOO x1".toList] = .error .unknownMnemonic ∧
    assemble ["POSTINC x1, x1".toList] = .error .badPseudo ∧ assemble ["ADD x1, x2".toList] = .error .badOperands ∧
    assemble ["JMP nowhere".toList] = .error .unknownLabel ∧ assemble ["ADD x1, x2, x16".toList] = .error .badOperands := by
  decide

/-! ## Witnesses: for each statement with hypotheses, a state and operands that meet them, clause by clause -/

/-- Two registers with values, OVF set, DMEM and IMEM not empty, an instruction about to run. -/
def busy (w : Nat) : State :=
  { ready w [(1, 2, 0x8001), (2, 1, 4), (3, 16, 2 ^ 100)] [(0, 0xFF#8), (4095, 0x80#8)] with ovf := true }

/-- The same engine, stopped. -/
def stopped (w : Nat) : State := { busy w with runState := .halted }

theorem test_witness_DecodeOfEncode :
    ([.jmp (-32768), .jmp 32767, .bz 15 (-32768), .ld 15 15 65535, .new 0 0, .add 15 0 15] : List Instr).all
      Instr.wf = true := by decide

theorem test_witness_EncodeOfDecode : decode 0xC4FCFFFF#32 = .ok (.st 3 15 65535) := by decide

theorem test_witness_DecoderAcceptsExactlyLegalWords :
    (decode 0xC4FCFFFF#32 = .ok (.st 3 15 65535) ∧ wordLegal 0xC4FCFFFF#32 = true) ∧
    (decode 0xC4FDFFFF#32 = .error .mustBeZero ∧ wordLegal 0xC4FDFFFF#32 = false) := by decide

theorem test_witness_StepRunsTheDecodedInstruction :
    let s := busy 0x40C48000
    s.runState = .running ∧ s.stopReq = false ∧ s.pc.toNat < s.params.imemWords ∧
      decode (s.imemWord s.pc.toNat) = .ok (.add 3 1 2) ∧ s.events = [] ∧
      ({ s with events := [.engineTurn] } : State).events = .engineTurn :: [] := by decide

/-- The engine's turn, not listed and listed before another event. -/
theorem test_witness_EngineTurnAt :
    EngineTurnAt (busy 0) (busy 0) ∧
    EngineTurnAt { busy 0 with events := [.engineTurn, .hostRead 8#18] } { busy 0 with events := [.hostRead 8#18] } :=
  ⟨.inl ⟨rfl, rfl⟩, .inr ⟨_, rfl, rfl⟩⟩

theorem test_witness_FetchAndDecodeFaults :
    let s := { busy 0 with events := [.engineTurn] }
    let out : State := { s with pc := 1024#16 }
    let last : State := ready 0x04000000 [] [] 1023#16
    (EngineTurnAt s (busy 0) ∧ s.runState = .running ∧ s.stopReq = false) ∧
      (EngineTurnAt out { busy 0 with pc := 1024#16 } ∧ out.params.imemWords ≤ out.pc.toNat) ∧
      (s.pc.toNat < s.params.imemWords ∧ wordLegal (s.imemWord s.pc.toNat) = false) ∧
      (EngineTurnAt last last ∧ last.pc.toNat < last.params.imemWords ∧
        wordLegal (last.imemWord last.pc.toNat) = true) :=
  ⟨⟨.inr ⟨_, rfl, rfl⟩, by decide, by decide⟩, ⟨.inr ⟨_, rfl, rfl⟩, by decide⟩, by decide, .inl ⟨rfl, rfl⟩, by decide,
    by decide⟩

theorem test_witness_StopRequestAndStopStep :
    (2#32).getLsbD 1 = true ∧ (2#32).getLsbD 2 = false ∧ (2#32).getLsbD 0 = false ∧ (busy 0).runState = .running ∧
      (stopped 0).runState ≠ .running ∧ ({ busy 0 with stopReq := true }).stopReq = true ∧
      (after { busy 0 with stopReq := true, events := [.engineTurn] }).runState = .halted := by decide

/-- One witness for each of the six causes, with its FAULT_INFO; the last with the engine's turn listed. -/
theorem test_witness_EveryFaultIsFaultEntry :
    ([(1, 0, busy 0), (2, 0, { busy 0 with pc := 1024#16 }), (3, 0, busy 0x4CC40000), (4, 16, busy 0xA8C40010),
      (5, 0x9000, busy 0xC0C40FFF), (6, 0, { busy 0x20400041 with events := [.engineTurn] })] :
        List (Nat × Nat × State)).all
      (fun e => decide (e.2.2.events = [] ∨ e.2.2.events = [.engineTurn]) && decide (e.2.2.runState = .running) &&
        match step e.2.2 with
        | .next t => decide (t.runState = .faulted) && decide (t.cause.toNat = e.1) &&
            decide (t.faultInfo.toNat = e.2.1)
        | .fault _ => false
        | .refused _ => false) = true := by decide

theorem test_witness_EngineStateTransitions :
    (∃ t, step (stopped 0) = .next t ∧ (stopped 0).runState ≠ .running) ∧
    (∃ t, step { stopped 0 with events := [.engineTurn] } = .next t ∧ t = stopped 0) ∧
    (∃ t, step { busy 0 with stopReq := true } = .next t ∧ t.runState = .halted) ∧
    (∃ t, step (busy 0x08000000) = .next t ∧ t.runState = .halted) ∧
    (∃ t, step (busy 0x04000000) = .next t ∧ t.runState = .running) :=
  ⟨⟨_, rfl, by decide⟩, ⟨_, rfl, rfl⟩, ⟨_, rfl, rfl⟩, ⟨_, rfl, rfl⟩, ⟨_, rfl, rfl⟩⟩

theorem test_witness_HostStateTransitions :
    ({ busy 0 with events := [.hostRead 8#18] }).events = .hostRead 8#18 :: [] ∧
    ({ stopped 0 with events := [.hostWrite 4#18 1#32] }).events = .hostWrite 4#18 1#32 :: [] ∧
    ((stopped 0).hostWrite 4#18 1#32).runState = .running ∧ ((busy 0).hostWrite 4#18 4#32).runState = .idle ∧
    ((stopped 0).hostWrite 8#18 1#32).runState = .halted ∧
    ({ busy 0 with events := [.hardwareReset [(0, 7#32)] [(5, 9#8)]] }).events =
      .hardwareReset [(0, 7#32)] [(5, 9#8)] :: [] := by decide

theorem test_witness_HardwareResetValues :
    let s : State := { busy 0 with events := [.hardwareReset [(0, 7#32)] [(5, 9#8)]] }
    s.events = .hardwareReset [(0, 7#32)] [(5, 9#8)] :: [] ∧ (after s).dmem = [(5, 9#8)] ∧
      (after s).imem = [(0, 7#32)] := by decide

theorem test_witness_SoftResetKeepsTheMemories :
    (4#32).getLsbD 2 = true ∧ ((busy 0).hostWrite 4#18 4#32).dmem = [(0, 0xFF#8), (4095, 0x80#8)] := by decide

theorem test_witness_ResetMeetsTheInvariant :
    Config.legal { maxl := 8, imemWords := 1, dmemBytes := 4 } = true ∧
    Config.legal { maxl := 64, imemWords := 16384, dmemBytes := 65536 } = true := by decide

theorem test_witness_StepKeepsTheInvariant :
    (busy 0xC4C40010).Inv ∧ ∃ t, step (busy 0xC4C40010) = .next t := ⟨by decide, _, rfl⟩

theorem test_witness_InstructionFrame :
    (∃ t, exec (.add 3 1 2) (busy 0) = .next t) ∧ destOf (.add 3 1 2) ≠ some 1 ∧ mayStore (.add 3 1 2) = false ∧
    (∃ t, exec (.st 2 1 16) (ready 0 [(2, 1, 5)]) = .next t) ∧ mayStore (.st 2 1 16) = true :=
  ⟨⟨_, rfl⟩, by decide, rfl, ⟨_, rfl⟩, rfl⟩

theorem test_witness_FlagsAreSticky :
    (∃ t, exec (.sub 3 1 2) (busy 0) = .next t) ∧ (busy 0).ovf = true ∧ maySetOvf (.sub 3 1 2) = false ∧
    (∃ t, exec (.seti 2 0xFFFF) { busy 0 with trunc := true } = .next t) ∧ maySetTrunc (.sub 3 1 2) = false :=
  ⟨⟨_, rfl⟩, by decide, rfl, ⟨_, rfl⟩, rfl⟩

theorem test_witness_ResultLengths :
    (busy 0).runState = .running ∧
      (∃ t, exec (.mov 2 1) (busy 0) = .next t ∧ t.runState ≠ .faulted ∧ destOf (.mov 2 1) = some 2) ∧
      (∃ t, exec (.st 2 0 4) (busy 0) = .next t ∧ t.runState ≠ .faulted ∧ destOf (.st 2 0 4) = none) :=
  ⟨by decide, ⟨_, rfl, by decide, rfl⟩, ⟨_, rfl, by decide, rfl⟩⟩

theorem test_witness_HostIsLockedOutWhileRunning :
    (busy 0).runState = .running ∧
    ([0xC#18, 0xF#18, 0x1000#18, 0x17FF#18, 0x10000#18, 0x2FFFF#18] : List HostAddr).all
      (fun a => decide (0xC ≤ a.toNat ∧ a.toNat < 0x10 ∨ 0x1000 ≤ a.toNat ∧ a.toNat < 0x1800 ∨
        0x10000 ≤ a.toNat ∧ a.toNat < 0x30000)) = true := by decide

theorem test_witness_HostAccessesAreWords :
    ([0x2C#18, 0xFFF#18, 0x1800#18, 0xFFFF#18, 0x30000#18, 0x3FFFF#18, 0x1004#18,
        0x17BF#18] : List HostAddr).all
      (fun a => decide (0x2C ≤ a.toNat ∧ a.toNat < 0x1000 ∨ 0x1800 ≤ a.toNat ∧ a.toNat < 0x10000 ∨
        0x30000 ≤ a.toNat ∨
        0x1000 ≤ a.toNat ∧ a.toNat < 0x1800 ∧ 4 ≤ a.toNat % 0x80 ∧ a.toNat % 0x80 < 0x40)) = true ∧
    ({ busy 0 with events := [.hostRead 0x23#18] }).events = .hostRead 0x23#18 :: [] ∧
    (after { busy 0 with events := [.hostRead 0x23#18] }).answer = some 0x01081040#32 := by decide

/-- A length that is accepted and the first that is not. -/
theorem test_witness_RegisterLenWindow :
    (stopped 0).Inv ∧ (stopped 0).runState ≠ .running ∧ (64#32).toNat ≤ (stopped 0).params.maxl ∧
      ¬ (65#32).toNat ≤ (stopped 0).params.maxl ∧ ((stopped 0).hostWrite 0x1080#18 1#32).getX 1 =
        { len := 1, val := 1 } := by decide

/-- Limb 1 of x1 exists, limb 2 does not; word 15 is the last. -/
theorem test_witness_RegisterDataWindow :
    (stopped 0).Inv ∧ (stopped 0).runState ≠ .running ∧ 15 < 16 ∧ (1 : Reg) ≠ 0 ∧
      4 * 0 + 1 < ((stopped 0).getX 1).len ∧ ¬ 4 * 0 + 2 < ((stopped 0).getX 1).len ∧
      ((stopped 0).hostWrite 0x10C0#18 0xAABBCCDD#32).getX 1 = { len := 2, val := 0xCCDD } := by decide

/-- The last word, the first beyond, and the lockout. -/
theorem test_witness_ImemWindow :
    Memory.wf (stopped 0x20400004).imem = true ∧ 1024 < 2 ^ 14 ∧ (stopped 0).runState ≠ .running ∧
      1023 < (stopped 0).params.imemWords ∧ ¬ 1024 < (stopped 0).params.imemWords ∧ (busy 0).runState = .running ∧
      ((stopped 0x20400004).hostWrite 0x10FFC#18 5#32).imem = [(0, 0x20400004#32), (1023, 5#32)] := by decide

theorem test_witness_DmemWindow :
    Memory.wf (stopped 0).dmem = true ∧ 1024 < 2 ^ 14 ∧ (stopped 0).runState ≠ .running ∧
      4 * 1023 < (stopped 0).params.dmemBytes ∧ ¬ 4 * 1024 < (stopped 0).params.dmemBytes ∧
      (busy 0).runState = .running ∧ (stopped 0).hostRead 0x20FFC#18 = 0x80000000#32 := by decide

theorem test_witness_PcRegister :
    (busy 0).runState = .running ∧ (stopped 0).runState ≠ .running ∧
      ((stopped 0).hostWrite 0xC#18 0x12345#32).pc = 0x2345#16 := by decide

/-- A start request, a plain write (H8) and a plain write of 0, to a running and to a stopped engine. -/
theorem test_witness_StartRequest :
    ((0x101#32).getLsbD 0 = true ∧ (0x101#32).getLsbD 1 = false ∧ (0x101#32).getLsbD 2 = false) ∧
    ((0x100#32).getLsbD 0 = false ∧ (0x100#32).getLsbD 1 = false ∧ (0x100#32).getLsbD 2 = false) ∧
    (stopped 0).runState ≠ .running ∧ (busy 0).runState = .running ∧
    ((stopped 0).hostWrite 4#18 0x100#32).hostRead 4#18 = 0x100#32 ∧
    ((busy 0).hostWrite 4#18 0xFFFFFFF8#32).hostRead 4#18 = 0x100#32 ∧
    (((busy 0).hostWrite 4#18 0x100#32).hostWrite 4#18 0#32).irqEn = false := by decide

theorem test_witness_StartAndStopInOneWrite :
    (3#32).getLsbD 0 = true ∧ (3#32).getLsbD 1 = true ∧ (3#32).getLsbD 2 = false ∧
      ((stopped 0).hostWrite 4#18 3#32).stopReq = false ∧ ((busy 0).hostWrite 4#18 3#32).stopReq = true := by decide

/-- IRQ_PEND set by HALT and by a fault; cleared by STATUS, by a soft reset and by a hardware reset. -/
theorem test_witness_InterruptPending :
    let p : State := { busy 0 with irqPend := true }
    (after (busy 0x08000000)).irqPend = true ∧ (after (busy 0)).irqPend = true ∧
    (after { p with events := [.hostWrite 0xB#18 0x100#32] }).irqPend = false ∧
    (after { p with events := [.hostWrite 4#18 4#32] }).irqPend = false ∧
    (after { p with events := [.hardwareReset [] []] }).irqPend = false := by decide

theorem test_witness_ReadOnlyRegisters :
    (busy 0).params.legal = true ∧
    ([0x0#18, 0x3#18, 0x10#18, 0x2B#18] : List HostAddr).all
      (fun a => decide (a.toNat < 4 ∨ 0x10 ≤ a.toNat ∧ a.toNat < 0x2C)) = true := by decide

/-- Carry out and none; borrow and none. -/
theorem test_witness_datapath_operands :
    (255 < 2 ^ (8 * 1) ∧ 1 < 2 ^ (8 * 1) ∧ 2 ^ (8 * 1) ≤ 255 + 1 ∧ ¬ 2 ^ (8 * 1) ≤ 254 + 1) ∧
    rippleCarry (toLimbs 1 255) (toLimbs 1 1) 0 = ([0], 1) ∧
    (1 ≤ 0x10000 ∧ 0x10000 < 2 ^ (8 * 3) ∧ ofLimbs (rippleBorrow (toLimbs 3 0x10000) (toLimbs 3 1)) = 0xFFFF) ∧
    twoCaseSub 2 5 6 = 0xFFFF ∧ shiftAndAddMul 1 200 2 = 144 ∧
    (1000 < 2 ^ (8 * 2) ∧ 2 ≤ 4 ∧ 0 < 7 ∧ restoringDivide 2 1000 7 = (142, 6)) := by decide

theorem test_witness_scans_and_shifts :
    (255 < 2 ^ (8 * 1) ∧ 255 < 2 ^ (8 * 4) ∧ equalScan (toLimbs 1 255) (toLimbs 4 255) = true ∧
      lessScan 3 0x100 2 = true) ∧
    (98304 < 2 ^ (8 * 3) ∧ ofLimbs (repeatStep (shlStep 0) 9 (toLimbs 3 98304)) = 0 ∧
      ofLimbs (repeatStep shrStep 4 (toLimbs 2 0x8001)) = 0x800) ∧
    (0x100 < 2 ^ (8 * 2) ∧ 15 < 8 * 2 ∧ 1 < 2 ∧ bufGetBit (toLimbs 2 0x100) 8 = 1 ∧
      ofLimbs (bufSetBit (toLimbs 2 0x100) 15 1) = 0x8100) := by decide

/-- Immediates at both ends of the field, for every Decodes clause. -/
theorem test_witness_decodes_immediates : 0 < 2 ^ 16 ∧ 65535 < 2 ^ 16 ∧ 2 ^ 15 ≤ 65535 ∧ ¬ 2 ^ 15 ≤ 32767 := by decide

/-- Index 15 of x1 is in bounds, 16 is not, for the register and the immediate form. -/
theorem test_witness_BitExtract_BitInsert :
    let s := ready 0 [(1, 2, 0x8000), (2, 1, 15), (3, 1, 16)]
    ¬ 8 * (s.getX 1).len ≤ (s.getX 2).val ∧ 8 * (s.getX 1).len ≤ (s.getX 3).val ∧
      ¬ 8 * (s.getX 1).len ≤ 15 ∧ 8 * (s.getX 1).len ≤ 16 := by decide

/-- The last bit of DMEM and the first beyond it. -/
theorem test_witness_MemoryBitRead_MemoryBitWrite :
    let s := ready 0 [(1, 2, 32767), (2, 2, 32768)] [(0, 0xFF#8)]
    Memory.wf s.dmem = true ∧ ¬ s.params.dmemBytes ≤ ((s.getX 1).val + 0) / 8 ∧
      s.params.dmemBytes ≤ ((s.getX 2).val + 0) / 8 := by decide

theorem test_witness_NewConstructsZero : ¬ 64 > (busy 0).params.maxl ∧ 65 > (busy 0).params.maxl := by decide

theorem test_witness_SetiAssignsNative :
    let s := busy 0
    ¬ 255 ≥ 2 ^ (8 * (s.getX 2).len) ∧ 256 ≥ 2 ^ (8 * (s.getX 2).len) ∧ ¬ 65535 ≥ 2 ^ (8 * (s.getX 1).len) := by decide

/-- OVF set and not set, a zero and a nonzero divisor, an operand that fits its length and is or is not 0. -/
theorem test_witness_arithmetic_conditions :
    let s := ready 0 [(1, 1, 255), (2, 1, 1), (3, 1, 0)]
    (s.getX 1).val + (s.getX 2).val ≥ 2 ^ (8 * 1) ∧ ¬ (s.getX 1).val + (s.getX 3).val ≥ 2 ^ (8 * 1) ∧
    (s.getX 1).val * (s.getX 1).val ≥ 2 ^ (8 * 1) ∧ ¬ (s.getX 1).val * (s.getX 2).val ≥ 2 ^ (8 * 1) ∧
    (s.getX 3).val = 0 ∧ (s.getX 0).val = 0 ∧ (s.getX 2).val ≠ 0 ∧
    (s.getX 1).val < 2 ^ (8 * (s.getX 1).len) ∧ (s.getX 3).val < 2 ^ (8 * (s.getX 3).len) ∧
    (s.getX 0).val < 2 ^ (8 * (s.getX 0).len) := by decide

/-- A count of exactly 8L, and a count of 0. -/
theorem test_witness_ShiftCountEnds :
    let s := ready 0 [(1, 2, 0x8001), (2, 1, 16)]
    (s.getX 1).val < 2 ^ (8 * (s.getX 1).len) ∧ 8 * (s.getX 1).len ≤ (s.getX 2).val ∧ (s.getX 0).val = 0 := by decide

/-- Four bytes that end at the last byte of DMEM, and four that start one later. -/
theorem test_witness_LoadReadsLittleEndian_StoreWritesLittleEndian :
    let s := ready 0 [(2, 4, 0x12345678)] [(0, 0xFF#8)]
    Memory.wf s.dmem = true ∧ ¬ (s.getX 0).val + 4092 + (s.getX 2).len > s.params.dmemBytes ∧
      (s.getX 0).val + 4093 + (s.getX 2).len > s.params.dmemBytes := by decide

/-- A 2-byte store and then a 4-byte load at the same address. -/
theorem test_witness_StoreThenLoad :
    let s := ready 0 [(2, 2, 0x1234), (3, 4, 0)] [(18, 0xFF#8)]
    Memory.wf s.dmem = true ∧ (3 : Reg) ≠ 0 ∧ (s.getX 0).val + 16 + (s.getX 2).len ≤ s.params.dmemBytes ∧
      (s.getX 0).val + 16 + (s.getX 3).len ≤ s.params.dmemBytes ∧ ∃ t, exec (.st 2 0 16) s = .next t :=
  ⟨by decide, by decide, by decide, by decide, _, rfl⟩

theorem test_witness_NopAndJump_HaltStopsTheEngine :
    ((0x04000001#32).toNat / 2 ^ 26 = 1 ∧ 0x04000001#32 ≠ 0x04000000#32) ∧
    ((0x0A000000#32).toNat / 2 ^ 26 = 2 ∧ 0x0A000000#32 ≠ 0x08000000#32) := by decide

theorem test_witness_BranchOnValue : ((busy 0).getX 0).val = 0 ∧ ((busy 0).getX 1).val ≠ 0 := by decide

end Sys2Proof.Tests.Slice0
end

section
/-! PROOFS. What a host access does, by the location it names (R50, R56, R61 to R64, R380), and which host writes touch
STATE and IRQ_PEND (R48, R54, R55). -/

namespace Sys2Proof.Machine

open Sys2Proof

/-! ## The address map -/

/-- From the register window on, an address is reserved or one the host is locked out of while the engine runs. -/
theorem locate_locked_or_reserved (a : HostAddr) (h : 0x1000 ≤ a.toNat) :
    (locate a).locked = true ∨ locate a = .reserved := by
  by_cases hreg : a.toNat < 0x1800
  · rw [locate_registers a h hreg, registerAt]
    split
    · exact .inl rfl
    · split
      · exact .inr rfl
      · exact .inl rfl
  by_cases hmid : a.toNat < 0x10000
  · exact .inr (locate_reserved_mid a (by omega) hmid)
  by_cases himem : a.toNat < 0x20000
  · rw [locate_imem a ((a.toNat - 0x10000) / 4) (by omega) (by omega)]
    exact .inl rfl
  by_cases hdmem : a.toNat < 0x30000
  · rw [locate_dmem a ((a.toNat - 0x20000) / 4) (by omega) (by omega)]
    exact .inl rfl
  · exact .inr (locate_reserved_high a (by omega))

/-- A control register other than PC is outside the register and memory windows. -/
theorem lt_of_locate_unlocked (a : HostAddr) (hl : (locate a).locked = false) (hr : locate a ≠ .reserved) :
    a.toNat < 0x1000 := by
  by_contra h
  rcases locate_locked_or_reserved a (by omega) with hlocked | hres
  · exact absurd hl (by simp [hlocked])
  · exact hr hres

theorem controlAt_eq_ctrl {i : Nat} (h : controlAt i = .ctrl) : i = 1 := by
  unfold controlAt at h
  split at h
  case h_2 => rfl
  all_goals cases h

theorem controlAt_eq_status {i : Nat} (h : controlAt i = .status) : i = 2 := by
  unfold controlAt at h
  split at h
  case h_3 => rfl
  all_goals cases h

theorem locate_eq_ctrl_iff (a : HostAddr) : locate a = .ctrl ↔ a.toNat / 4 = 1 := by
  refine ⟨fun h => ?_, locate_ctrl a⟩
  have hlow : a.toNat < 0x1000 := lt_of_locate_unlocked a (by rw [h]; rfl) (by rw [h]; decide)
  exact controlAt_eq_ctrl (locate_control a hlow ▸ h)

theorem locate_eq_status_iff (a : HostAddr) : locate a = .status ↔ a.toNat / 4 = 2 := by
  refine ⟨fun h => ?_, locate_status a⟩
  have hlow : a.toNat < 0x1000 := lt_of_locate_unlocked a (by rw [h]; rfl) (by rw [h]; decide)
  exact controlAt_eq_status (locate_control a hlow ▸ h)

/-- The addresses that R50 and R61 reserve are `HostLoc.reserved` (R64). -/
theorem locate_reserved (a : HostAddr)
    (h : 0x2C ≤ a.toNat ∧ a.toNat < 0x1000 ∨ 0x1800 ≤ a.toNat ∧ a.toNat < 0x10000 ∨ 0x30000 ≤ a.toNat ∨
      0x1000 ≤ a.toNat ∧ a.toNat < 0x1800 ∧ 4 ≤ a.toNat % 0x80 ∧ a.toNat % 0x80 < 0x40) :
    locate a = .reserved := by
  rcases h with ⟨hlo, hhi⟩ | ⟨hlo, hhi⟩ | hlo | ⟨hlo, hhi, h4, h40⟩
  · exact locate_reserved_low a hlo hhi
  · exact locate_reserved_mid a hlo hhi
  · exact locate_reserved_high a hlo
  · exact locate_reserved_reg a hlo hhi h4 h40

/-- An address and its aligned word name the same location (R64). -/
theorem locate_aligned (a : HostAddr) : locate (BitVec.ofNat 18 (a.toNat / 4 * 4)) = locate a := by
  apply locate_word
  rw [BitVec.toNat_ofNat, Nat.mod_eq_of_lt (by omega)]
  omega

theorem imemAddr_locate (p : Nat) (hp : p < 2 ^ 14) : locate (BitVec.ofNat 18 (0x10000 + 4 * p)) = .imem p :=
  locate_imem _ p hp (by rw [BitVec.toNat_ofNat]; omega)

theorem dmemAddr_locate (q : Nat) (hq : q < 2 ^ 14) : locate (BitVec.ofNat 18 (0x20000 + 4 * q)) = .dmem q :=
  locate_dmem _ q hq (by rw [BitVec.toNat_ofNat]; omega)

/-! ## Host accesses by location -/

section access

variable {s : State} {a : HostAddr} {l : HostLoc}

/-- The engine's lockout of a location: it is locked, and STATE is RUNNING. -/
theorem State.isRunning_and_locked (s : State) (l : HostLoc) :
    (s.isRunning && l.locked) = true ↔ s.runState = .running ∧ l.locked = true := by
  simp [State.isRunning]

theorem State.hostRead_locked (ha : locate a = l) (hr : s.runState = .running) (hl : l.locked = true) :
    s.hostRead a = 0#32 := by
  rw [State.hostRead, ha, if_pos ((s.isRunning_and_locked l).2 ⟨hr, hl⟩)]

theorem State.hostWrite_locked (w : Word) (ha : locate a = l) (hr : s.runState = .running) (hl : l.locked = true) :
    s.hostWrite a w = s := by
  rw [State.hostWrite, ha, if_pos ((s.isRunning_and_locked l).2 ⟨hr, hl⟩)]

theorem State.hostRead_stopped (ha : locate a = l) (hr : s.runState ≠ .running) : s.hostRead a = s.locRead l := by
  rw [State.hostRead, ha, if_neg fun h => hr ((s.isRunning_and_locked l).1 h).1]

theorem State.hostWrite_stopped (w : Word) (ha : locate a = l) (hr : s.runState ≠ .running) :
    s.hostWrite a w = s.locWrite w l := by
  rw [State.hostWrite, ha, if_neg fun h => hr ((s.isRunning_and_locked l).1 h).1]

theorem State.hostRead_unlocked (ha : locate a = l) (hl : l.locked = false) : s.hostRead a = s.locRead l := by
  rw [State.hostRead, ha, hl, Bool.and_false, if_neg Bool.false_ne_true]

theorem State.hostWrite_unlocked (w : Word) (ha : locate a = l) (hl : l.locked = false) :
    s.hostWrite a w = s.locWrite w l := by
  rw [State.hostWrite, ha, hl, Bool.and_false, if_neg Bool.false_ne_true]

/-- A reserved address is RAZ/WI in every STATE (R64). -/
theorem State.host_reserved (w : Word) (ha : locate a = .reserved) : s.hostRead a = 0#32 ∧ s.hostWrite a w = s :=
  ⟨State.hostRead_unlocked ha rfl, State.hostWrite_unlocked w ha rfl⟩

/-- Every host write is ignored or does what its location says. -/
theorem State.hostWrite_cases (s : State) (a : HostAddr) (w : Word) :
    (s.runState = .running ∧ (locate a).locked = true ∧ s.hostWrite a w = s) ∨
      s.hostWrite a w = s.locWrite w (locate a) := by
  by_cases hr : s.runState = .running
  · cases hl : (locate a).locked with
    | true => exact .inl ⟨hr, rfl, State.hostWrite_locked w rfl hr hl⟩
    | false => exact .inr (State.hostWrite_unlocked w rfl hl)
  · exact .inr (State.hostWrite_stopped w rfl hr)

end access

/-! ## The control registers the host cannot write -/

/-- ID and the words from CAUSE to PARAM2, and the reserved ones after them: never locked, and a write is ignored. -/
theorem controlAt_readOnly (s : State) (w : Word) (i : Nat) (h : i = 0 ∨ 4 ≤ i) :
    (controlAt i).locked = false ∧ s.locWrite w (controlAt i) = s := by
  unfold controlAt
  split
  case h_2 | h_3 | h_4 => omega
  all_goals exact ⟨rfl, rfl⟩

theorem State.hostRead_readOnly (s : State) (a : HostAddr) (ha : a.toNat < 0x1000)
    (h : a.toNat / 4 = 0 ∨ 4 ≤ a.toNat / 4) : s.hostRead a = s.locRead (controlAt (a.toNat / 4)) :=
  State.hostRead_unlocked (locate_control a ha) (controlAt_readOnly s 0#32 _ h).1

theorem State.hostWrite_readOnly (s : State) (a : HostAddr) (w : Word) (ha : a.toNat < 0x1000)
    (h : a.toNat / 4 = 0 ∨ 4 ≤ a.toNat / 4) : s.hostWrite a w = s := by
  obtain ⟨hunlocked, hignored⟩ := controlAt_readOnly s w _ h
  rw [State.hostWrite_unlocked w (locate_control a ha) hunlocked, hignored]

/-! ## What the registers read -/

theorem toNat_ofNat32_of_lt {n : Nat} (h : n < 2 ^ 32) : (BitVec.ofNat 32 n).toNat = n := by
  rw [BitVec.toNat_ofNat, Nat.mod_eq_of_lt h]

theorem RunState.code_le (r : RunState) : r.code ≤ 3 := by
  cases r <;> decide

theorem bitField_le (b : Bool) (i : Nat) : bitField b i ≤ 2 ^ i := by
  cases b <;> simp [bitField]

/-- No field of STATUS overlaps another (R55). -/
theorem State.statusWord_toNat (s : State) :
    s.statusWord.toNat =
      s.runState.code + bitField s.irqPend 8 + bitField s.ovf 9 + bitField s.trunc 10 := by
  have hcode := s.runState.code_le
  have hirq := bitField_le s.irqPend 8
  have hovf := bitField_le s.ovf 9
  have htrunc := bitField_le s.trunc 10
  exact toNat_ofNat32_of_lt (by omega)

theorem Config.legal_bounds {c : Config} (h : c.legal = true) :
    c.maxl ≤ 64 ∧ c.imemWords ≤ 16384 ∧ c.dmemBytes ≤ 65536 := by
  simp only [Config.legal, Bool.and_eq_true, decide_eq_true_eq] at h
  omega

theorem State.param0Word_toNat {s : State} (h : s.params.maxl < 2 ^ 8) :
    s.param0Word.toNat = s.params.maxl + nreg * 2 ^ 8 + limbBits * 2 ^ 16 + isaVersion * 2 ^ 24 := by
  rw [State.param0Word, Nat.mod_eq_of_lt h]
  exact toNat_ofNat32_of_lt (by simp only [nreg, limbBits, isaVersion]; omega)

/-- Four bytes of DMEM, little-endian (R18, R63). -/
theorem memRead_four (m : List Host.Cell) (a : Nat) :
    memRead m a 4 = (cellRead m a).toNat + (cellRead m (a + 1)).toNat * 2 ^ 8 +
      (cellRead m (a + 2)).toNat * 2 ^ 16 + (cellRead m (a + 3)).toNat * 2 ^ 24 := by
  simp only [memRead]
  ring

/-! ## STATE and IRQ_PEND under a host write -/

/-- Only CTRL and STATUS writes touch STATE or IRQ_PEND. -/
theorem State.locWrite_irq_frame (s : State) (w : Word) (l : HostLoc) (hc : l ≠ .ctrl) (hs : l ≠ .status) :
    (s.locWrite w l).runState = s.runState ∧ (s.locWrite w l).irqPend = s.irqPend := by
  cases l with
  | ctrl => exact absurd rfl hc
  | status => exact absurd rfl hs
  | regLen r => simp only [State.locWrite]; split <;> exact ⟨rfl, rfl⟩
  | imem p => simp only [State.locWrite]; split <;> exact ⟨rfl, rfl⟩
  | dmem q => simp only [State.locWrite]; split <;> exact ⟨rfl, rfl⟩
  | _ => exact ⟨rfl, rfl⟩

/-- A CTRL write with bit 2 set is a soft reset and nothing else (R54, R402). -/
theorem State.writeCtrl_reset (s : State) {w : Word} (h : w.getLsbD 2 = true) : s.writeCtrl w = s.softReset := by
  rw [State.writeCtrl, if_pos h]

/-- A CTRL write to a running engine: IRQ_EN takes bit 8, and bit 1 is a stop request (R54, R384). -/
theorem State.writeCtrl_running {s : State} {w : Word} (h : w.getLsbD 2 = false) (hr : s.runState = .running) :
    s.writeCtrl w = { s with irqEn := w.getLsbD 8, stopReq := s.stopReq || w.getLsbD 1 } := by
  simp only [State.writeCtrl, h, hr, Bool.false_eq_true, if_false, if_true]
  cases w.getLsbD 1 with
  | true => rw [if_pos rfl, State.stopRequest_running _ rfl, Bool.or_true]
  | false => rw [if_neg Bool.false_ne_true, Bool.or_false]

/-- A CTRL write to a stopped engine: IRQ_EN takes bit 8, and bit 0 is a start request (R54, R382). -/
theorem State.writeCtrl_stopped {s : State} {w : Word} (h : w.getLsbD 2 = false) (hr : s.runState ≠ .running) :
    s.writeCtrl w =
      if w.getLsbD 0 then { s with irqEn := w.getLsbD 8, runState := .running, cause := 0#4, stopReq := false }
      else { s with irqEn := w.getLsbD 8 } := by
  simp only [State.writeCtrl, h, hr, Bool.false_eq_true, if_false]
  cases w.getLsbD 0 with
  | true => exact State.startRequest_stopped { s with irqEn := w.getLsbD 8 } hr
  | false => rfl

/-- Of a CTRL write only the soft reset touches IRQ_PEND (R54, R402). -/
theorem State.writeCtrl_irqPend (s : State) (w : Word) :
    (s.writeCtrl w).irqPend = (s.irqPend && !w.getLsbD 2) := by
  cases h : w.getLsbD 2 with
  | true => simp [s.writeCtrl_reset h]
  | false =>
    by_cases hr : s.runState = .running
    · simp [State.writeCtrl_running h hr]
    · rw [State.writeCtrl_stopped h hr]
      split <;> simp

/-- A CTRL write to a running engine leaves it running, unless it is a soft reset (R54, R384). -/
theorem State.writeCtrl_runState_of_running {s : State} (w : Word) (hr : s.runState = .running) :
    (s.writeCtrl w).runState = if w.getLsbD 2 then .idle else .running := by
  cases h : w.getLsbD 2 with
  | true => simp [s.writeCtrl_reset h]
  | false => simp [State.writeCtrl_running h hr, hr]

/-- The host writes that clear IRQ_PEND: 1 to STATUS[8], or a soft reset (R48). -/
def ClearsIrq (a : HostAddr) (w : Word) : Prop :=
  a.toNat / 4 = 2 ∧ w.getLsbD 8 = true ∨ a.toNat / 4 = 1 ∧ w.getLsbD 2 = true

/-- A host write keeps IRQ_PEND or clears it, and clears it exactly when it is one of `ClearsIrq`. -/
theorem State.hostWrite_irqPend (s : State) (a : HostAddr) (w : Word) :
    (s.hostWrite a w).irqPend = true ↔ s.irqPend = true ∧ ¬ ClearsIrq a w := by
  by_cases hc : a.toNat / 4 = 1
  · rw [State.hostWrite_unlocked w (locate_ctrl a hc) rfl]
    simp [State.locWrite, State.writeCtrl_irqPend, ClearsIrq, hc]
  by_cases hs : a.toNat / 4 = 2
  · rw [State.hostWrite_unlocked w (locate_status a hs) rfl]
    simp [State.locWrite, ClearsIrq, hs]
  have hkeeps : (s.hostWrite a w).irqPend = s.irqPend := by
    rcases s.hostWrite_cases a w with ⟨-, -, h⟩ | h
    · rw [h]
    · rw [h]
      exact (s.locWrite_irq_frame w _ (mt (locate_eq_ctrl_iff a).1 hc) (mt (locate_eq_status_iff a).1 hs)).2
  simp [hkeeps, ClearsIrq, hc, hs]

/-- No host write takes a running engine to HALTED or FAULTED (R386). -/
theorem State.hostWrite_runState_of_running {s : State} (a : HostAddr) (w : Word) (hr : s.runState = .running) :
    (s.hostWrite a w).runState = .running ∨ (s.hostWrite a w).runState = .idle := by
  rcases s.hostWrite_cases a w with ⟨-, -, h⟩ | h
  · exact .inl (by rw [h]; exact hr)
  rw [h]
  by_cases hc : locate a = .ctrl
  · rw [hc, State.locWrite, State.writeCtrl_runState_of_running w hr]
    cases w.getLsbD 2 with
    | true => exact .inr rfl
    | false => exact .inl rfl
  by_cases hs : locate a = .status
  · exact .inl (by rw [hs]; exact hr)
  · exact .inl ((s.locWrite_irq_frame w _ hc hs).1.trans hr)

end Sys2Proof.Machine
end

section
/-! PROOFS. What an instruction can do, said once for all 40, and what follows for STATE and IRQ_PEND over every step of
the machine (R48, R331, R360, R384). -/

namespace Sys2Proof.Machine

open Sys2Proof

/-- The ways an instruction's rule ends (R19, R38): it writes its destination, with OVF and TRUNC as given; it
stores; it goes to a pc; it halts; or it raises a fault. -/
inductive ExecEnds (i : Instr) (s : State) : Out → Prop
  | writes (rd : Reg) (v : Vui) (ovf trunc : Bool) (hdest : destOf i = some rd) :
      ExecEnds i s (writeBack rd v { s with ovf := ovf, trunc := trunc })
  | stores (m : List Host.Cell) (hstore : mayStore i = true) : ExecEnds i s (finish { s with dmem := m })
  | transfers (p : PcWord) (hdest : destOf i = none) : ExecEnds i s (goto p s)
  | halts (hhalt : i = .halt) : ExecEnds i s (finish s.enterHalted)
  | faults (cause : BitVec 4) (info : Nat) : ExecEnds i s (raise cause info i s)

/-- A checked instruction ends as one of its two branches. -/
theorem ExecEnds.ite {i : Instr} {s : State} {o o' : Out} (c : Prop) [Decidable c] (h : ExecEnds i s o)
    (h' : ExecEnds i s o') : ExecEnds i s (if c then o else o') := by
  split
  · exact h
  · exact h'

/-- Every instruction ends in one of these ways. -/
theorem exec_ends (i : Instr) (s : State) : ExecEnds i s (exec i s) := by
  cases i with
  | nop => exact .transfers (s.pc + 1#16) rfl
  | halt => exact .halts rfl
  | jmp off => exact .transfers _ rfl
  | bz rs1 off => exact .ite _ (.transfers _ rfl) (.transfers (s.pc + 1#16) rfl)
  | bnz rs1 off => exact .ite _ (.transfers (s.pc + 1#16) rfl) (.transfers _ rfl)
  | new rd imm => exact .ite _ (.faults _ _) (.writes rd _ _ _ rfl)
  | div rd rs1 rs2 => exact .ite _ (.faults _ _) (.writes rd _ _ _ rfl)
  | rem rd rs1 rs2 => exact .ite _ (.faults _ _) (.writes rd _ _ _ rfl)
  | bext rd rs1 rs2 => exact .ite _ (.writes rd _ _ _ rfl) (.faults _ _)
  | bexti rd rs1 imm => exact .ite _ (.writes rd _ _ _ rfl) (.faults _ _)
  | bins rd rs1 rs2 => exact .ite _ (.writes rd _ _ _ rfl) (.faults _ _)
  | binsi rd rs1 imm => exact .ite _ (.writes rd _ _ _ rfl) (.faults _ _)
  | bgetm rd rs1 imm => exact .ite _ (.writes rd _ _ _ rfl) (.faults _ _)
  | ld rd rs1 imm => exact .ite _ (.writes rd _ _ _ rfl) (.faults _ _)
  | bputm rt rs1 imm => exact .ite _ (.stores _ rfl) (.faults _ _)
  | st rt rs1 imm => exact .ite _ (.stores _ rfl) (.faults _ _)
  | seti | cpy | mov | maxv => exact .writes _ _ _ _ rfl
  | add | sub | mul | neg | inc | dec => exact .writes _ _ _ _ rfl
  | ceq | cne | clt | cgt | cle | cge => exact .writes _ _ _ _ rfl
  | and | or | xor | not | shl | shr | shli | shri => exact .writes _ _ _ _ rfl

/-- What the engine can do to the interrupt: keep STATE and IRQ_PEND, or set IRQ_PEND (R48). -/
def IrqKeptOrSet (s t : State) : Prop :=
  (t.runState = s.runState ∧ t.irqPend = s.irqPend) ∨ t.irqPend = true

theorem exec_irqKeptOrSet {i : Instr} {s t : State} (h : exec i s = .next t) : IrqKeptOrSet s t := by
  have hends := exec_ends i s
  rw [h] at hends
  generalize ho : Host.Outcome.next t = o at hends
  cases hends with
  | writes | stores | transfers => cases ho; exact .inl ⟨rfl, rfl⟩
  | halts | faults => cases ho; exact .inr rfl

theorem engineStep_irqKeptOrSet {s t : State} (h : engineStep s = .next t) : IrqKeptOrSet s t := by
  rcases engineStep_cases s with ⟨-, hidle⟩ | ⟨-, -, hstop⟩ | ⟨-, -, -, hoob⟩ | ⟨-, -, -, hrun⟩
  · cases hidle.symm.trans h; exact .inl ⟨rfl, rfl⟩
  · cases hstop.symm.trans h; exact .inr rfl
  · cases hoob.symm.trans h; exact .inr rfl
  · rcases runWord_cases s s.fetched with ⟨i, -, hexec⟩ | ⟨e, -, hillegal⟩
    · exact exec_irqKeptOrSet (hexec.symm.trans (hrun.symm.trans h))
    · cases hillegal.symm.trans (hrun.symm.trans h); exact .inr rfl

/-- All a step of the machine can do to STATE and IRQ_PEND: the engine's turn keeps both or sets IRQ_PEND, a host read
keeps both, and a host write or a hardware reset is what the first event says. -/
theorem step_irq_cases {s t : State} (h : step s = .next t) :
    IrqKeptOrSet s t ∨
    (∃ a w rest, s.events = .hostWrite a w :: rest ∧ t = { s with events := rest }.hostWrite a w) ∨
    (∃ im dm rest, s.events = .hardwareReset im dm :: rest ∧ t = { s with events := rest }.hardReset im dm) := by
  cases hev : s.events with
  | nil =>
    rw [step_no_event s hev] at h
    exact .inl (engineStep_irqKeptOrSet h)
  | cons e rest =>
    rw [step_event s e rest hev] at h
    cases e with
    | hostRead a => cases h; exact .inl (.inl ⟨rfl, rfl⟩)
    | engineTurn => exact .inl (engineStep_irqKeptOrSet (s := { s with events := rest }) h)
    | hostWrite a w => cases h; exact .inr (.inl ⟨a, w, rest, rfl, rfl⟩)
    | hardwareReset im dm => cases h; exact .inr (.inr ⟨im, dm, rest, rfl, rfl⟩)

/-- IRQ_PEND is 1 after a step that takes a running engine to HALTED or FAULTED (R48). -/
theorem step_sets_irqPend {s t : State} (h : step s = .next t) (hr : s.runState = .running)
    (hend : t.runState = .halted ∨ t.runState = .faulted) : t.irqPend = true := by
  rcases step_irq_cases h with (⟨hkeep, -⟩ | hset) | ⟨a, w, rest, -, rfl⟩ | ⟨im, dm, rest, -, rfl⟩
  · simp [hkeep, hr] at hend
  · exact hset
  · rcases State.hostWrite_runState_of_running (s := { s with events := rest }) a w hr with h' | h' <;>
      simp [h'] at hend
  · simp at hend

/-- IRQ_PEND goes to 0 by a clearing host write or a hardware reset only (R48). -/
theorem step_irqPend_cleared_by {s t : State} (h : step s = .next t) (h1 : s.irqPend = true) (h0 : t.irqPend = false) :
    (∃ a w rest, s.events = .hostWrite a w :: rest ∧ ClearsIrq a w) ∨
      ∃ im dm rest, s.events = .hardwareReset im dm :: rest := by
  rcases step_irq_cases h with (⟨-, hkeep⟩ | hset) | ⟨a, w, rest, hev, rfl⟩ | ⟨im, dm, rest, hev, -⟩
  · simp [hkeep, h1] at h0
  · simp [hset] at h0
  · refine .inl ⟨a, w, rest, hev, ?_⟩
    by_contra hclear
    exact Bool.false_ne_true (h0.symm.trans ((State.hostWrite_irqPend _ a w).2 ⟨h1, hclear⟩))
  · exact .inr ⟨im, dm, rest, hev⟩

/-- A clearing host write leaves IRQ_PEND 0 (R48). -/
theorem step_irqPend_of_clearsIrq {s t : State} {a : HostAddr} {w : Word} {rest : List Event}
    (h : step s = .next t) (hev : s.events = .hostWrite a w :: rest) (hclear : ClearsIrq a w) : t.irqPend = false := by
  rw [step_event s _ rest hev] at h
  cases h
  exact Bool.eq_false_iff.2 fun hset => ((State.hostWrite_irqPend _ a w).1 hset).2 hclear

theorem step_irqPend_of_hardwareReset {s t : State} {im : List (Nat × Word)} {dm : List Host.Cell}
    {rest : List Event} (h : step s = .next t) (hev : s.events = .hardwareReset im dm :: rest) :
    t.irqPend = false := by
  rw [step_event s _ rest hev] at h
  cases h
  rfl

end Sys2Proof.Machine
end

section
/-! PROOFS. The host's view: the obligations about host accesses, the memory windows, the registers and the interrupt
(R48, R51, R52, R55 to R60, R62 to R64). -/

namespace Sys2Proof.Machine

open Sys2Proof

/-- Settles O20: an address and its aligned word name one location, and a reserved one is RAZ/WI. -/
theorem hostAccessesAreWords : Obligations.HostAccessesAreWords := by
  intro s a w
  refine ⟨?_, ?_, fun h => State.host_reserved w (locate_reserved a h), fun rest hev => ⟨_, step_event s _ rest hev⟩⟩
  · rw [State.hostRead, State.hostRead, locate_aligned]
  · rw [State.hostWrite, State.hostWrite, locate_aligned]

/-- A word of a memory window that no memory stands behind is RAZ/WI, whatever the STATE. -/
theorem State.host_window_closed {s : State} {a : HostAddr} {l : HostLoc} (w : Word) (ha : locate a = l)
    (hl : l.locked = true) (h : s.runState ≠ .running → s.locRead l = 0#32 ∧ s.locWrite w l = s) :
    s.hostRead a = 0#32 ∧ s.hostWrite a w = s := by
  by_cases hr : s.runState = .running
  · exact ⟨State.hostRead_locked ha hr hl, State.hostWrite_locked w ha hr hl⟩
  · rw [State.hostRead_stopped ha hr, State.hostWrite_stopped w ha hr]
    exact h hr

/-- Settles O23: the location is IMEM word `p`, and one cell is read or written. -/
theorem imemWindow : Obligations.ImemWindow := by
  intro s p w hwf hp
  have ha := imemAddr_locate p hp
  dsimp only
  split
  case isTrue h =>
    obtain ⟨hr, hin⟩ := h
    rw [State.hostRead_stopped ha hr, State.hostWrite_stopped w ha hr, State.locRead, State.locWrite, if_pos hin,
      if_pos hin]
    exact ⟨rfl, rfl, cellRead_cellWrite_same _ p w hwf, fun q hq => cellRead_cellWrite_other _ p q w hq⟩
  case isFalse h =>
    refine State.host_window_closed w ha rfl fun hr => ?_
    have hout : ¬ p < s.params.imemWords := fun hin => h ⟨hr, hin⟩
    exact ⟨if_neg hout, if_neg hout⟩

/-- Settles O24: the location is DMEM word `q`, and four bytes are read or written. -/
theorem dmemWindow : Obligations.DmemWindow := by
  intro s q w hwf hq
  have ha := dmemAddr_locate q hq
  dsimp only
  split
  case isTrue h =>
    obtain ⟨hr, hin⟩ := h
    rw [State.hostRead_stopped ha hr, State.hostWrite_stopped w ha hr, State.locRead, State.locWrite, if_pos hin,
      if_pos hin]
    refine ⟨?_, rfl, fun j hj => ?_, fun b hb => cellRead_memWrite_outside _ _ 4 _ b hb⟩
    · rw [toNat_ofNat32_of_lt (memRead_lt s.dmem (4 * q) 4)]
      exact memRead_four s.dmem (4 * q)
    · rw [State.dmemByte, cellRead_memWrite_inside _ _ 4 _ j hwf hj, BitVec.toNat_ofNat]
  case isFalse h =>
    refine State.host_window_closed w ha rfl fun hr => ?_
    have hout : ¬ 4 * q < s.params.dmemBytes := fun hin => h ⟨hr, hin⟩
    exact ⟨if_neg hout, if_neg hout⟩

/-- Settles O29, from what a step can do to IRQ_PEND (`step_irq_cases`). -/
theorem interruptPending : Obligations.InterruptPending := fun _ _ h =>
  ⟨rfl, step_sets_irqPend h, step_irqPend_cleared_by h, fun _ _ _ hev hclear => step_irqPend_of_clearsIrq h hev hclear,
    fun _ _ _ hev => step_irqPend_of_hardwareReset h hev⟩

/-- Settles O25: PC is locked while RUNNING and open otherwise. -/
theorem pcRegister : Obligations.PcRegister := by
  intro s w
  have ha : locate 0xC#18 = .pc := locate_pc _ rfl
  split
  case isTrue hr => exact ⟨State.hostRead_locked ha hr rfl, State.hostWrite_locked w ha hr rfl⟩
  case isFalse hr =>
    rw [State.hostRead_stopped ha hr, State.hostWrite_stopped w ha hr]
    have hpc : s.pc.toNat < 2 ^ 32 := by omega
    have hvalue : BitVec.ofNat 16 w.toNat = BitVec.ofNat 16 (w.toNat % 2 ^ 16) :=
      BitVec.eq_of_toNat_eq (by simp)
    exact ⟨toNat_ofNat32_of_lt hpc, by rw [State.locWrite, hvalue]⟩

/-- Settles O26: STATUS is never locked, and its fields do not overlap. -/
theorem statusRegister : Obligations.StatusRegister := by
  intro s w
  have ha : locate 8#18 = .status := locate_status _ rfl
  rw [State.hostRead_unlocked ha rfl, State.hostWrite_unlocked w ha rfl]
  exact ⟨s.statusWord_toNat, rfl⟩

/-- Settles O30: each word names its register, none of them is locked, and none of them is written. -/
theorem readOnlyRegisters : Obligations.ReadOnlyRegisters := by
  intro s w hlegal
  obtain ⟨hmaxl, himem, hdmem⟩ := Config.legal_bounds hlegal
  rw [s.hostRead_readOnly 0#18 (by decide) (by decide), s.hostRead_readOnly 0x20#18 (by decide) (by decide),
    s.hostRead_readOnly 0x24#18 (by decide) (by decide), s.hostRead_readOnly 0x28#18 (by decide) (by decide),
    s.hostRead_readOnly 0x10#18 (by decide) (by decide), s.hostRead_readOnly 0x14#18 (by decide) (by decide),
    s.hostRead_readOnly 0x18#18 (by decide) (by decide), s.hostRead_readOnly 0x1C#18 (by decide) (by decide)]
  refine ⟨rfl, State.param0Word_toNat (by omega), toNat_ofNat32_of_lt (by omega), toNat_ofNat32_of_lt (by omega),
    toNat_ofNat32_of_lt (by omega), toNat_ofNat32_of_lt (by omega), rfl, rfl, fun a ha => ?_⟩
  exact s.hostWrite_readOnly a w (by omega) (by omega)

end Sys2Proof.Machine
end

section
/-! PROOFS. The lengths of results (R107): each instruction with a destination writes a pair of the table's length there
or raises a fault, and one without a destination keeps every register. -/

namespace Sys2Proof.Machine

open Sys2Proof

section lengths

variable {i : Instr} {s t : State} {rd : Reg}

/-- The early answer 0 of `aluShl` has the operand's length too (R284). -/
theorem aluShl_len (a : Vui) (n : Nat) : (aluShl a n).len = a.len := by
  rw [aluShl_eq]
  rfl

theorem getX_of_writeBack {v : Vui} (h : writeBack rd v s = .next t) (hrd : rd ≠ 0) : t.getX rd = v := by
  rw [writeBack_next h]
  exact State.getX_setX_same s v hrd

theorem faulted_of_raise {cause : BitVec 4} {info : Nat} (h : raise cause info i s = .next t) :
    t.runState = .faulted := by
  cases h
  rfl

/-- The outcomes of an instruction that writes a pair of length `len` to `rd`, unless its check fails: `ExecEnds` for
one destination, with the length of what is written. -/
inductive WritesLength (i : Instr) (s : State) (rd : Reg) (len : Nat) : Out → Prop
  | writes (v : Vui) (ovf trunc : Bool) (hlen : v.len = len) :
      WritesLength i s rd len (writeBack rd v { s with ovf := ovf, trunc := trunc })
  | faults (cause : BitVec 4) (info : Nat) : WritesLength i s rd len (raise cause info i s)

/-- The table of R107 on outcomes; the cases are its rows, those with a check apart. -/
theorem exec_writesLength (s : State) (hdest : destOf i = some rd) :
    WritesLength i s rd (resultLength (fun r => (s.getX r).len) i) (exec i s) := by
  cases i with
  | st | bputm | nop | halt | jmp | bz | bnz => cases hdest
  | add | sub | mul | and | or | xor => cases hdest; exact .writes _ _ _ rfl
  | div | rem => cases hdest; exact iteInduction (fun _ => .faults _ _) (fun _ => .writes _ _ _ rfl)
  | neg | inc | dec | not | maxv | cpy => cases hdest; exact .writes _ _ _ rfl
  | shl | shli => cases hdest; exact .writes _ _ _ (aluShl_len _ _)
  | shr | shri => cases hdest; exact .writes _ _ _ rfl
  | ceq | cne | clt | cgt | cle | cge => cases hdest; exact .writes _ _ _ rfl
  | bext | bexti | bgetm => cases hdest; exact iteInduction (fun _ => .writes _ _ _ rfl) (fun _ => .faults _ _)
  | mov => cases hdest; exact .writes _ _ _ rfl
  | new => cases hdest; exact iteInduction (fun _ => .faults _ _) (fun _ => .writes _ _ _ rfl)
  | seti => cases hdest; exact .writes _ _ _ rfl
  | ld | bins | binsi => cases hdest; exact iteInduction (fun _ => .writes _ _ _ rfl) (fun _ => .faults _ _)

/-- The length that a completed instruction leaves in its destination, unless that is x0 (R33, R107). -/
theorem exec_dest_len (h : exec i s = .next t) (hok : t.runState ≠ .faulted) (hdest : destOf i = some rd)
    (hrd : rd ≠ 0) : (t.getX rd).len = resultLength (fun r => (s.getX r).len) i := by
  have hends := exec_writesLength s hdest
  rw [h] at hends
  generalize ho : Host.Outcome.next t = o at hends
  cases hends with
  | writes v ovf trunc hlen => rw [getX_of_writeBack ho.symm hrd, hlen]
  | faults cause info => exact absurd (faulted_of_raise ho.symm) hok

/-- An instruction without a destination keeps every register, also when it faults (R107's last row, R360). -/
theorem exec_keepsRegs (h : exec i s = .next t) (hnone : destOf i = none) : KeepsRegs s t := by
  have hends := exec_ends i s
  rw [h] at hends
  generalize ho : Host.Outcome.next t = o at hends
  cases hends with
  | writes rd v ovf trunc hdest => exact absurd (hdest.symm.trans hnone) (Option.some_ne_none rd)
  | stores | transfers | halts | faults => cases ho; exact State.getX_congr rfl

end lengths

/-- Settles O18: a destination's length by `exec_dest_len`, the table's last row by `exec_keepsRegs`. -/
theorem resultLengths : Obligations.ResultLengths := fun _ _ _ _ h hok =>
  ⟨fun _ hdest hrd => exec_dest_len h hok hdest hrd, exec_keepsRegs h⟩

end Sys2Proof.Machine
end

section
/-! PROOFS. Bit access (`41_bit_access.md`): the obligations about BEXT, BEXTI, BINS, BINSI, BGETM and BPUTM, each from one
rule for the operation it stands on: extract, insert, and a store of one byte (R144 to R147, R150, R151). -/

namespace Sys2Proof.Machine

open Sys2Proof Sys2Proof.Laws

/-! ## Bits of numbers and bytes -/

/-- On a number of `n` bits, R141's `v AND NOT 2^i` is the conjunction with the `n`-bit complement of `2^i`. -/
theorem xor_and_two_pow_eq_and_mask {v n i : Nat} (hv : v < 2 ^ n) (hi : i < n) :
    v ^^^ (v &&& 2 ^ i) = v &&& (2 ^ n - (2 ^ i + 1)) := by
  have hpow : 2 ^ i < 2 ^ n := Nat.pow_lt_pow_right (by decide) hi
  refine Nat.eq_of_testBit_eq fun j => ?_
  rw [Nat.testBit_xor, Nat.testBit_and, Nat.testBit_and, Nat.testBit_two_pow_sub_succ hpow]
  by_cases hj : j < n
  · cases v.testBit j <;> simp [hj]
  · have hhigh : v.testBit j = false :=
      Nat.testBit_lt_two_pow (hv.trans_le (Nat.pow_le_pow_right (by decide) (not_lt.1 hj)))
    simp [hhigh]

/-- R151's byte: the mask 255 - 2^i is `NOT 2^i` in 8 bits. -/
theorem setBitOf_byte (y : Byte) {i : Nat} (b : Nat) (hi : i < 8) :
    setBitOf y.toNat i b = y.toNat &&& (255 - 2 ^ i) ||| b * 2 ^ i := by
  rw [setBitOf, xor_and_two_pow_eq_and_mask y.isLt hi, show 2 ^ 8 - (2 ^ i + 1) = 255 - 2 ^ i by omega]

/-- Bit 0 of `b` put at bit `i` changes that bit alone (R146). -/
theorem setBitOf_mod_two_testBit (v i b j : Nat) :
    (setBitOf v i (b % 2)).testBit j = if j = i then b.testBit 0 else v.testBit j := by
  rw [setBitOf_testBit v i (b % 2) j (Nat.mod_lt b two_pos), Nat.testBit_zero]

theorem State.bitInDmem_iff (s : State) (i : Nat) : s.bitInDmem i = true ↔ ¬ s.params.dmemBytes ≤ i / 8 := by
  rw [State.bitInDmem, decide_eq_true_iff, not_le]

/-! ## One rule per operation -/

section operations

variable (s : State)

/-- BEXT and BEXTI at index `i` (R142, R144, R145). -/
theorem extractBit_result (self : Instr) (rd rs1 : Reg) (i : Nat) :
    if 8 * (s.getX rs1).len ≤ i then TakesFault s (extractBit self rd rs1 i s) 4 (encode self) i
    else Completes s (extractBit self rd rs1 i s) rd { len := 1, val := ((s.getX rs1).val.testBit i).toNat } := by
  rcases extractBit_cases s self rd rs1 i with ⟨hin, hwrite⟩ | ⟨hout, hraise⟩
  · rw [if_neg (not_le.2 hin), hwrite, ← bitOf_eq_testBit]
    exact writeBack_completes s rd _
  · rw [if_pos hout, hraise]
    exact raise_takesFault s causeOobReg i self

/-- BINS and BINSI at index `i` (R142, R143, R146, R147). -/
theorem insertBit_result (self : Instr) (rd rs1 : Reg) (i : Nat) :
    if 8 * (s.getX rd).len ≤ i then TakesFault s (insertBit self rd rs1 i s) 4 (encode self) i
    else ∃ v, Completes s (insertBit self rd rs1 i s) rd { len := (s.getX rd).len, val := v } ∧
      ∀ j, v.testBit j = if j = i then (s.getX rs1).val.testBit 0 else (s.getX rd).val.testBit j := by
  rcases insertBit_cases s self rd rs1 i with ⟨hin, hwrite⟩ | ⟨hout, hraise⟩
  · rw [if_neg (not_le.2 hin), hwrite]
    exact ⟨_, writeBack_completes s rd _, setBitOf_mod_two_testBit _ i _⟩
  · rw [if_pos hout, hraise]
    exact raise_takesFault s causeOobReg i self

/-- An instruction that writes one byte of a canonical memory and completes. -/
theorem finish_cellWrite_stores (a v : Nat) (hwf : Memory.wf s.dmem = true) :
    Stores s (finish { s with dmem := cellWrite s.dmem a (BitVec.ofNat 8 v) }) a 1 v := by
  refine ⟨_, rfl, rfl, fun k hk => ?_, fun b hb => cellRead_cellWrite_other s.dmem a b _ (by omega), fun _ => rfl, rfl,
    rfl, ⟨rfl, rfl, rfl⟩, ⟨rfl, rfl, rfl, rfl, rfl, rfl, rfl, rfl, rfl⟩⟩
  obtain rfl : k = 0 := by omega
  rw [State.dmemByte, Nat.add_zero, cellRead_cellWrite_same s.dmem a _ hwf, BitVec.toNat_ofNat]
  simp

/-- One bit of one byte stored, the byte's other bits as before (R151). -/
theorem finish_putDmemBit_stores (i b : Nat) (hwf : Memory.wf s.dmem = true) :
    Stores s (finish (s.putDmemBit i b)) (i / 8) 1
      ((s.dmemByte (i / 8)).toNat &&& (255 - 2 ^ (i % 8)) ||| b * 2 ^ (i % 8)) := by
  rw [← setBitOf_byte _ b (Nat.mod_lt i (by decide))]
  exact finish_cellWrite_stores s _ _ hwf

/-- BGETM is its check and then a write of the bit, or fault entry (R150). -/
theorem exec_bgetm (rd rs1 : Reg) (imm : Nat) :
    exec (.bgetm rd rs1 imm) s =
      if s.bitInDmem (s.ea rs1 imm) then
        writeBack rd (oneBit (bitOf (s.dmemByte (s.ea rs1 imm / 8)).toNat (s.ea rs1 imm % 8))) s
      else raise causeOobMem (s.ea rs1 imm) (.bgetm rd rs1 imm) s := rfl

/-- BPUTM is its check and then a store of the bit, or fault entry (R151). -/
theorem exec_bputm (rt rs1 : Reg) (imm : Nat) :
    exec (.bputm rt rs1 imm) s =
      if s.bitInDmem (s.ea rs1 imm) then finish (s.putDmemBit (s.ea rs1 imm) ((s.getX rt).val % 2))
      else raise causeOobMem (s.ea rs1 imm) (.bputm rt rs1 imm) s := rfl

end operations

/-! ## The obligations -/

/-- Settles O38: BEXT and BEXTI are `extractBit` at a register's value and at the immediate. -/
theorem bitExtract : Obligations.BitExtract :=
  ⟨decodesR3_of 0x28 .bext (by decide) fun w hop => by simp only [decode, hop],
    decodesI_of 0x2A .bexti (by decide) fun w hop => by simp only [decode, hop],
    fun s rd rs1 rs2 imm =>
      ⟨extractBit_result s (.bext rd rs1 rs2) rd rs1 (s.getX rs2).val, extractBit_result s (.bexti rd rs1 imm) rd rs1 imm⟩⟩

/-- Settles O39: BINS and BINSI are `insertBit` at a register's value and at the immediate. -/
theorem bitInsert : Obligations.BitInsert :=
  ⟨decodesR3_of 0x29 .bins (by decide) fun w hop => by simp only [decode, hop],
    decodesI_of 0x2B .binsi (by decide) fun w hop => by simp only [decode, hop],
    fun s rd rs1 rs2 imm =>
      ⟨insertBit_result s (.bins rd rs1 rs2) rd rs1 (s.getX rs2).val, insertBit_result s (.binsi rd rs1 imm) rd rs1 imm⟩⟩

/-- Settles O40: a bit index within DMEM reads that bit of its byte, one beyond it raises OOB_MEM. -/
theorem memoryBitRead : Obligations.MemoryBitRead := by
  refine ⟨decodesI_of 0x2C .bgetm (by decide) fun w hop => by simp only [decode, hop], fun s rd rs1 imm => ?_⟩
  dsimp only
  split
  case isTrue hout =>
    rw [exec_bgetm, State.ea, if_neg fun hin => (s.bitInDmem_iff _).1 hin hout]
    exact raise_takesFault s causeOobMem _ _
  case isFalse hin =>
    rw [exec_bgetm, State.ea, if_pos ((s.bitInDmem_iff _).2 hin), bitOf_eq_testBit, BitVec.testBit_toNat]
    exact writeBack_completes s rd _

/-- Settles O41: a bit index within DMEM stores into its byte, one beyond it raises OOB_MEM. -/
theorem memoryBitWrite : Obligations.MemoryBitWrite := by
  refine ⟨decodesI_of 0x2D .bputm (by decide) fun w hop => by simp only [decode, hop], fun s rt rs1 imm hwf => ?_⟩
  dsimp only
  split
  case isTrue hout =>
    rw [exec_bputm, State.ea, if_neg fun hin => (s.bitInDmem_iff _).1 hin hout]
    exact raise_takesFault s causeOobMem _ _
  case isFalse hin =>
    rw [exec_bputm, State.ea, if_pos ((s.bitInDmem_iff _).2 hin)]
    exact finish_putDmemBit_stores s _ _ hwf

end Sys2Proof.Machine
end

section
/-! PROOFS. Construction and assignment (`42_construct_assign.md`): what NEW, SETI, CPY, MOV and MAXV do, as a check or a
write back of the pair the rule gives, and the obligations about them (R172, R174, R176, R178, R180). -/

namespace Sys2Proof.Machine

open Sys2Proof Sys2Proof.Laws

/-! ## What each instruction writes -/

section instructions

variable (s : State) (rd rs1 : Reg) (imm : Nat)

/-- NEW is its check of the length, whatever `rd` is, and then a write of zero (R172). -/
theorem exec_new :
    exec (.new rd imm) s =
      if s.params.maxl < imm then raise causeBadWidth 0 (.new rd imm) s
      else writeBack rd { len := imm, val := 0 } s := rfl

/-- SETI reduces the immediate to the length of `rd` and sets TRUNC if that loses anything (R178). -/
theorem exec_seti :
    exec (.seti rd imm) s =
      writeBack rd { len := (s.getX rd).len, val := imm % 2 ^ (8 * (s.getX rd).len) }
        (s.stickTrunc (decide (2 ^ (8 * (s.getX rd).len) ≤ imm))) := rfl

/-- CPY takes length and value of `rs1` (R174). -/
theorem exec_cpy : exec (.cpy rd rs1) s = writeBack rd (s.getX rs1) s := rfl

/-- MOV takes the value of `rs1` and never shrinks `rd` (R176). -/
theorem exec_mov :
    exec (.mov rd rs1) s =
      writeBack rd { len := max (s.getX rd).len (s.getX rs1).len, val := (s.getX rs1).val } s := rfl

/-- MAXV takes the length of `rs1` and the largest value of that length (R180). -/
theorem exec_maxv :
    exec (.maxv rd rs1) s =
      writeBack rd { len := (s.getX rs1).len, val := 2 ^ (8 * (s.getX rs1).len) - 1 } s := rfl

end instructions

/-! ## The obligations -/

/-- Settles O42: a length above MAXL raises BAD_WIDTH, any other is written back with the value 0. -/
theorem newConstructsZero : Obligations.NewConstructsZero := by
  refine ⟨decodesU_of 0x08 .new (by decide) fun w hop => by simp only [decode, hop], fun s rd imm => ?_⟩
  split
  case isTrue hwide =>
    rw [exec_new, if_pos hwide]
    exact raise_takesFault s causeBadWidth 0 _
  case isFalse hfits =>
    rw [exec_new, if_neg hfits]
    exact writeBack_completes s rd _

/-- Settles O43: SETI writes back under TRUNC, and no other flag is touched. -/
theorem setiAssignsNative : Obligations.SetiAssignsNative := by
  refine ⟨decodesU_of 0x09 .seti (by decide) fun w hop => by simp only [decode, hop], fun s rd imm => ?_⟩
  rw [exec_seti]
  exact writeBack_stickTrunc s rd _ _

/-- Settles O44: CPY, MOV and MAXV each write back a pair made of the operands' lengths and value, and no flag. -/
theorem copyMoveAndMaximum : Obligations.CopyMoveAndMaximum := by
  refine ⟨decodesR2_of 0x0A .cpy (by decide) fun w hop => by simp only [decode, hop],
    decodesR2_of 0x0B .mov (by decide) fun w hop => by simp only [decode, hop],
    decodesR2_of 0x0C .maxv (by decide) fun w hop => by simp only [decode, hop], fun s rd rs1 => ?_⟩
  rw [exec_cpy, exec_mov, exec_maxv]
  exact ⟨writeBack_completes s rd _, writeBack_completes s rd _, writeBack_completes s rd _⟩

end Sys2Proof.Machine
end

section
/-! PROOFS. Arithmetic (`43_arithmetic.md`): what ADD, SUB, MUL, DIV, REM, NEG, INC and DEC do, as a check or a write of a
pair, and the obligations about them. -/

namespace Sys2Proof.Machine

open Sys2Proof Sys2Proof.Laws

/-! ## Integer results in the operand's length -/

/-- An integer result that is no negative number is reduced as a natural one. -/
theorem reduceInt_natCast (L n : Nat) : reduceInt L (n : Int) = reduce L n := by
  simp only [reduceInt, reduce, ← Int.natCast_mod, Int.toNat_natCast]

/-- A result that fits its length is not changed by the reduction (R32). -/
theorem reduce_of_lt {L n : Nat} (h : n < modulus L) : reduce L n = { len := L, val := n } := by
  rw [reduce, Nat.mod_eq_of_lt h]

/-- Below 0 the results wrap from the top of the length (R226). -/
theorem reduceInt_neg_one (L : Nat) : reduceInt L (-1) = { len := L, val := modulus L - 1 } := by
  have hpos := modulus_pos L
  have hcast : ((modulus L - 1 : Nat) : Int) = -1 + modulus L := by omega
  calc
    reduceInt L (-1) = reduceInt L ((modulus L - 1 : Nat) : Int) := by
      simp only [reduceInt, hcast, Int.add_emod_right]
    _ = { len := L, val := modulus L - 1 } := by
      rw [reduceInt_natCast, reduce_of_lt (by omega)]

/-- For an operand that fits its length the difference of R210 is a natural number. -/
theorem aluNeg_of_fits {a : Vui} (h : a.val < modulus a.len) :
    aluNeg a = { len := a.len, val := (modulus a.len - a.val) % modulus a.len } := by
  rw [aluNeg, ← Nat.cast_sub h.le, reduceInt_natCast, reduce]

/-- For an operand that fits its length only a value of 0 makes DEC wrap (R226). -/
theorem aluDec_of_fits {a : Vui} (h : a.val < modulus a.len) :
    aluDec a = { len := a.len, val := if a.val = 0 then modulus a.len - 1 else a.val - 1 } := by
  rw [aluDec]
  split
  case isTrue hzero =>
    rw [hzero]
    exact reduceInt_neg_one a.len
  case isFalse hne =>
    have hcast : (a.val : Int) - 1 = ((a.val - 1 : Nat) : Int) := by omega
    rw [hcast, reduceInt_natCast, reduce_of_lt (by omega)]

/-! ## What each instruction writes -/

section instructions

variable (s : State) (rd rs1 rs2 : Reg)

/-- ADD reduces the sum to the wider length and sets OVF if that loses anything (R202). -/
theorem exec_add :
    exec (.add rd rs1 rs2) s =
      writeBack rd
        { len := max (s.getX rs1).len (s.getX rs2).len,
          val := ((s.getX rs1).val + (s.getX rs2).val) % 2 ^ (8 * max (s.getX rs1).len (s.getX rs2).len) }
        (s.stickOvf (decide
          (2 ^ (8 * max (s.getX rs1).len (s.getX rs2).len) ≤ (s.getX rs1).val + (s.getX rs2).val))) := rfl

/-- SUB writes the difference reduced to the wider length (R206). -/
theorem exec_sub :
    exec (.sub rd rs1 rs2) s =
      writeBack rd
        (reduceInt (max (s.getX rs1).len (s.getX rs2).len) ((s.getX rs1).val - (s.getX rs2).val)) s := rfl

/-- MUL reduces the product to the wider length and sets OVF if that loses anything (R212). -/
theorem exec_mul :
    exec (.mul rd rs1 rs2) s =
      writeBack rd
        { len := max (s.getX rs1).len (s.getX rs2).len,
          val := ((s.getX rs1).val * (s.getX rs2).val) % 2 ^ (8 * max (s.getX rs1).len (s.getX rs2).len) }
        (s.stickOvf (decide
          (2 ^ (8 * max (s.getX rs1).len (s.getX rs2).len) ≤ (s.getX rs1).val * (s.getX rs2).val))) := rfl

/-- DIV is its check of the divisor and then a write of the quotient (R215, R218). -/
theorem exec_div :
    exec (.div rd rs1 rs2) s =
      if (s.getX rs2).val = 0 then raise causeDivByZero 0 (.div rd rs1 rs2) s
      else writeBack rd
        { len := max (s.getX rs1).len (s.getX rs2).len, val := (s.getX rs1).val / (s.getX rs2).val } s := rfl

/-- REM is its check of the divisor and then a write of the remainder (R215, R220). -/
theorem exec_rem :
    exec (.rem rd rs1 rs2) s =
      if (s.getX rs2).val = 0 then raise causeDivByZero 0 (.rem rd rs1 rs2) s
      else writeBack rd
        { len := max (s.getX rs1).len (s.getX rs2).len, val := (s.getX rs1).val % (s.getX rs2).val } s := rfl

/-- NEG writes back the negation within the operand's length (R210). -/
theorem exec_neg : exec (.neg rd rs1) s = writeBack rd (aluNeg (s.getX rs1)) s := rfl

/-- INC reduces to the operand's length and sets OVF if that loses anything (R224). -/
theorem exec_inc :
    exec (.inc rd rs1) s =
      writeBack rd
        { len := (s.getX rs1).len, val := ((s.getX rs1).val + 1) % 2 ^ (8 * (s.getX rs1).len) }
        (s.stickOvf (decide (2 ^ (8 * (s.getX rs1).len) ≤ (s.getX rs1).val + 1))) := rfl

/-- DEC writes back the decrement within the operand's length (R226). -/
theorem exec_dec : exec (.dec rd rs1) s = writeBack rd (aluDec (s.getX rs1)) s := rfl

end instructions

/-! ## The obligations -/

/-- Settles O45: ADD writes back under OVF, and no other flag is touched. -/
theorem addWrapsAtTheWiderLength : Obligations.AddWrapsAtTheWiderLength := by
  refine ⟨decodesR3_of 0x10 .add (by decide) fun w hop => by simp only [decode, hop], fun s rd rs1 rs2 => ?_⟩
  rw [exec_add]
  exact writeBack_stickOvf s rd _ _

/-- Settles O46: the value is the one that `reduceInt_val` and `reduceInt_val_lt` describe, and no flag is touched. -/
theorem subWrapsAtTheWiderLength : Obligations.SubWrapsAtTheWiderLength := by
  refine ⟨decodesR3_of 0x11 .sub (by decide) fun w hop => by simp only [decode, hop], fun s rd rs1 rs2 => ?_⟩
  rw [exec_sub]
  refine ⟨_, writeBack_completes s rd _, reduceInt_val_lt _ _, (reduceInt_val _ _).trans ?_⟩
  simp only [modulus, Nat.cast_pow, Nat.cast_ofNat]

/-- Settles O47: MUL writes back under OVF, and no other flag is touched. -/
theorem mulWrapsAtTheWiderLength : Obligations.MulWrapsAtTheWiderLength := by
  refine ⟨decodesR3_of 0x12 .mul (by decide) fun w hop => by simp only [decode, hop], fun s rd rs1 rs2 => ?_⟩
  rw [exec_mul]
  exact writeBack_stickOvf s rd _ _

/-- Settles O48: a divisor value of 0 raises DIV_BY_ZERO, any other gives quotient and remainder. -/
theorem divideAndRemainder : Obligations.DivideAndRemainder := by
  refine ⟨decodesR3_of 0x13 .div (by decide) fun w hop => by simp only [decode, hop],
    decodesR3_of 0x14 .rem (by decide) fun w hop => by simp only [decode, hop], fun s rd rs1 rs2 => ?_⟩
  rw [exec_div, exec_rem]
  split
  case isTrue hzero =>
    exact ⟨raise_takesFault s causeDivByZero 0 _, raise_takesFault s causeDivByZero 0 _⟩
  case isFalse hdivisor =>
    exact ⟨writeBack_completes s rd _, writeBack_completes s rd _⟩

/-- Settles O49, from the values of `aluNeg` and `aluDec` on an operand that fits its length. -/
theorem negateAndDecrement : Obligations.NegateAndDecrement := by
  refine ⟨decodesR2_of 0x15 .neg (by decide) fun w hop => by simp only [decode, hop],
    decodesR2_of 0x17 .dec (by decide) fun w hop => by simp only [decode, hop], fun s rd rs1 hfits => ?_⟩
  rw [exec_neg, exec_dec, aluNeg_of_fits hfits, aluDec_of_fits hfits]
  exact ⟨writeBack_completes s rd _, writeBack_completes s rd _⟩

/-- Settles O50: INC writes back under OVF, and no other flag is touched. -/
theorem incrementWrapsAndSetsOvf : Obligations.IncrementWrapsAndSetsOvf := by
  refine ⟨decodesR2_of 0x16 .inc (by decide) fun w hop => by simp only [decode, hop], fun s rd rs1 => ?_⟩
  rw [exec_inc]
  exact writeBack_stickOvf s rd _ _

end Sys2Proof.Machine
end

section
/-! PROOFS. Comparison (`44_compare.md`): the six comparisons are one operation, `compareRegs`, at six relations, and the
obligation about them. -/

namespace Sys2Proof.Machine

open Sys2Proof Sys2Proof.Laws

/-- The result of a comparison says whether the relation holds, as a length-1 pair (R252 to R259). -/
theorem truth_decide (p : Prop) [Decidable p] : truth (decide p) = { len := 1, val := if p then 1 else 0 } := by
  simp only [truth, decide_eq_true_eq]

/-- What a comparison does, said once for every relation: only the two values decide, and no flag is touched. -/
theorem compareRegs_decide_completes (s : State) (r : Nat → Nat → Prop) [DecidableRel r] (rd rs1 rs2 : Reg) :
    Completes s (compareRegs (fun a b => decide (r a b)) rd rs1 rs2 s) rd
      { len := 1, val := if r (s.getX rs1).val (s.getX rs2).val then 1 else 0 } := by
  rw [← truth_decide]
  exact compareRegs_completes s _ rd rs1 rs2

/-- Settles O51: each instruction is, by definition, `compareRegs` at the relation it is named for. -/
theorem comparisonsCompareValues : Obligations.ComparisonsCompareValues := by
  refine ⟨decodesR3_of 0x20 .ceq (by decide) fun w hop => by simp only [decode, hop],
    decodesR3_of 0x21 .cne (by decide) fun w hop => by simp only [decode, hop],
    decodesR3_of 0x22 .clt (by decide) fun w hop => by simp only [decode, hop],
    decodesR3_of 0x23 .cgt (by decide) fun w hop => by simp only [decode, hop],
    decodesR3_of 0x24 .cle (by decide) fun w hop => by simp only [decode, hop],
    decodesR3_of 0x25 .cge (by decide) fun w hop => by simp only [decode, hop], fun s rd rs1 rs2 => ?_⟩
  exact ⟨compareRegs_decide_completes s (· = ·) rd rs1 rs2, compareRegs_decide_completes s (· ≠ ·) rd rs1 rs2,
    compareRegs_decide_completes s (· < ·) rd rs1 rs2, compareRegs_decide_completes s (· > ·) rd rs1 rs2,
    compareRegs_decide_completes s (· ≤ ·) rd rs1 rs2, compareRegs_decide_completes s (· ≥ ·) rd rs1 rs2⟩

end Sys2Proof.Machine
end

section
/-! PROOFS. Bitwise and shift (`45_bitwise_shift.md`): what AND, OR, XOR and NOT write back, one rule per shift direction
for every count, and the obligations about them (R280 to R283, R286, R288, R290, R291). -/

namespace Sys2Proof.Machine

open Sys2Proof Sys2Proof.Laws

section instructions

variable (s : State) (rd rs1 rs2 : Reg)

/-! ## What each bitwise instruction writes -/

/-- AND takes the wider length (R280). -/
theorem exec_and :
    exec (.and rd rs1 rs2) s =
      writeBack rd
        { len := max (s.getX rs1).len (s.getX rs2).len, val := (s.getX rs1).val &&& (s.getX rs2).val } s := rfl

/-- OR takes the wider length (R281). -/
theorem exec_or :
    exec (.or rd rs1 rs2) s =
      writeBack rd
        { len := max (s.getX rs1).len (s.getX rs2).len, val := (s.getX rs1).val ||| (s.getX rs2).val } s := rfl

/-- XOR takes the wider length (R282). -/
theorem exec_xor :
    exec (.xor rd rs1 rs2) s =
      writeBack rd
        { len := max (s.getX rs1).len (s.getX rs2).len, val := (s.getX rs1).val ^^^ (s.getX rs2).val } s := rfl

/-- NOT complements within the operand's length (R283). -/
theorem exec_not :
    exec (.not rd rs1) s =
      writeBack rd
        { len := (s.getX rs1).len, val := 2 ^ (8 * (s.getX rs1).len) - 1 - (s.getX rs1).val } s := rfl

/-! ## One rule per shift direction -/

/-- A left shift by any count, from a register or an immediate (R286, R290): a count of `8L` or more, which the model
answers without the power, gives what the exact law gives. -/
theorem writeBack_aluShl_completes (a : Vui) (n : Nat) :
    Completes s (writeBack rd (aluShl a n) s) rd { len := a.len, val := a.val * 2 ^ n % 2 ^ (8 * a.len) } := by
  rw [aluShl_eq]
  exact writeBack_completes s rd _

/-- A right shift by any count, from a register or an immediate (R288, R291), is the division. -/
theorem writeBack_aluShr_completes (a : Vui) (n : Nat) :
    Completes s (writeBack rd (aluShr a n) s) rd { len := a.len, val := a.val / 2 ^ n } := by
  rw [aluShr_eq]
  exact writeBack_completes s rd _

end instructions

/-! ## The obligations -/

/-- Settles O52: AND, OR, XOR and NOT each write back one pair and touch no flag. -/
theorem bitwiseOperations : Obligations.BitwiseOperations := by
  refine ⟨decodesR3_of 0x18 .and (by decide) fun w hop => by simp only [decode, hop],
    decodesR3_of 0x19 .or (by decide) fun w hop => by simp only [decode, hop],
    decodesR3_of 0x1A .xor (by decide) fun w hop => by simp only [decode, hop],
    decodesR2_of 0x1B .not (by decide) fun w hop => by simp only [decode, hop], fun s rd rs1 rs2 => ?_⟩
  rw [exec_and, exec_or, exec_xor, exec_not]
  exact ⟨writeBack_completes s rd _, writeBack_completes s rd _, writeBack_completes s rd _,
    writeBack_completes s rd _⟩

/-- Settles O53: each direction's rule, at a register's whole value and at the immediate. -/
theorem shiftsByAnyCount : Obligations.ShiftsByAnyCount :=
  ⟨decodesR3_of 0x1C .shl (by decide) fun w hop => by simp only [decode, hop],
    decodesR3_of 0x1D .shr (by decide) fun w hop => by simp only [decode, hop],
    decodesI_of 0x1E .shli (by decide) fun w hop => by simp only [decode, hop],
    decodesI_of 0x1F .shri (by decide) fun w hop => by simp only [decode, hop],
    fun s rd rs1 rs2 imm =>
      ⟨writeBack_aluShl_completes s rd (s.getX rs1) (s.getX rs2).val,
        writeBack_aluShr_completes s rd (s.getX rs1) (s.getX rs2).val,
        writeBack_aluShl_completes s rd (s.getX rs1) imm, writeBack_aluShr_completes s rd (s.getX rs1) imm⟩⟩

end Sys2Proof.Machine
end

section
/-! PROOFS. Load and store (`46_load_store.md`): which bytes a MemRead holds, what a MemWrite stores, and the
obligations about LD and ST (R310, R311). -/

namespace Sys2Proof.Machine

open Sys2Proof Sys2Proof.Laws

/-! ## Several bytes of DMEM -/

/-- Byte k of MemRead(addr, n) is the byte at addr+k (R18, R70). -/
theorem memRead_byte (m : List Host.Cell) (addr n k : Nat) (hk : k < n) :
    memRead m addr n / 2 ^ (8 * k) % 2 ^ 8 = (cellRead m (addr + k)).toNat := by
  induction n generalizing addr k with
  | zero => omega
  | succ n ih =>
    have hbyte := (cellRead m addr).isLt
    rw [memRead]
    cases k with
    | zero =>
      rw [Nat.mul_zero, Nat.pow_zero, Nat.div_one, Nat.add_zero addr]
      omega
    | succ k =>
      have hrest : ((cellRead m addr).toNat + 2 ^ 8 * memRead m (addr + 1) n) / 2 ^ 8 = memRead m (addr + 1) n := by
        omega
      rw [Nat.mul_succ, Nat.add_comm (8 * k) 8, Nat.pow_add, ← Nat.div_div_eq_div_mul, hrest,
        ih (addr + 1) k (by omega), Nat.add_right_comm, Nat.add_assoc]

theorem State.inDmem_iff (s : State) (a n : Nat) : s.inDmem a n = true ↔ ¬ a + n > s.params.dmemBytes := by
  rw [State.inDmem, decide_eq_true_iff, not_lt]

/-! ## One rule per operation -/

section operations

variable (s : State)

/-- An instruction that writes `n` bytes of a canonical memory and completes. -/
theorem finish_memWrite_stores (addr n v : Nat) (hwf : Memory.wf s.dmem = true) :
    Stores s (finish { s with dmem := memWrite s.dmem addr n v }) addr n v := by
  refine ⟨_, rfl, rfl, fun k hk => ?_, fun a ha => cellRead_memWrite_outside s.dmem addr n v a ha, fun _ => rfl, rfl,
    rfl, ⟨rfl, rfl, rfl⟩, ⟨rfl, rfl, rfl, rfl, rfl, rfl, rfl, rfl, rfl⟩⟩
  rw [State.dmemByte, cellRead_memWrite_inside s.dmem addr n v k hwf hk, BitVec.toNat_ofNat]

/-- LD is its check and then a write of the bytes read in the old length of `rd`, or fault entry (R310). -/
theorem exec_ld (rd rs1 : Reg) (imm : Nat) :
    exec (.ld rd rs1 imm) s =
      if s.inDmem (s.ea rs1 imm) (s.getX rd).len then
        writeBack rd { len := (s.getX rd).len, val := memRead s.dmem (s.ea rs1 imm) (s.getX rd).len } s
      else raise causeOobMem (s.ea rs1 imm) (.ld rd rs1 imm) s := rfl

/-- ST is its check and then a store of all bytes of `rt`, or fault entry (R311). -/
theorem exec_st (rt rs1 : Reg) (imm : Nat) :
    exec (.st rt rs1 imm) s =
      if s.inDmem (s.ea rs1 imm) (s.getX rt).len then
        finish { s with dmem := memWrite s.dmem (s.ea rs1 imm) (s.getX rt).len (s.getX rt).val }
      else raise causeOobMem (s.ea rs1 imm) (.st rt rs1 imm) s := rfl

end operations

/-! ## The obligations -/

/-- Settles O55: bytes within DMEM are read into `rd` at its length, an access beyond it raises OOB_MEM. -/
theorem loadReadsLittleEndian : Obligations.LoadReadsLittleEndian := by
  refine ⟨decodesI_of 0x30 .ld (by decide) fun w hop => by simp only [decode, hop], fun s rd rs1 imm => ?_⟩
  dsimp only
  split
  case isTrue hout =>
    rw [exec_ld, State.ea, if_neg fun hin => (s.inDmem_iff _ _).1 hin hout]
    exact raise_takesFault s causeOobMem _ _
  case isFalse hin =>
    rw [exec_ld, State.ea, if_pos ((s.inDmem_iff _ _).2 hin)]
    exact ⟨_, writeBack_completes s rd _, memRead_lt s.dmem _ _, memRead_byte s.dmem _ _⟩

/-- Settles O56: bytes within DMEM are stored and no others, an access beyond it raises OOB_MEM. -/
theorem storeWritesLittleEndian : Obligations.StoreWritesLittleEndian := by
  refine ⟨decodesI_of 0x31 .st (by decide) fun w hop => by simp only [decode, hop], fun s rt rs1 imm hwf => ?_⟩
  dsimp only
  split
  case isTrue hout =>
    rw [exec_st, State.ea, if_neg fun hin => (s.inDmem_iff _ _).1 hin hout]
    exact raise_takesFault s causeOobMem _ _
  case isFalse hin =>
    rw [exec_st, State.ea, if_pos ((s.inDmem_iff _ _).2 hin)]
    exact finish_memWrite_stores s _ _ _ hwf

end Sys2Proof.Machine
end

section
/-! PROOFS. Control transfer (`47_control.md`): the one legal word of a format N opcode, where each instruction goes, and
the obligations about NOP, HALT, JMP, BZ and BNZ (R330 to R334). -/

namespace Sys2Proof.Machine

open Sys2Proof Sys2Proof.Laws

/-! ## Format N -/

/-- Of the words of a format N opcode, only the one whose other bits are all 0 is legal (R103, R105). -/
theorem decode_formatN {op : Nat} {i : Instr} (h : ∀ w, bits w 26 6 = op → decode w = asN w i) {w : Word}
    (hop : w.toNat / 2 ^ 26 = op) :
    decode w = if w = specWord op 0 0 0 0 then .ok i else .error .mustBeZero := by
  have hw := w.isLt
  have hbits : bits w 26 6 = op := by simp only [bits]; omega
  have hspec : (specWord op 0 0 0 0).toNat = op * 2 ^ 26 := by
    simpa using specWord_toNat op 0 0 0 0 (by omega) (by norm_num) (by norm_num) (by norm_num)
  have hzero : bits w 0 26 = 0 ↔ w = specWord op 0 0 0 0 := by
    rw [← BitVec.toNat_inj, hspec]
    simp only [bits]
    omega
  simp only [h w hbits, asN, ifZero, beq_iff_eq, hzero]

theorem decode_nop_opcode {w : Word} (hop : w.toNat / 2 ^ 26 = 1) :
    decode w = if w = 0x04000000#32 then .ok .nop else .error .mustBeZero :=
  decode_formatN (fun w hop => by simp only [decode, hop]) hop

theorem decode_halt_opcode {w : Word} (hop : w.toNat / 2 ^ 26 = 2) :
    decode w = if w = 0x08000000#32 then .ok .halt else .error .mustBeZero :=
  decode_formatN (fun w hop => by simp only [decode, hop]) hop

/-! ## What each instruction does -/

section instructions

variable (s : State) (rs1 : Reg) (off : Int)

/-- NOP completes and does nothing else (R330). -/
theorem exec_nop : exec .nop s = finish s := rfl

/-- HALT completes in HALTED (R331). -/
theorem exec_halt : exec .halt s = finish s.enterHalted := rfl

/-- JMP goes to its target (R332). -/
theorem exec_jmp : exec (.jmp off) s = goto (s.target off) s := rfl

/-- BZ goes to its target for a value of 0 and completes otherwise (R333). -/
theorem exec_bz :
    exec (.bz rs1 off) s = if (s.getX rs1).val = 0 then goto (s.target off) s else finish s := rfl

/-- BNZ completes for a value of 0 and goes to its target otherwise (R334). -/
theorem exec_bnz :
    exec (.bnz rs1 off) s = if (s.getX rs1).val = 0 then finish s else goto (s.target off) s := rfl

end instructions

/-! ## The obligations -/

/-- Settles O58: NOP is a plain completion, JMP a jump to its target. -/
theorem nopAndJump : Obligations.NopAndJump := by
  refine ⟨decode_nop_opcode (by decide), fun w hop hne => ?_,
    decodesJ_of 0x03 .jmp (by decide) fun w hop => by simp only [decode, hop], fun s off => ?_⟩
  · rw [decode_nop_opcode hop, if_neg hne]
  · rw [exec_nop, exec_jmp]
    exact ⟨finish_transfers s, goto_transfers s (s.target off)⟩

/-- Settles O59: HALT changes what entering HALTED changes, and then only pc. -/
theorem haltStopsTheEngine : Obligations.HaltStopsTheEngine := by
  refine ⟨decode_halt_opcode (by decide), fun w hop hne => ?_, fun s => ?_⟩
  · rw [decode_halt_opcode hop, if_neg hne]
  · obtain ⟨t, hnext, hpc, hregs, hovf, htrunc, hdmem, ⟨hstate, hstop, hirq⟩, hrest⟩ := finish_transfers s.enterHalted
    rw [exec_halt]
    exact ⟨t, hnext, hpc, hstate, hirq, hstop, hregs, hdmem, hovf, htrunc, hrest⟩

/-- Settles O60: each branch is a jump to its target or a plain completion, by the register's value. -/
theorem branchOnValue : Obligations.BranchOnValue := by
  refine ⟨decodesB_of 0x04 .bz (by decide) fun w hop => by simp only [decode, hop],
    decodesB_of 0x05 .bnz (by decide) fun w hop => by simp only [decode, hop], fun s rs1 off => ?_⟩
  rw [exec_bz, exec_bnz, ite_not]
  split
  case isTrue hzero => exact ⟨goto_transfers s (s.target off), finish_transfers s⟩
  case isFalse hnonzero => exact ⟨finish_transfers s, goto_transfers s (s.target off)⟩

end Sys2Proof.Machine
end

section
/-! PROOFS. The decoder answers with an instruction only for that instruction's own word (R105), so an illegal word
decodes to none (R103, R104). -/

namespace Sys2Proof.Laws

open Sys2Proof

/-! ## Every encoded word is legal -/

/-- The encoder's words obey the masks of R103; the cases are the formats. -/
theorem wordLegal_encode (i : Instr) : wordLegal (encode i) = true := by
  cases i with
  | nop => exact EncodingLegal.nop
  | halt => exact EncodingLegal.halt
  | jmp off => exact EncodingLegal.jmp off
  | bz | bnz => exact legal_b _ _ _ (by decide) (by decide)
  | new | seti => exact legal_u _ _ _ (by decide) (by decide)
  | cpy | mov | maxv | neg | inc | dec | not => exact legal_r2 _ _ _ (by decide) (by decide)
  | add | sub | mul | div | rem | and | or | xor | shl | shr => exact legal_r3 _ _ _ _ (by decide) (by decide)
  | ceq | cne | clt | cgt | cle | cge | bext | bins => exact legal_r3 _ _ _ _ (by decide) (by decide)
  | shli | shri | bexti | binsi | bgetm | bputm | ld | st => exact legal_i _ _ _ _ (by decide) (by decide)

/-! ## A word from its fields -/

section fields

variable (w : Word)

theorem fieldA_val : (fieldA w).val = w.toNat / 2 ^ 22 % 2 ^ 4 := by
  simp only [fieldA, bits, Fin.ofNat]
  omega

theorem fieldB_val : (fieldB w).val = w.toNat / 2 ^ 18 % 2 ^ 4 := by
  simp only [fieldB, bits, Fin.ofNat]
  omega

theorem fieldC_val : (fieldC w).val = w.toNat / 2 ^ 14 % 2 ^ 4 := by
  simp only [fieldC, bits, Fin.ofNat]
  omega

/-- `off16` undoes `sext_16` (R101). -/
theorem off16_sext16 : off16 (sext16 w) = w.toNat % 2 ^ 16 := by
  rw [sext16_eq w _ rfl]
  unfold off16
  split <;> omega

end fields

/-- What the decoder answers for `w`, if it is an instruction at all, has `w` as its word. -/
def OnlyEncodes (w : Word) (answer : Except IllegalWord Instr) : Prop := ∀ i, answer = .ok i → encode i = w

section formats

variable {w : Word} {op : Nat}

/-- The opcode of a word, with fields that make up its other bits, is the word (R102, R103). -/
theorem wordOf_of_fields {a b c : Reg} {imm : Nat} (hop : bits w 26 6 = op)
    (h : a.val * 2 ^ 22 + b.val * 2 ^ 18 + c.val * 2 ^ 14 + imm % 2 ^ 16 = w.toNat % 2 ^ 26) :
    wordOf op a b c imm = w := by
  have hw := w.isLt
  simp only [bits] at hop
  rw [← BitVec.toNat_inj, wordOf, BitVec.toNat_ofNat]
  omega

theorem onlyEncodes_ifZero {zero : Bool} {i : Instr} (h : zero = true → encode i = w) :
    OnlyEncodes w (ifZero zero i) := by
  intro j hj
  cases zero with
  | true => cases hj; exact h rfl
  | false => cases hj

theorem onlyEncodes_asN {i : Instr} (hop : bits w 26 6 = op) (h : encode i = wordOf op 0 0 0 0) :
    OnlyEncodes w (asN w i) := by
  refine onlyEncodes_ifZero fun hz => h.trans (wordOf_of_fields hop ?_)
  simp only [bits, beq_iff_eq] at hz
  simp only [Fin.val_zero, Nat.zero_mul, Nat.zero_mod]
  omega

theorem onlyEncodes_asR3 {i : Reg → Reg → Reg → Instr} (hop : bits w 26 6 = op)
    (h : ∀ a b c, encode (i a b c) = wordOf op a b c 0) : OnlyEncodes w (asR3 w i) := by
  refine onlyEncodes_ifZero fun hz => (h _ _ _).trans (wordOf_of_fields hop ?_)
  simp only [bits, beq_iff_eq] at hz
  simp only [fieldA_val, fieldB_val, fieldC_val]
  omega

theorem onlyEncodes_asR2 {i : Reg → Reg → Instr} (hop : bits w 26 6 = op)
    (h : ∀ a b, encode (i a b) = wordOf op a b 0 0) : OnlyEncodes w (asR2 w i) := by
  refine onlyEncodes_ifZero fun hz => (h _ _).trans (wordOf_of_fields hop ?_)
  simp only [bits, beq_iff_eq] at hz
  simp only [fieldA_val, fieldB_val, Fin.val_zero]
  omega

theorem onlyEncodes_asI {i : Reg → Reg → Nat → Instr} (hop : bits w 26 6 = op)
    (h : ∀ a b imm, encode (i a b imm) = wordOf op a b 0 imm) : OnlyEncodes w (asI w i) := by
  refine onlyEncodes_ifZero fun hz => (h _ _ _).trans (wordOf_of_fields hop ?_)
  simp only [bits, beq_iff_eq] at hz
  simp only [fieldA_val, fieldB_val, zext16, bits, Fin.val_zero]
  omega

theorem onlyEncodes_asU {i : Reg → Nat → Instr} (hop : bits w 26 6 = op)
    (h : ∀ a imm, encode (i a imm) = wordOf op a 0 0 imm) : OnlyEncodes w (asU w i) := by
  refine onlyEncodes_ifZero fun hz => (h _ _).trans (wordOf_of_fields hop ?_)
  simp only [bits, beq_iff_eq] at hz
  simp only [fieldA_val, zext16, bits, Fin.val_zero]
  omega

theorem onlyEncodes_asB {i : Reg → Int → Instr} (hop : bits w 26 6 = op)
    (h : ∀ b off, encode (i b off) = wordOf op 0 b 0 (off16 off)) : OnlyEncodes w (asB w i) := by
  refine onlyEncodes_ifZero fun hz => (h _ _).trans (wordOf_of_fields hop ?_)
  simp only [bits, beq_iff_eq, Bool.and_eq_true] at hz
  simp only [fieldB_val, off16_sext16, Fin.val_zero]
  omega

theorem onlyEncodes_asJ {i : Int → Instr} (hop : bits w 26 6 = op)
    (h : ∀ off, encode (i off) = wordOf op 0 0 0 (off16 off)) : OnlyEncodes w (asJ w i) := by
  refine onlyEncodes_ifZero fun hz => (h _).trans (wordOf_of_fields hop ?_)
  simp only [bits, beq_iff_eq] at hz
  simp only [off16_sext16, Fin.val_zero]
  omega

end formats

/-- One case for each opcode of R104, in the decoder's order; the last is the reserved opcodes of R106. -/
theorem decode_onlyEncodes (w : Word) : OnlyEncodes w (decode w) := by
  unfold decode
  split
  case h_1 hop | h_2 hop => exact onlyEncodes_asN hop rfl
  case h_3 hop => exact onlyEncodes_asJ hop fun _ => rfl
  case h_4 hop | h_5 hop => exact onlyEncodes_asB hop fun _ _ => rfl
  case h_6 hop | h_7 hop => exact onlyEncodes_asU hop fun _ _ => rfl
  case h_8 hop | h_9 hop | h_10 hop | h_16 hop | h_17 hop | h_18 hop | h_22 hop =>
    exact onlyEncodes_asR2 hop fun _ _ => rfl
  case h_11 hop | h_12 hop | h_13 hop | h_14 hop | h_15 hop | h_19 hop | h_20 hop | h_21 hop | h_23 hop | h_24 hop =>
    exact onlyEncodes_asR3 hop fun _ _ _ => rfl
  case h_27 hop | h_28 hop | h_29 hop | h_30 hop | h_31 hop | h_32 hop | h_33 hop | h_34 hop =>
    exact onlyEncodes_asR3 hop fun _ _ _ => rfl
  case h_25 hop | h_26 hop | h_35 hop | h_36 hop | h_37 hop | h_38 hop | h_39 hop | h_40 hop =>
    exact onlyEncodes_asI hop fun _ _ _ => rfl
  case h_41 => intro i hi; cases hi

/-- A word that decodes is the word of its instruction (R105). -/
theorem encode_of_decode {w : Word} {i : Instr} (h : decode w = .ok i) : encode i = w := decode_onlyEncodes w i h

/-- An illegal word decodes to no instruction (R105): the word of an instruction is legal. -/
theorem decode_of_illegal {w : Word} (h : wordLegal w = false) : ∃ e, decode w = .error e := by
  cases hd : decode w with
  | error e => exact ⟨e, rfl⟩
  | ok i =>
    have hlegal := wordLegal_encode i
    rw [encode_of_decode hd, h] at hlegal
    cases hlegal

end Sys2Proof.Laws
end

section
/-! PROOFS. Exceptions (`60_exceptions.md`): which faults an instruction can raise and which the engine takes before one,
and the obligations about FETCH_OOB, ILLEGAL_INSN and fault entry (R351, R352, R358, R360). -/

namespace Sys2Proof.Machine

open Sys2Proof Sys2Proof.Laws

/-! ## The faults of the instructions -/

/-- The causes that an instruction's own check can raise, with the FAULT_INFO of each (R353 to R356, R60). -/
inductive InstrFault : BitVec 4 → Nat → Prop
  | divByZero : InstrFault causeDivByZero 0
  | oobReg (index : Nat) : InstrFault causeOobReg index
  | oobMem (index : Nat) : InstrFault causeOobMem index
  | badWidth : InstrFault causeBadWidth 0

/-- They are 3 to 6, and FAULT_INFO is 0 for all but OOB_REG and OOB_MEM. -/
theorem InstrFault.codes {cause : BitVec 4} {info : Nat} (h : InstrFault cause info) :
    3 ≤ cause.toNat ∧ cause.toNat ≤ 6 ∧ (cause.toNat ≠ 4 → cause.toNat ≠ 5 → info = 0) := by
  cases h with
  | divByZero | badWidth => exact ⟨by decide, by decide, fun _ _ => rfl⟩
  | oobReg index => exact ⟨by decide, by decide, fun hreg _ => absurd rfl hreg⟩
  | oobMem index => exact ⟨by decide, by decide, fun _ hmem => absurd rfl hmem⟩

/-- The outcomes of an instruction with regard to STATE: it keeps STATE or halts, or it raises one of its faults. -/
inductive EndsOrRaises (i : Instr) (s : State) : Out → Prop
  | ends (t : State) (hstate : t.runState = s.runState ∨ t.runState = .halted) : EndsOrRaises i s (.next t)
  | raises {cause : BitVec 4} {info : Nat} (hfault : InstrFault cause info) : EndsOrRaises i s (raise cause info i s)

/-- The cases are the instructions by their check: none, or the fault that the check raises. -/
theorem exec_endsOrRaises (i : Instr) (s : State) : EndsOrRaises i s (exec i s) := by
  cases i with
  | halt => exact .ends _ (.inr rfl)
  | bz | bnz => exact iteInduction (fun _ => .ends _ (.inl rfl)) (fun _ => .ends _ (.inl rfl))
  | div | rem => exact iteInduction (fun _ => .raises .divByZero) (fun _ => .ends _ (.inl rfl))
  | new => exact iteInduction (fun _ => .raises .badWidth) (fun _ => .ends _ (.inl rfl))
  | bext | bexti | bins | binsi =>
    exact iteInduction (fun _ => .ends _ (.inl rfl)) (fun _ => .raises (.oobReg _))
  | bgetm | bputm | ld | st => exact iteInduction (fun _ => .ends _ (.inl rfl)) (fun _ => .raises (.oobMem _))
  | nop | jmp | seti | cpy | mov | maxv => exact .ends _ (.inl rfl)
  | add | sub | mul | neg | inc | dec => exact .ends _ (.inl rfl)
  | ceq | cne | clt | cgt | cle | cge => exact .ends _ (.inl rfl)
  | and | or | xor | not | shl | shr | shli | shri => exact .ends _ (.inl rfl)

/-- A running instruction that ends in FAULTED raised one of its faults. -/
theorem exec_faulted {i : Instr} {s t : State} (hrun : s.runState = .running) (h : exec i s = .next t)
    (hfaulted : t.runState = .faulted) : ∃ cause info, InstrFault cause info ∧ exec i s = raise cause info i s := by
  have hends := exec_endsOrRaises i s
  generalize ho : exec i s = o at hends
  cases hends with
  | ends t' hstate =>
    cases ho.symm.trans h
    simp [hfaulted, hrun] at hstate
  | raises hfault => exact ⟨_, _, hfault, rfl⟩

/-! ## The faults of fetch and decode -/

section engine

variable {s t : State}

/-- Fetching comes first (R358): beyond IMEM it is FETCH_OOB, whatever IMEM holds (R352). -/
theorem engineStep_fetchOob (hrun : s.runState = .running) (hstop : s.stopReq = false)
    (hpc : s.params.imemWords ≤ s.pc.toNat) : engineStep s = .next (s.faultEntry causeFetchOob 0#32 0) := by
  simp [engineStep, State.fetchOob, hrun, hstop, hpc]

/-- Decoding comes second (R358): an illegal word is ILLEGAL_INSN (R351). -/
theorem engineStep_illegal (hrun : s.runState = .running) (hstop : s.stopReq = false)
    (hpc : ¬ s.params.imemWords ≤ s.pc.toNat) (hillegal : wordLegal s.fetched = false) :
    engineStep s = .next (s.faultEntry causeIllegalInsn s.fetched 0) := by
  obtain ⟨e, he⟩ := decode_of_illegal hillegal
  simp [engineStep, State.fetchOob, runWord, hrun, hstop, hpc, he]

/-- The word that the engine fetches on its turn. -/
theorem EngineTurnAt.fetched {u : State} (h : EngineTurnAt s u) : u.fetched = s.imemWord s.pc.toNat := by
  obtain ⟨-, -, hpc, -, himem⟩ := h.fields
  rw [State.fetched, State.imemWord, hpc, himem, ← State.imemWord]

/-- Fault entry, with what CAUSE, FAULT_INSN and FAULT_INFO can be (R350, R59, R60). -/
def EntersFault (s : State) (insn : Word) (o : Out) : Prop :=
  ∃ cause info, 1 ≤ cause ∧ cause ≤ 6 ∧ (cause ≠ 4 → cause ≠ 5 → info = 0) ∧
    TakesFault s o cause (if cause = 2 then 0#32 else insn) info

theorem exec_entersFault {i : Instr} (hrun : s.runState = .running) (h : exec i s = .next t)
    (hfaulted : t.runState = .faulted) : EntersFault s (encode i) (exec i s) := by
  obtain ⟨cause, info, hfault, hraise⟩ := exec_faulted hrun h hfaulted
  obtain ⟨hlow, hhigh, hinfo⟩ := hfault.codes
  refine ⟨cause.toNat, info, by omega, hhigh, hinfo, ?_⟩
  rw [hraise, if_neg (by omega)]
  exact raise_takesFault s cause info i

theorem runWord_entersFault {insn : Word} (hrun : s.runState = .running) (h : runWord insn s = .next t)
    (hfaulted : t.runState = .faulted) : EntersFault s insn (runWord insn s) := by
  rcases runWord_cases s insn with ⟨i, hdecode, hexec⟩ | ⟨e, -, hillegal⟩
  · rw [hexec] at h ⊢
    rw [← encode_of_decode hdecode]
    exact exec_entersFault hrun h hfaulted
  · rw [hillegal]
    exact ⟨1, 0, by decide, by decide, fun _ _ => rfl, faultEntry_takesFault s causeIllegalInsn insn 0⟩

theorem engineStep_entersFault (hrun : s.runState = .running) (h : engineStep s = .next t)
    (hfaulted : t.runState = .faulted) : EntersFault s s.fetched (engineStep s) := by
  rcases engineStep_cases s with ⟨hidle, -⟩ | ⟨-, -, hstop⟩ | ⟨-, -, -, hoob⟩ | ⟨-, -, -, hword⟩
  · exact absurd hrun hidle
  · cases hstop.symm.trans h
    cases hfaulted
  · rw [hoob]
    exact ⟨2, 0, by decide, by decide, fun _ _ => rfl, faultEntry_takesFault s causeFetchOob 0#32 0⟩
  · rw [hword] at h ⊢
    exact runWord_entersFault hrun h hfaulted

end engine

/-! ## The obligations -/

/-- Settles O6: the two fault entries of the engine's step, in the order of R358. -/
theorem fetchAndDecodeFaults : Obligations.FetchAndDecodeFaults := by
  intro s u hturn hrun hstop
  obtain ⟨hstate, hreq, hpc, hparams, -⟩ := hturn.fields
  have hrun' := hstate.trans hrun
  have hstop' := hreq.trans hstop
  rw [step_engineTurnAt s hturn, ← hturn.fetched, ← hpc, ← hparams]
  split
  case isTrue hbeyond =>
    rw [engineStep_fetchOob hrun' hstop' hbeyond]
    exact faultEntry_takesFault u causeFetchOob 0#32 0
  case isFalse hinside =>
    split
    case isTrue hillegal =>
      rw [engineStep_illegal hrun' hstop' hinside hillegal]
      exact faultEntry_takesFault u causeIllegalInsn u.fetched 0
    case isFalse => trivial

/-- Settles O8: the engine's step from `u`, the state with its turn taken off the list. -/
theorem everyFaultIsFaultEntry : Obligations.EveryFaultIsFaultEntry := by
  intro s u t hturn hrun hstep hfaulted
  rw [step_engineTurnAt s hturn] at hstep ⊢
  rw [← hturn.fetched]
  exact engineStep_entersFault (hturn.fields.1.trans hrun) hstep hfaulted

end Sys2Proof.Machine
end

section
/-! PROOFS. Reset and host-side hazards (`70_reset_and_hazards.md`): what both resets set and what the constant registers
then read (R400, R402), and the engine's lockout of the host (R421). -/

namespace Sys2Proof.Machine

open Sys2Proof

/-! ## The reset values -/

/-- Every register is (0, 0) in a state with the reset register file (R36). -/
theorem State.getX_of_resetRegs {t : State} (h : t.regs = resetRegs) (r : Reg) : t.getX r = { len := 0, val := 0 } := by
  rw [State.getX, h]
  split
  · rfl
  · exact Vector.getElem_replicate r.isLt

/-- What both resets build has the reset values, with any parameters, memories and outside world (R400). -/
theorem hasResetValues_resetWith (c : Config) (im : List (Nat × Word)) (dm : List Host.Cell) (events : List Event)
    (answer : Option Word) :
    HasResetValues { State.resetWith c im dm with events := events, answer := answer } :=
  ⟨State.getX_of_resetRegs rfl, rfl, rfl, rfl, rfl, rfl, rfl, rfl, rfl, rfl, rfl, rfl, rfl⟩

theorem State.hardReset_hasResetValues (s : State) (im : List (Nat × Word)) (dm : List Host.Cell) :
    HasResetValues (s.hardReset im dm) :=
  hasResetValues_resetWith _ _ _ _ _

theorem State.softReset_hasResetValues (s : State) : HasResetValues s.softReset :=
  hasResetValues_resetWith _ _ _ _ _

/-! ## The constant registers -/

/-- ID reads its constant in every state (R51). -/
theorem State.hostRead_id (s : State) : s.hostRead 0#18 = 0x4C425631#32 :=
  s.hostRead_readOnly 0#18 (by decide) (.inl rfl)

/-- A location that is never locked reads what it holds, so two states that agree there read the same. -/
theorem State.hostRead_congr {s t : State} {a : HostAddr} {l : HostLoc} (ha : locate a = l) (hl : l.locked = false)
    (hloc : t.locRead l = s.locRead l) : t.hostRead a = s.hostRead a := by
  rw [State.hostRead_unlocked ha hl, State.hostRead_unlocked ha hl, hloc]

/-- PARAM0 to PARAM2 read the parameters and nothing else of the state (R52). -/
theorem State.hostRead_params_congr {s t : State} (h : t.params = s.params) :
    t.hostRead 0x20#18 = s.hostRead 0x20#18 ∧ t.hostRead 0x24#18 = s.hostRead 0x24#18 ∧
      t.hostRead 0x28#18 = s.hostRead 0x28#18 := by
  have h0 : t.locRead .param0 = s.locRead .param0 := by simp only [State.locRead, State.param0Word, h]
  have h1 : t.locRead .param1 = s.locRead .param1 := by simp only [State.locRead, h]
  have h2 : t.locRead .param2 = s.locRead .param2 := by simp only [State.locRead, h]
  exact ⟨State.hostRead_congr rfl rfl h0, State.hostRead_congr rfl rfl h1, State.hostRead_congr rfl rfl h2⟩

/-! ## Lockout -/

/-- A location the host is locked out of, or a reserved one, is RAZ/WI while the engine runs (R421, R64). -/
theorem State.host_closed_while_running {s : State} {a : HostAddr} (w : Word) (hr : s.runState = .running)
    (h : (locate a).locked = true ∨ locate a = .reserved) : s.hostRead a = 0#32 ∧ s.hostWrite a w = s := by
  rcases h with hlocked | hreserved
  · exact ⟨State.hostRead_locked rfl hr hlocked, State.hostWrite_locked w rfl hr hlocked⟩
  · exact State.host_reserved w hreserved

/-! ## The obligations -/

/-- Settles O19: PC is locked, and every word of the windows is locked or reserved. -/
theorem hostIsLockedOutWhileRunning : Obligations.HostIsLockedOutWhileRunning := by
  intro s a w hr ha
  refine State.host_closed_while_running w hr ?_
  rcases ha with ⟨hlo, hhi⟩ | ⟨hlo, -⟩ | ⟨hlo, -⟩
  · exact .inl (by rw [locate_pc a (by omega)]; rfl)
  · exact locate_locked_or_reserved a hlo
  · exact locate_locked_or_reserved a (by omega)

/-- Settles O12: the step is the hardware reset, which keeps the parameters. -/
theorem hardwareResetValues : Obligations.HardwareResetValues := by
  refine ⟨fun s rest im dm hev => ?_, hasResetValues_resetWith _ _ _ _ _⟩
  have hparams : ({ s with events := rest }.hardReset im dm).params = s.params := State.hardReset_params _ im dm
  exact ⟨_, step_event s _ rest hev, State.hardReset_hasResetValues _ im dm, hparams, State.hostRead_id _,
    State.hostRead_params_congr hparams⟩

/-- Settles O13: CTRL is never locked, and bit 2 makes the write a soft reset whatever its other bits. -/
theorem softResetKeepsTheMemories : Obligations.SoftResetKeepsTheMemories := by
  intro s w hw
  have hreset : s.hostWrite 4#18 w = s.softReset :=
    (State.hostWrite_unlocked w (locate_ctrl _ rfl) rfl).trans (s.writeCtrl_reset hw)
  rw [hreset]
  exact ⟨s.softReset_hasResetValues, rfl, rfl, rfl⟩

end Sys2Proof.Machine
end

section
/-! PROOFS. The encoder and the decoder: a well-formed instruction's word decodes to it, and the decoder accepts exactly
the legal words (R101 to R105). -/

namespace Sys2Proof.Laws

open Sys2Proof Sys2Proof.Machine

/-! ## From an instruction to its word and back -/

section words

variable {op : Nat}

theorem decode_wordOf_r3 {i : Reg → Reg → Reg → Instr} (a b c : Reg) (hop : op < 64)
    (h : ∀ w, bits w 26 6 = op → decode w = asR3 w i) : decode (wordOf op a b c 0) = .ok (i a b c) :=
  decodesR3_of op i hop h a b c

theorem decode_wordOf_r2 {i : Reg → Reg → Instr} (a b : Reg) (hop : op < 64)
    (h : ∀ w, bits w 26 6 = op → decode w = asR2 w i) : decode (wordOf op a b 0 0) = .ok (i a b) :=
  decodesR2_of op i hop h a b

/-- An immediate that the field holds is the field (R101). -/
theorem mod_of_immOk {imm : Nat} (h : immOk imm = true) : imm % 2 ^ 16 = imm :=
  Nat.mod_eq_of_lt (of_decide_eq_true h)

theorem decode_wordOf_i {i : Reg → Reg → Nat → Instr} (a b : Reg) {imm : Nat} (himm : immOk imm = true)
    (hop : op < 64) (h : ∀ w, bits w 26 6 = op → decode w = asI w i) :
    decode (wordOf op a b 0 imm) = .ok (i a b imm) := by
  rw [wordOf_eq_specWord, mod_of_immOk himm]
  exact decodesI_of op i hop h a b imm (of_decide_eq_true himm)

theorem decode_wordOf_u {i : Reg → Nat → Instr} (a : Reg) {imm : Nat} (himm : immOk imm = true)
    (hop : op < 64) (h : ∀ w, bits w 26 6 = op → decode w = asU w i) :
    decode (wordOf op a 0 0 imm) = .ok (i a imm) := by
  rw [wordOf_eq_specWord, mod_of_immOk himm]
  exact decodesU_of op i hop h a imm (of_decide_eq_true himm)

/-- Reading the 16 bits of an offset in range as a signed number gives the offset (R17, R101). -/
theorem signed_off16 {off : Int} (h : offOk off = true) :
    (if 2 ^ 15 ≤ off16 off % 2 ^ 16 then ((off16 off % 2 ^ 16 : Nat) : Int) - 65536 else (off16 off % 2 ^ 16 : Nat)) =
      off := by
  simp only [offOk, Bool.and_eq_true, decide_eq_true_eq] at h
  unfold off16
  split <;> omega

theorem decode_wordOf_b {i : Reg → Int → Instr} (b : Reg) {off : Int} (hoff : offOk off = true)
    (hop : op < 64) (h : ∀ w, bits w 26 6 = op → decode w = asB w i) :
    decode (wordOf op 0 b 0 (off16 off)) = .ok (i b off) := by
  rw [wordOf_eq_specWord]
  exact (decodesB_of op i hop h b _ (Nat.mod_lt _ (by decide))).trans (by rw [signed_off16 hoff])

theorem decode_wordOf_j {i : Int → Instr} {off : Int} (hoff : offOk off = true)
    (hop : op < 64) (h : ∀ w, bits w 26 6 = op → decode w = asJ w i) :
    decode (wordOf op 0 0 0 (off16 off)) = .ok (i off) := by
  rw [wordOf_eq_specWord]
  exact (decodesJ_of op i hop h _ (Nat.mod_lt _ (by decide))).trans (by rw [signed_off16 hoff])

end words

/-- The cases are the formats of R103; each opcode's arm of the decoder reads that format. -/
theorem decode_encode {i : Instr} (hwf : i.wf = true) : decode (encode i) = .ok i := by
  cases i with
  | nop => exact decode_nop_opcode (by decide)
  | halt => exact decode_halt_opcode (by decide)
  | jmp => exact decode_wordOf_j hwf (by decide) fun w hop => by simp only [decode, hop]
  | bz | bnz => exact decode_wordOf_b _ hwf (by decide) fun w hop => by simp only [decode, hop]
  | new | seti => exact decode_wordOf_u _ hwf (by decide) fun w hop => by simp only [decode, hop]
  | cpy | mov | maxv | neg | inc | dec | not =>
    exact decode_wordOf_r2 _ _ (by decide) fun w hop => by simp only [decode, hop]
  | add | sub | mul | div | rem | and | or | xor | shl | shr =>
    exact decode_wordOf_r3 _ _ _ (by decide) fun w hop => by simp only [decode, hop]
  | ceq | cne | clt | cgt | cle | cge | bext | bins =>
    exact decode_wordOf_r3 _ _ _ (by decide) fun w hop => by simp only [decode, hop]
  | shli | shri | bexti | binsi | bgetm | bputm | ld | st =>
    exact decode_wordOf_i _ _ hwf (by decide) fun w hop => by simp only [decode, hop]

theorem decode_of_encode_eq {w : Word} {i : Instr} (hword : encode i = w) (hwf : i.wf = true) : decode w = .ok i :=
  hword ▸ decode_encode hwf

/-! ## The operands a word can hold -/

theorem immOk_zext16 (w : Word) : immOk (zext16 w) = true :=
  decide_eq_true (Nat.mod_lt _ (by decide))

theorem offOk_sext16 (w : Word) : offOk (sext16 w) = true := by
  have hlt : w.toNat % 2 ^ 16 < 2 ^ 16 := Nat.mod_lt _ (by decide)
  rw [sext16_eq w _ rfl]
  simp only [offOk, Bool.and_eq_true, decide_eq_true_eq]
  split <;> omega

/-- What the decoder answers, if it is an instruction at all, is well formed. -/
def OnlyWellFormed (answer : Except IllegalWord Instr) : Prop := ∀ i, answer = .ok i → i.wf = true

theorem onlyWellFormed_ifZero {zero : Bool} {i : Instr} (h : i.wf = true) : OnlyWellFormed (ifZero zero i) := by
  intro j hj
  cases zero with
  | true => cases hj; exact h
  | false => cases hj

/-- One case for each opcode of R104, in the decoder's order: its operands are registers, `zext_16` or `sext_16`. -/
theorem decode_onlyWellFormed (w : Word) : OnlyWellFormed (decode w) := by
  unfold decode
  split
  case h_3 | h_4 | h_5 => exact onlyWellFormed_ifZero (offOk_sext16 w)
  case h_6 | h_7 | h_25 | h_26 | h_35 | h_36 | h_37 | h_38 | h_39 | h_40 =>
    exact onlyWellFormed_ifZero (immOk_zext16 w)
  case h_41 => intro i hi; cases hi
  all_goals exact onlyWellFormed_ifZero rfl

/-! ## The masks are the must-be-zero fields -/

section masks

variable {w : Word} {op : Nat} {f : Format}

/-- A legal word obeys the mask of its opcode's format. -/
theorem mask_of_wordLegal (hop : bits w 26 6 = op) (hf : formatOf op = some f) (h : wordLegal w = true) :
    w &&& f.mask = BitVec.ofNat 32 (op * 2 ^ 26) := by
  have hw := w.isLt
  have hdiv : w.toNat / 2 ^ 26 = op := by simp only [bits] at hop; omega
  simpa only [wordLegal, hdiv, hf, decide_eq_true_eq] using h

/-- A field below the opcode that the mask covers is zero in a legal word (R103, R105). -/
theorem bits_of_wordLegal (lo n : Nat) (hop : bits w 26 6 = op) (hf : formatOf op = some f) (h : wordLegal w = true)
    (hmask : ∀ k, k < n → f.mask.getLsbD (lo + k) = true) (hlow : lo + n ≤ 26) : bits w lo n = 0 := by
  have hword := mask_of_wordLegal hop hf h
  refine Nat.zero_of_testBit_eq_false fun k => ?_
  rw [bits, Nat.testBit_mod_two_pow, Nat.testBit_div_two_pow, Nat.add_comm k lo]
  by_cases hk : k < n
  · have hbit := congrArg (BitVec.getLsbD · (lo + k)) hword
    simp only [BitVec.getLsbD_and, hmask k hk, Bool.and_true, BitVec.getLsbD_ofNat, Nat.testBit_mul_two_pow,
      show ¬ 26 ≤ lo + k by omega, decide_false, Bool.false_and, Bool.and_false] at hbit
    rw [← BitVec.testBit_toNat] at hbit
    simp [hbit]
  · simp [hk]

/-- The decoder accepts. -/
def Accepted (answer : Except IllegalWord Instr) : Prop := ∃ i, answer = .ok i

theorem accepted_ifZero {zero : Bool} {i : Instr} (h : zero = true) : Accepted (ifZero zero i) :=
  ⟨i, if_pos h⟩

theorem accepted_asN {i : Instr} (hop : bits w 26 6 = op) (hf : formatOf op = some .n) (h : wordLegal w = true) :
    Accepted (asN w i) :=
  accepted_ifZero (beq_of_eq (bits_of_wordLegal 0 26 hop hf h (by decide) (by decide)))

theorem accepted_asR3 {i : Reg → Reg → Reg → Instr} (hop : bits w 26 6 = op) (hf : formatOf op = some .r3)
    (h : wordLegal w = true) : Accepted (asR3 w i) :=
  accepted_ifZero (beq_of_eq (bits_of_wordLegal 0 14 hop hf h (by decide) (by decide)))

theorem accepted_asR2 {i : Reg → Reg → Instr} (hop : bits w 26 6 = op) (hf : formatOf op = some .r2)
    (h : wordLegal w = true) : Accepted (asR2 w i) :=
  accepted_ifZero (beq_of_eq (bits_of_wordLegal 0 18 hop hf h (by decide) (by decide)))

/-- Formats I and S have one mask. -/
theorem accepted_asI {i : Reg → Reg → Nat → Instr} (hop : bits w 26 6 = op) (hf : formatOf op = some f)
    (hmask : ∀ k, k < 2 → f.mask.getLsbD (16 + k) = true) (h : wordLegal w = true) : Accepted (asI w i) :=
  accepted_ifZero (beq_of_eq (bits_of_wordLegal 16 2 hop hf h hmask (by decide)))

theorem accepted_asU {i : Reg → Nat → Instr} (hop : bits w 26 6 = op) (hf : formatOf op = some .u)
    (h : wordLegal w = true) : Accepted (asU w i) :=
  accepted_ifZero (beq_of_eq (bits_of_wordLegal 16 6 hop hf h (by decide) (by decide)))

theorem accepted_asB {i : Reg → Int → Instr} (hop : bits w 26 6 = op) (hf : formatOf op = some .b)
    (h : wordLegal w = true) : Accepted (asB w i) := by
  have hhigh := bits_of_wordLegal 22 4 hop hf h (by decide) (by decide)
  have hlow := bits_of_wordLegal 16 2 hop hf h (by decide) (by decide)
  exact accepted_ifZero (by rw [hhigh, hlow]; rfl)

theorem accepted_asJ {i : Int → Instr} (hop : bits w 26 6 = op) (hf : formatOf op = some .j)
    (h : wordLegal w = true) : Accepted (asJ w i) :=
  accepted_ifZero (beq_of_eq (bits_of_wordLegal 16 10 hop hf h (by decide) (by decide)))

end masks

/-- A legal word has an assigned opcode (R104, R106). -/
theorem formatOf_of_wordLegal {w : Word} (h : wordLegal w = true) : formatOf (bits w 26 6) ≠ none := by
  have hw := w.isLt
  have hdiv : w.toNat / 2 ^ 26 = bits w 26 6 := by simp only [bits]; omega
  intro hnone
  simp only [wordLegal, hdiv, hnone, Bool.false_eq_true] at h

/-- One case for each opcode of R104, in the decoder's order; the last is the reserved opcodes of R106. -/
theorem decode_accepts {w : Word} (h : wordLegal w = true) : Accepted (decode w) := by
  have hassigned := formatOf_of_wordLegal h
  unfold decode
  split
  case h_1 hop | h_2 hop => exact accepted_asN hop (by decide) h
  case h_3 hop => exact accepted_asJ hop (by decide) h
  case h_4 hop | h_5 hop => exact accepted_asB hop (by decide) h
  case h_6 hop | h_7 hop => exact accepted_asU hop (by decide) h
  case h_8 hop | h_9 hop | h_10 hop | h_16 hop | h_17 hop | h_18 hop | h_22 hop =>
    exact accepted_asR2 hop (by decide) h
  case h_25 hop | h_26 hop | h_35 hop | h_36 hop | h_37 hop | h_39 hop =>
    exact accepted_asI (f := .i) hop (by decide) (by decide) h
  case h_38 hop | h_40 hop => exact accepted_asI (f := .s) hop (by decide) (by decide) h
  case h_41 =>
    simp only [imp_false] at *
    exact absurd (by simp [formatOf, *]) hassigned
  case h_11 hop | h_12 hop | h_13 hop | h_14 hop | h_15 hop | h_19 hop | h_20 hop | h_21 hop | h_23 hop | h_24 hop =>
    exact accepted_asR3 hop (by decide) h
  case h_27 hop | h_28 hop | h_29 hop | h_30 hop | h_31 hop | h_32 hop | h_33 hop | h_34 hop =>
    exact accepted_asR3 hop (by decide) h

/-! ## The obligations -/

/-- Settles O1, from one lemma per format. -/
theorem decodeOfEncode : Obligations.DecodeOfEncode := fun _ hwf => decode_encode hwf

/-- Settles O2: the word is the instruction's own, and its fields hold only well-formed operands. -/
theorem encodeOfDecode : Obligations.EncodeOfDecode := fun w i h =>
  ⟨encode_of_decode h, decode_onlyWellFormed w i h⟩

/-- Settles O3: an accepted word is the word of an instruction, which is legal, and a legal word's must-be-zero fields
are zero. -/
theorem decoderAcceptsExactlyLegalWords : Obligations.DecoderAcceptsExactlyLegalWords := by
  refine fun w => ⟨fun ⟨i, hi⟩ => ?_, decode_accepts⟩
  rw [← encode_of_decode hi]
  exact wordLegal_encode i

/-- Settles O4: each legal sample is the word that the encoder gives for its instruction. -/
theorem sampleWordsDecode : Obligations.SampleWordsDecode := by
  refine ⟨?_, ?_, ?_, ?_, ?_, ?_, ?_, ?_, ?_, ?_, ?_, ?_, by decide, by decide⟩
  all_goals exact decode_of_encode_eq (by decide) (by decide)

end Sys2Proof.Laws
end

section
/-! PROOFS. What every instruction leaves alone: its frame and the sticky flags (R34, R45 to R47, R85, R108). -/

namespace Sys2Proof.Machine

open Sys2Proof

/-- Settles O16: the cases are the ways an instruction can end. -/
theorem instructionFrame : Obligations.InstructionFrame := by
  intro i s t h
  have hends := exec_ends i s
  rw [h] at hends
  generalize ho : Host.Outcome.next t = o at hends
  cases hends with
  | writes rd v ovf trunc hdest =>
    rw [writeBack_next ho.symm]
    have hother : ∀ r, destOf i ≠ some r → r ≠ rd := fun r hr heq => hr (heq ▸ hdest)
    exact ⟨rfl, rfl, rfl, rfl, rfl,
      fun r hr => State.getX_setX_ne { s with ovf := ovf, trunc := trunc } v (hother r hr), fun _ _ => rfl⟩
  | stores m hmay =>
    cases ho
    exact ⟨rfl, rfl, rfl, rfl, rfl, fun _ _ => rfl, fun hnot => by simp [hmay] at hnot⟩
  | transfers | halts | faults =>
    cases ho
    exact ⟨rfl, rfl, rfl, rfl, rfl, fun _ _ => rfl, fun _ _ => rfl⟩

/-! ## The sticky flags -/

/-- The outcomes of an instruction with regard to OVF and TRUNC: it keeps both, or it is one that may set the flag
which it leaves as it was or sets. -/
inductive FlagsStick (i : Instr) (s : State) : Out → Prop
  | keeps (t : State) (hovf : t.ovf = s.ovf) (htrunc : t.trunc = s.trunc) : FlagsStick i s (.next t)
  | sticksOvf (rd : Reg) (v : Vui) (c : Bool) (hmay : maySetOvf i = true) :
      FlagsStick i s (writeBack rd v (s.stickOvf c))
  | sticksTrunc (rd : Reg) (v : Vui) (c : Bool) (hmay : maySetTrunc i = true) :
      FlagsStick i s (writeBack rd v (s.stickTrunc c))

/-- The cases are the instructions by their flag: OVF, TRUNC or none, with or without a check. -/
theorem exec_flagsStick (i : Instr) (s : State) : FlagsStick i s (exec i s) := by
  cases i with
  | add | mul | inc => exact .sticksOvf _ _ _ rfl
  | seti => exact .sticksTrunc _ _ _ rfl
  | bz | bnz => exact iteInduction (fun _ => .keeps _ rfl rfl) (fun _ => .keeps _ rfl rfl)
  | new | div | rem => exact iteInduction (fun _ => .keeps _ rfl rfl) (fun _ => .keeps _ rfl rfl)
  | bext | bexti | bins | binsi | bgetm | bputm =>
    exact iteInduction (fun _ => .keeps _ rfl rfl) (fun _ => .keeps _ rfl rfl)
  | ld | st => exact iteInduction (fun _ => .keeps _ rfl rfl) (fun _ => .keeps _ rfl rfl)
  | nop | halt | jmp | cpy | mov | maxv | sub | neg | dec => exact .keeps _ rfl rfl
  | ceq | cne | clt | cgt | cle | cge => exact .keeps _ rfl rfl
  | and | or | xor | not | shl | shr | shli | shri => exact .keeps _ rfl rfl

/-- Settles O17: a flag is kept, or left or set by an instruction that may set it. -/
theorem flagsAreSticky : Obligations.FlagsAreSticky := by
  intro i s t h
  have hflags := exec_flagsStick i s
  rw [h] at hflags
  generalize ho : Host.Outcome.next t = o at hflags
  cases hflags with
  | keeps t' hovf htrunc =>
    cases ho
    exact ⟨hovf.trans, htrunc.trans, fun _ => hovf, fun _ => htrunc⟩
  | sticksOvf rd v c hmay =>
    rw [writeBack_next ho.symm]
    exact ⟨fun hset => by simp [hset], id, fun hnot => by simp [hmay] at hnot, fun _ => rfl⟩
  | sticksTrunc rd v c hmay =>
    rw [writeBack_next ho.symm]
    exact ⟨id, fun hset => by simp [hset], fun _ => rfl, fun hnot => by simp [hmay] at hnot⟩

end Sys2Proof.Machine
end

section
/-! PROOFS. The invariant: reset meets it, and every step of the machine keeps it (R31, R33, R42, R43, R57). -/

namespace Sys2Proof.Machine

open Sys2Proof

/-! ## Reset -/

/-- A reset state meets the invariant if its parameters are legal and its memories canonical. -/
theorem resetWith_inv {c : Config} {im : List (Nat × Word)} {dm : List Host.Cell} (hc : c.legal = true)
    (him : Memory.wf im = true ∧ Memory.within c.imemWords im = true)
    (hdm : Memory.wf dm = true ∧ Memory.within c.dmemBytes dm = true) : (State.resetWith c im dm).Inv := by
  have hreg : ∀ r : Reg, (resetRegs.get r) = { len := 0, val := 0 } := fun r => Vector.getElem_replicate r.isLt
  have hzero : ({ len := 0, val := 0 } : Vui).fits c.maxl = true :=
    (Vui.fits_iff _ _).2 ⟨Nat.zero_le _, modulus_pos 0⟩
  refine ⟨hc, ?_, ?_, rfl, rfl⟩
  · simp only [State.regsOk, State.resetWith, hreg, hzero, implies_true, decide_true, Bool.and_self]
  · simp only [State.memoriesOk, State.resetWith, him.1, him.2, hdm.1, hdm.2, Bool.and_self]

/-- Settles O14: memories loaded with any contents are canonical. -/
theorem resetMeetsTheInvariant : Obligations.ResetMeetsTheInvariant :=
  ⟨resetWith_inv (by decide) ⟨rfl, rfl⟩ ⟨rfl, rfl⟩,
    fun _ _ _ hc => resetWith_inv hc (cellsLoad_ok _ _) (cellsLoad_ok _ _)⟩

/-! ## The results fit their lengths -/

section results

variable {m : Nat} {a b : Vui}

/-- A result of the wider length fits it if it is no greater than an operand (R218, R220, R280). -/
theorem fits_wider {v : Nat} (ha : a.fits m = true) (hb : b.fits m = true)
    (hv : v < modulus (wider a b)) : ({ len := wider a b, val := v } : Vui).fits m = true :=
  (Vui.fits_iff _ _).2 ⟨wider_le ((Vui.fits_iff _ _).1 ha).1 ((Vui.fits_iff _ _).1 hb).1, hv⟩

theorem aluDiv_fits (ha : a.fits m = true) (hb : b.fits m = true) : (aluDiv a b).fits m = true :=
  fits_wider ha hb ((Nat.div_le_self _ _).trans_lt (val_lt_wider_left b ((Vui.fits_iff _ _).1 ha).2))

theorem aluRem_fits (ha : a.fits m = true) (hb : b.fits m = true) : (aluRem a b).fits m = true :=
  fits_wider ha hb ((Nat.mod_le _ _).trans_lt (val_lt_wider_left b ((Vui.fits_iff _ _).1 ha).2))

theorem aluAnd_fits (ha : a.fits m = true) (hb : b.fits m = true) : (aluAnd a b).fits m = true :=
  fits_wider ha hb (Nat.and_le_left.trans_lt (val_lt_wider_left b ((Vui.fits_iff _ _).1 ha).2))

theorem aluOr_fits (ha : a.fits m = true) (hb : b.fits m = true) : (aluOr a b).fits m = true :=
  fits_wider ha hb (Nat.or_lt_two_pow (val_lt_wider_left b ((Vui.fits_iff _ _).1 ha).2)
    (val_lt_wider_right a ((Vui.fits_iff _ _).1 hb).2))

theorem aluXor_fits (ha : a.fits m = true) (hb : b.fits m = true) : (aluXor a b).fits m = true :=
  fits_wider ha hb (Nat.xor_lt_two_pow (val_lt_wider_left b ((Vui.fits_iff _ _).1 ha).2)
    (val_lt_wider_right a ((Vui.fits_iff _ _).1 hb).2))

theorem aluNot_fits (ha : a.fits m = true) : (aluNot a).fits m = true :=
  (Vui.fits_iff _ _).2 ⟨((Vui.fits_iff _ _).1 ha).1, by have := modulus_pos a.len; simp only [aluNot]; omega⟩

theorem aluMaxv_fits (ha : a.fits m = true) : (aluMaxv a).fits m = true :=
  (Vui.fits_iff _ _).2 ⟨((Vui.fits_iff _ _).1 ha).1, Nat.sub_one_lt (modulus_pos a.len).ne'⟩

theorem aluMov_fits (ha : a.fits m = true) (hb : b.fits m = true) : (aluMov a b).fits m = true :=
  fits_wider ha hb (val_lt_wider_right a ((Vui.fits_iff _ _).1 hb).2)

theorem aluBins_fits {i : Nat} (c : Nat) (ha : a.fits m = true) (hi : a.hasBit i = true) :
    (aluBins a i (c % 2)).fits m = true := by
  rw [Vui.fits_iff] at ha ⊢
  exact ⟨ha.1, setBitOf_lt _ i _ _ ha.2 (of_decide_eq_true hi) (Nat.mod_lt _ two_pos)⟩

/-- A LEN write of an accepted length (R61). -/
theorem Vui.resize_fits {w : Nat} (hw : w ≤ m) : (a.resize w).fits m = true :=
  (Vui.fits_iff _ _).2 ⟨hw, Nat.mod_lt _ (modulus_pos w)⟩

/-- A limb that exists, replaced: the new limb on the limbs below it, under the limbs above it (R15, R61). -/
theorem Vui.setLimb_of_lt {k : Nat} (y : Byte) (hk : k < a.len) :
    a.setLimb k y =
      { len := a.len,
        val := (256 * (a.val / 2 ^ (8 * (k + 1))) + y.toNat) * 2 ^ (8 * k) + a.val % 2 ^ (8 * k) } := by
  have hpow : 2 ^ (8 * (k + 1)) = 256 * 2 ^ (8 * k) := by rw [Nat.mul_succ, Nat.pow_add, Nat.mul_comm]
  rw [Vui.setLimb, if_pos hk, Nat.add_mul, hpow, ← Nat.mul_assoc, Nat.mul_comm _ 256]

theorem Vui.setLimb_of_le {k : Nat} (y : Byte) (hk : a.len ≤ k) : a.setLimb k y = a := if_neg (not_lt.2 hk)

theorem Vui.setLimb_fits (k : Nat) (y : Byte) (ha : a.fits m = true) : (a.setLimb k y).fits m = true := by
  rcases Nat.lt_or_ge k a.len with hk | hk
  case inr => rwa [Vui.setLimb_of_le y hk]
  rw [Vui.fits_iff] at ha
  obtain ⟨hlen, hval⟩ := ha
  rw [Vui.setLimb_of_lt y hk, Vui.fits_iff]
  refine ⟨hlen, ?_⟩
  obtain ⟨n, hn⟩ := Nat.exists_eq_add_of_lt hk
  have hmod : modulus a.len = 2 ^ (8 * (k + 1)) * 2 ^ (8 * n) := by
    rw [modulus, hn, ← Nat.pow_add, ← Nat.mul_add, Nat.add_right_comm]
  have hmod' : modulus a.len = 256 * 2 ^ (8 * n) * 2 ^ (8 * k) := by
    rw [hmod, Nat.mul_succ, Nat.pow_add]
    ring
  have hhigh : a.val / 2 ^ (8 * (k + 1)) < 2 ^ (8 * n) := Nat.div_lt_of_lt_mul (hmod ▸ hval)
  have hlow : a.val % 2 ^ (8 * k) < 2 ^ (8 * k) := Nat.mod_lt _ (by positivity)
  have hlimb : 256 * (a.val / 2 ^ (8 * (k + 1))) + y.toNat + 1 ≤ 256 * 2 ^ (8 * n) := by
    have := y.isLt
    omega
  calc
    (256 * (a.val / 2 ^ (8 * (k + 1))) + y.toNat) * 2 ^ (8 * k) + a.val % 2 ^ (8 * k)
      < (256 * (a.val / 2 ^ (8 * (k + 1))) + y.toNat + 1) * 2 ^ (8 * k) := by
        rw [Nat.add_one_mul (256 * (a.val / 2 ^ (8 * (k + 1))) + y.toNat)]
        exact Nat.add_lt_add_left hlow _
    _ ≤ 256 * 2 ^ (8 * n) * 2 ^ (8 * k) := Nat.mul_le_mul_right _ hlimb
    _ = modulus a.len := hmod'.symm

/-- A DATA_k write (R61). -/
theorem Vui.setData_fits (k : Nat) (w : Word) (ha : a.fits m = true) : (a.setData k w).fits m = true :=
  Vui.setLimb_fits _ _ (Vui.setLimb_fits _ _ (Vui.setLimb_fits _ _ (Vui.setLimb_fits _ _ ha)))

end results

/-! ## Instructions -/

/-- A next state of the outcome meets the invariant. -/
def AnswersInv (o : Out) : Prop := ∀ t, o = .next t → t.Inv

theorem answersInv_next {s : State} (h : s.Inv) : AnswersInv (.next s) := by
  intro t ht
  cases ht
  exact h

theorem AnswersInv.ite {c : Prop} [Decidable c] {o o' : Out} (h : c → AnswersInv o) (h' : ¬ c → AnswersInv o') :
    AnswersInv (if c then o else o') := iteInduction h h'

section instructions

variable {s : State}

/-- Advancing or setting pc is no concern of the invariant. -/
theorem answersInv_goto (h : s.Inv) (p : PcWord) : AnswersInv (goto p s) :=
  answersInv_next (h.congr rfl rfl rfl rfl rfl rfl rfl)

theorem answersInv_finish (h : s.Inv) : AnswersInv (finish s) := answersInv_goto h _

/-- A write of a pair that fits, with the flags as given. -/
theorem answersInv_writeBack (h : s.Inv) (rd : Reg) {v : Vui} (o c : Bool) (hv : v.fits s.params.maxl = true) :
    AnswersInv (writeBack rd v { s with ovf := o, trunc := c }) :=
  have hflags : { s with ovf := o, trunc := c }.Inv := h.congr rfl rfl rfl rfl rfl rfl rfl
  answersInv_finish (hflags.setX rd v hv)

/-- Fault entry with a cause of R353 to R356. -/
theorem answersInv_raise (h : s.Inv) {cause : BitVec 4} {info : Nat} (i : Instr) (hfault : InstrFault cause info) :
    AnswersInv (raise cause info i s) := by
  obtain ⟨hlow, hhigh, -⟩ := hfault.codes
  have hne : cause ≠ 0#4 := fun hzero => by simp [hzero] at hlow
  exact answersInv_next (h.faultEntry cause (encode i) info hne hhigh)

/-- A store of `n` bytes within DMEM. -/
theorem State.Inv.memWrite (h : s.Inv) {a n : Nat} (v : Nat) (hin : a + n ≤ s.params.dmemBytes) :
    { s with dmem := memWrite s.dmem a n v }.Inv := by
  have hmem := h.2.2.1
  simp only [State.memoriesOk, Bool.and_eq_true] at hmem
  obtain ⟨⟨-, hwf⟩, hwithin⟩ := hmem
  exact h.dmem _ (memWrite_wf _ _ _ _ hwf) (memWrite_within _ _ _ _ _ hwithin hin)

/-- A store of one byte within DMEM is a store of several at length 1. -/
theorem State.Inv.putDmemBit (h : s.Inv) {i : Nat} (b : Nat) (hin : s.bitInDmem i = true) :
    (s.putDmemBit i b).Inv :=
  h.memWrite (n := 1) _ (of_decide_eq_true hin)

theorem Config.one_le_maxl {c : Config} (h : c.legal = true) : 1 ≤ c.maxl := by
  simp only [Config.legal, Bool.and_eq_true, decide_eq_true_eq] at h
  omega

/-- The cases are the instructions by what they write, those with a check apart: each result fits its length. -/
theorem exec_answersInv (h : s.Inv) (hrun : s.runState = .running) (i : Instr) : AnswersInv (exec i s) := by
  have hfits := State.getX_fits h.2.1
  have hlen : ∀ r, (s.getX r).len ≤ s.params.maxl := fun r => ((Vui.fits_iff _ _).1 (hfits r)).1
  have hone := Config.one_le_maxl h.1
  cases i with
  | nop => exact answersInv_finish h
  | halt => exact answersInv_finish (h.enterHalted hrun)
  | jmp => exact answersInv_goto h _
  | bz => exact .ite (fun _ => answersInv_goto h _) (fun _ => answersInv_finish h)
  | bnz => exact .ite (fun _ => answersInv_finish h) (fun _ => answersInv_goto h _)
  | new rd imm =>
    exact .ite (fun _ => answersInv_raise h _ .badWidth) fun hle =>
      answersInv_writeBack h rd _ _ ((Vui.fits_iff _ _).2 ⟨not_lt.1 hle, modulus_pos imm⟩)
  | seti rd imm => exact answersInv_writeBack h rd _ _ (reduce_fits _ (hlen rd))
  | cpy rd rs1 => exact answersInv_writeBack h rd _ _ (hfits rs1)
  | mov rd rs1 => exact answersInv_writeBack h rd _ _ (aluMov_fits (hfits rd) (hfits rs1))
  | maxv rd rs1 => exact answersInv_writeBack h rd _ _ (aluMaxv_fits (hfits rs1))
  | add rd rs1 rs2 | mul rd rs1 rs2 =>
    exact answersInv_writeBack h rd _ _ (reduce_fits _ (wider_le (hlen rs1) (hlen rs2)))
  | sub rd rs1 rs2 => exact answersInv_writeBack h rd _ _ (reduceInt_fits _ (wider_le (hlen rs1) (hlen rs2)))
  | div rd rs1 rs2 =>
    exact .ite (fun _ => answersInv_raise h _ .divByZero) fun _ =>
      answersInv_writeBack h rd _ _ (aluDiv_fits (hfits rs1) (hfits rs2))
  | rem rd rs1 rs2 =>
    exact .ite (fun _ => answersInv_raise h _ .divByZero) fun _ =>
      answersInv_writeBack h rd _ _ (aluRem_fits (hfits rs1) (hfits rs2))
  | neg rd rs1 | dec rd rs1 => exact answersInv_writeBack h rd _ _ (reduceInt_fits _ (hlen rs1))
  | inc rd rs1 => exact answersInv_writeBack h rd _ _ (reduce_fits _ (hlen rs1))
  | and rd rs1 rs2 => exact answersInv_writeBack h rd _ _ (aluAnd_fits (hfits rs1) (hfits rs2))
  | or rd rs1 rs2 => exact answersInv_writeBack h rd _ _ (aluOr_fits (hfits rs1) (hfits rs2))
  | xor rd rs1 rs2 => exact answersInv_writeBack h rd _ _ (aluXor_fits (hfits rs1) (hfits rs2))
  | not rd rs1 => exact answersInv_writeBack h rd _ _ (aluNot_fits (hfits rs1))
  | shl rd rs1 | shli rd rs1 => exact answersInv_writeBack h rd _ _ (aluShl_fits _ (hlen rs1))
  | shr rd rs1 | shri rd rs1 => exact answersInv_writeBack h rd _ _ (aluShr_fits _ (hfits rs1))
  | ceq rd | cne rd | clt rd | cgt rd | cle rd | cge rd => exact answersInv_writeBack h rd _ _ (truth_fits _ hone)
  | bext rd | bexti rd =>
    exact .ite (fun _ => answersInv_writeBack h rd _ _ (oneBit_fits (bitOf_lt _ _) hone))
      fun _ => answersInv_raise h _ (.oobReg _)
  | bgetm rd =>
    exact .ite (fun _ => answersInv_writeBack h rd _ _ (oneBit_fits (bitOf_lt _ _) hone))
      fun _ => answersInv_raise h _ (.oobMem _)
  | bins rd | binsi rd =>
    exact .ite (fun hbit => answersInv_writeBack h rd _ _ (aluBins_fits _ (hfits rd) hbit))
      fun _ => answersInv_raise h _ (.oobReg _)
  | bputm =>
    exact .ite (fun hin => answersInv_finish (h.putDmemBit _ hin)) fun _ => answersInv_raise h _ (.oobMem _)
  | ld rd =>
    exact .ite (fun _ => answersInv_writeBack h rd _ _ ((Vui.fits_iff _ _).2 ⟨hlen rd, memRead_lt _ _ _⟩))
      fun _ => answersInv_raise h _ (.oobMem _)
  | st =>
    exact .ite (fun hin => answersInv_finish (h.memWrite _ (of_decide_eq_true hin)))
      fun _ => answersInv_raise h _ (.oobMem _)

end instructions

/-! ## The engine, the host and the machine -/

section machine

variable {s : State}

theorem engineStep_answersInv (h : s.Inv) : AnswersInv (engineStep s) := by
  rcases engineStep_cases s with ⟨-, hidle⟩ | ⟨hrun, -, hstop⟩ | ⟨-, -, -, hoob⟩ | ⟨hrun, -, -, hword⟩
  · rw [hidle]
    exact answersInv_next h
  · rw [hstop]
    exact answersInv_next (h.enterHalted hrun)
  · rw [hoob]
    exact answersInv_next (h.faultEntry _ _ _ (by decide) (by decide))
  · rw [hword]
    rcases runWord_cases s s.fetched with ⟨i, -, hexec⟩ | ⟨e, -, hillegal⟩
    · rw [hexec]
      exact exec_answersInv h hrun i
    · rw [hillegal]
      exact answersInv_next (h.faultEntry _ _ _ (by decide) (by decide))

/-- A soft reset keeps the memories, which are canonical already (R402). -/
theorem State.Inv.softReset (h : s.Inv) : s.softReset.Inv := by
  have hmem := h.2.2.1
  simp only [State.memoriesOk, Bool.and_eq_true] at hmem
  obtain ⟨⟨⟨himem, hiin⟩, hdmem⟩, hdin⟩ := hmem
  exact (resetWith_inv h.1 ⟨himem, hiin⟩ ⟨hdmem, hdin⟩).congr rfl rfl rfl rfl rfl rfl rfl

theorem State.Inv.hardReset (h : s.Inv) (im : List (Nat × Word)) (dm : List Host.Cell) : (s.hardReset im dm).Inv :=
  (resetWith_inv h.1 (cellsLoad_ok _ im) (cellsLoad_ok _ dm)).congr rfl rfl rfl rfl rfl rfl rfl

theorem State.Inv.writeCtrl (h : s.Inv) (w : Word) : (s.writeCtrl w).Inv := by
  obtain ⟨hparams, hregs, hmem, hcause, hstop⟩ := h
  cases hreset : w.getLsbD 2 with
  | true =>
    rw [s.writeCtrl_reset hreset]
    exact State.Inv.softReset ⟨hparams, hregs, hmem, hcause, hstop⟩
  | false =>
    by_cases hrun : s.runState = .running
    · rw [State.writeCtrl_running hreset hrun]
      exact ⟨hparams, hregs, hmem, hcause, by simp [State.stopOk, State.isRunning, hrun]⟩
    · rw [State.writeCtrl_stopped hreset hrun]
      split
      · exact ⟨hparams, hregs, hmem, rfl, rfl⟩
      · exact ⟨hparams, hregs, hmem, hcause, hstop⟩

/-- A word of DMEM that starts below DMEM_BYTES ends there at the latest, as DMEM_BYTES is a multiple of 4 (R10). -/
theorem Config.word_within {c : Config} (h : c.legal = true) {q : Nat} (hq : 4 * q < c.dmemBytes) :
    4 * q + 4 ≤ c.dmemBytes := by
  simp only [Config.legal, Bool.and_eq_true, decide_eq_true_eq] at h
  omega

theorem State.Inv.imemWrite (h : s.Inv) {p : Nat} (w : Word) (hp : p < s.params.imemWords) :
    { s with imem := cellWrite s.imem p w }.Inv := by
  obtain ⟨hparams, hregs, hmem, hcause, hstop⟩ := h
  refine ⟨hparams, hregs, ?_, hcause, hstop⟩
  simp only [State.memoriesOk, Bool.and_eq_true] at hmem ⊢
  obtain ⟨⟨⟨hwf, hwithin⟩, hdmem⟩, hdin⟩ := hmem
  exact ⟨⟨⟨cellWrite_wf _ p w hwf, cellWrite_within _ _ p w hwithin hp⟩, hdmem⟩, hdin⟩

/-- The cases are the locations the host can write (R54 to R56, R61 to R63); the others ignore it. -/
theorem State.Inv.locWrite (h : s.Inv) (w : Word) (l : HostLoc) : (s.locWrite w l).Inv := by
  cases l with
  | ctrl => exact h.writeCtrl w
  | status | pc => exact h.congr rfl rfl rfl rfl rfl rfl rfl
  | regLen r => exact iteInduction (fun hw => h.setX r _ (Vui.resize_fits hw)) (fun _ => h)
  | regData r k => exact h.setX r _ (Vui.setData_fits k w (State.getX_fits h.2.1 r))
  | imem p => exact iteInduction (fun hp => h.imemWrite w hp) (fun _ => h)
  | dmem q => exact iteInduction (fun hq => h.memWrite _ (Config.word_within h.1 hq)) (fun _ => h)
  | id | cause | faultPc | faultInsn | faultInfo | param0 | param1 | param2 | reserved => exact h

theorem State.Inv.hostWrite (h : s.Inv) (a : HostAddr) (w : Word) : (s.hostWrite a w).Inv := by
  rcases s.hostWrite_cases a w with ⟨-, -, hignored⟩ | hdone
  · rw [hignored]
    exact h
  · rw [hdone]
    exact h.locWrite w _

theorem eventStep_answersInv (h : s.Inv) (e : Event) : AnswersInv (eventStep e s) := by
  cases e with
  | hostRead a => exact answersInv_next (h.congr rfl rfl rfl rfl rfl rfl rfl)
  | hostWrite a w => exact answersInv_next (h.hostWrite a w)
  | engineTurn => exact engineStep_answersInv h
  | hardwareReset im dm => exact answersInv_next (h.hardReset im dm)

end machine

/-- Settles O15: the engine's step and every event answer a state that meets the invariant. -/
theorem stepKeepsTheInvariant : Obligations.StepKeepsTheInvariant := by
  intro s t h hstep
  cases hev : s.events with
  | nil =>
    rw [step_no_event s hev] at hstep
    exact engineStep_answersInv h t hstep
  | cons e rest =>
    rw [step_event s e rest hev] at hstep
    have hrest : { s with events := rest }.Inv := h.congr rfl rfl rfl rfl rfl rfl rfl
    exact eventStep_answersInv hrest e t hstep

end Sys2Proof.Machine
end

section
/-! PROOFS. The step of the machine: it always answers a next state, a running engine's step is the decoded instruction,
and what takes STATE from one value to another, on the engine's side and on the host's (R105, R360, R383, R384, R386). -/

namespace Sys2Proof.Machine

open Sys2Proof Sys2Proof.Laws

/-! ## Every step has a next state -/

/-- However an instruction ends, it ends in a next state. -/
theorem exec_next (i : Instr) (s : State) : ∃ t, exec i s = .next t := by
  have hends := exec_ends i s
  generalize exec i s = o at hends
  cases hends with
  | writes | stores | transfers | halts | faults => exact ⟨_, rfl⟩

theorem engineStep_next (s : State) : ∃ t, engineStep s = .next t := by
  rcases engineStep_cases s with ⟨-, hidle⟩ | ⟨-, -, hstop⟩ | ⟨-, -, -, hoob⟩ | ⟨-, -, -, hword⟩
  · exact ⟨_, hidle⟩
  · exact ⟨_, hstop⟩
  · exact ⟨_, hoob⟩
  · rcases runWord_cases s s.fetched with ⟨i, -, hexec⟩ | ⟨e, -, hillegal⟩
    · rw [hword, hexec]
      exact exec_next i s
    · exact ⟨_, hword.trans hillegal⟩

/-- Settles O9: the engine's step, by its cases, and every event. -/
theorem everyStepHasANextState : Obligations.EveryStepHasANextState := by
  intro s
  cases hev : s.events with
  | nil =>
    rw [step_no_event s hev]
    exact engineStep_next s
  | cons e rest =>
    rw [step_event s e rest hev]
    cases e with
    | engineTurn => exact engineStep_next { s with events := rest }
    | hostRead | hostWrite | hardwareReset => exact ⟨_, rfl⟩

/-! ## The engine's side -/

section engine

variable {s t : State} {i : Instr}

/-- The checks before the decoder passed (R358), a running engine's step runs the fetched word. -/
theorem engineStep_runWord (hrun : s.runState = .running) (hstop : s.stopReq = false)
    (hpc : s.pc.toNat < s.params.imemWords) : engineStep s = runWord s.fetched s := by
  simp [engineStep, State.fetchOob, hrun, hstop, hpc]

theorem runWord_ok {insn : Word} (h : decode insn = .ok i) : runWord insn s = exec i s := by
  simp only [runWord, h]

theorem engineStep_exec (hrun : s.runState = .running) (hstop : s.stopReq = false)
    (hpc : s.pc.toNat < s.params.imemWords) (h : decode s.fetched = .ok i) : engineStep s = exec i s :=
  (engineStep_runWord hrun hstop hpc).trans (runWord_ok h)

theorem engineStep_stop (hrun : s.runState = .running) (hstop : s.stopReq = true) :
    engineStep s = .next s.enterHalted := by
  simp [engineStep, hrun, hstop]

theorem engineStep_idle (hrun : s.runState ≠ .running) : engineStep s = .next s := if_neg hrun

/-- An instruction that a running engine executes never goes to IDLE, and HALT is the one that goes to HALTED
(R331, R360). -/
theorem exec_runState (hrun : s.runState = .running) (h : exec i s = .next t) :
    t.runState ≠ .idle ∧ (t.runState = .halted ↔ i = .halt) := by
  by_cases hhalt : i = .halt
  · subst hhalt
    cases h
    exact ⟨by simp, iff_of_true rfl rfl⟩
  · have hends := exec_ends i s
    rw [h] at hends
    generalize ho : Host.Outcome.next t = o at hends
    cases hends with
    | halts hi => exact absurd hi hhalt
    | faults => cases ho; exact ⟨by simp, iff_of_false (by simp) hhalt⟩
    | writes | stores | transfers =>
      cases ho
      have hkept : s.runState ≠ .idle ∧ s.runState ≠ .halted := by simp [hrun]
      exact ⟨hkept.1, iff_of_false hkept.2 hhalt⟩

/-- The one word that decodes to HALT (R331). -/
theorem decode_eq_halt_iff {w : Word} : decode w = .ok .halt ↔ w = 0x08000000#32 := by
  refine ⟨fun h => (encode_of_decode h).symm, fun h => ?_⟩
  rw [h]
  exact decode_encode (i := .halt) rfl

/-- A fetched word takes a running engine never to IDLE, and to HALTED only if it is HALT's. -/
theorem runWord_runState {insn : Word} (hrun : s.runState = .running) (h : runWord insn s = .next t) :
    t.runState ≠ .idle ∧ (t.runState = .halted ↔ insn = 0x08000000#32) := by
  rw [← decode_eq_halt_iff]
  rcases runWord_cases s insn with ⟨i, hdecode, hexec⟩ | ⟨e, hdecode, hillegal⟩
  · rw [hexec] at h
    rw [hdecode, Except.ok.injEq]
    exact exec_runState hrun h
  · cases hillegal.symm.trans h
    rw [hdecode]
    exact ⟨by simp, by simp⟩

/-- The engine's step of a running engine never goes to IDLE, and goes to HALTED by the stop step or by HALT. -/
theorem engineStep_runState (hrun : s.runState = .running) (h : engineStep s = .next t) :
    t.runState ≠ .idle ∧
      (t.runState = .halted ↔
        s.stopReq = true ∨ (s.pc.toNat < s.params.imemWords ∧ s.fetched = 0x08000000#32)) := by
  rcases engineStep_cases s with ⟨hidle, -⟩ | ⟨-, hreq, hstop⟩ | ⟨-, hreq, hpc, hoob⟩ | ⟨-, hreq, hpc, hword⟩
  · exact absurd hrun hidle
  · cases hstop.symm.trans h
    exact ⟨by simp, iff_of_true rfl (.inl hreq)⟩
  · cases hoob.symm.trans h
    exact ⟨by simp, iff_of_false (by simp) (by simp [hreq, not_lt.2 hpc])⟩
  · simpa [hreq, hpc] using runWord_runState hrun (hword.symm.trans h)

end engine

/-- Settles O5: with no event listed, and with the engine's turn taken off the list. -/
theorem stepRunsTheDecodedInstruction : Obligations.StepRunsTheDecodedInstruction := by
  intro s i hrun hstop hpc hdecode
  refine ⟨fun hev => ?_, fun rest hev => ?_⟩
  · rw [step_no_event s hev]
    exact engineStep_exec hrun hstop hpc hdecode
  · rw [step_event s _ rest hev]
    exact engineStep_exec (s := { s with events := rest }) hrun hstop hpc hdecode

/-- Settles O10: the engine's step from `u`, the state with its turn taken off the list. -/
theorem engineStateTransitions : Obligations.EngineStateTransitions := by
  intro s u t hturn hstep
  rw [step_engineTurnAt s hturn] at hstep
  rw [← hturn.fetched]
  obtain ⟨hstate, hreq, hpc, hparams, -⟩ := hturn.fields
  rw [← hstate, ← hreq, ← hpc, ← hparams]
  refine ⟨fun hidle => ?_, fun hrun => engineStep_runState hrun hstep⟩
  cases (engineStep_idle hidle).symm.trans hstep
  rfl

/-! ## The host's side -/

section host

variable (s : State) (w : Word)

/-- CTRL is open in every STATE (R54). -/
theorem State.hostWrite_ctrl : s.hostWrite 4#18 w = s.writeCtrl w :=
  State.hostWrite_unlocked w (locate_ctrl _ rfl) rfl

/-- Of a CTRL write a soft reset goes to IDLE and an accepted start request to RUNNING (R54, R382, R402). -/
theorem State.writeCtrl_runState :
    (s.writeCtrl w).runState =
      if w.getLsbD 2 then .idle else if w.getLsbD 0 = true ∧ s.runState ≠ .running then .running else s.runState := by
  by_cases hrun : s.runState = .running
  · simpa [hrun] using State.writeCtrl_runState_of_running w hrun
  cases hreset : w.getLsbD 2 with
  | true => simp [s.writeCtrl_reset hreset]
  | false =>
    rw [State.writeCtrl_stopped hreset hrun]
    cases w.getLsbD 0 <;> simp [hrun]

/-- No host write but one of CTRL changes STATE. -/
theorem State.hostWrite_runState_other {a : HostAddr} (ha : a.toNat / 4 ≠ 1) :
    (s.hostWrite a w).runState = s.runState := by
  rcases s.hostWrite_cases a w with ⟨-, -, hignored⟩ | hdone
  · rw [hignored]
  rw [hdone]
  by_cases hs : locate a = .status
  · rw [hs]
    rfl
  · exact (s.locWrite_irq_frame w _ (mt (locate_eq_ctrl_iff a).1 ha) hs).1

theorem State.hostWrite_runState (a : HostAddr) :
    (s.hostWrite a w).runState =
      if a.toNat / 4 = 1 then
        (if w.getLsbD 2 then .idle
         else if w.getLsbD 0 = true ∧ s.runState ≠ .running then .running else s.runState)
      else s.runState := by
  split
  case isTrue hctrl =>
    rw [State.hostWrite_unlocked w (locate_ctrl a hctrl) rfl]
    exact s.writeCtrl_runState w
  case isFalse hother => exact s.hostWrite_runState_other w hother

end host

/-- Settles O11: each event is its operation, and a host write's STATE is that of `State.hostWrite_runState`. -/
theorem hostStateTransitions : Obligations.HostStateTransitions := fun s rest =>
  ⟨fun _ hev => step_event s _ rest hev, fun a w hev => ⟨step_event s _ rest hev, s.hostWrite_runState w a⟩,
    fun _ _ hev => ⟨_, step_event s _ rest hev, rfl, rfl⟩⟩

/-! ## CTRL -/

/-- Settles O7: a stop request to a running and to a stopped engine, and the stop step. -/
theorem stopRequestAndStopStep : Obligations.StopRequestAndStopStep := by
  refine ⟨fun s w hstop hreset => ⟨fun hrun => ?_, fun hidle hstart => ?_⟩, fun s u hturn hrun hreq => ?_⟩
  · rw [s.hostWrite_ctrl, State.writeCtrl_running hreset hrun, hstop, Bool.or_true]
  · rw [s.hostWrite_ctrl, State.writeCtrl_stopped hreset hidle, hstart]
    rfl
  · obtain ⟨hstate, hstopReq, -⟩ := hturn.fields
    rw [step_engineTurnAt s hturn]
    exact engineStep_stop (hstate.trans hrun) (hstopReq.trans hreq)

/-- CTRL reads IRQ_EN in bit 8 and nothing else (R54). -/
theorem State.hostRead_ctrl (s : State) : (s.hostRead 4#18).toNat = if s.irqEn then 2 ^ 8 else 0 := by
  rw [State.hostRead_unlocked (locate_ctrl _ rfl) rfl]
  exact toNat_ofNat32_of_lt ((bitField_le s.irqEn 8).trans_lt (by decide))

/-- Settles O27: bit 0 matters to a stopped engine alone. -/
theorem startRequest : Obligations.StartRequest := by
  refine fun s => ⟨s.hostRead_ctrl, fun w hstop hreset => ?_⟩
  rw [s.hostWrite_ctrl]
  by_cases hrun : s.runState = .running
  · rw [State.writeCtrl_running hreset hrun, hstop, Bool.or_false, if_pos hrun]
    exact ⟨fun _ => rfl, fun _ => rfl⟩
  · rw [State.writeCtrl_stopped hreset hrun, if_neg hrun]
    exact ⟨fun hstart => by rw [hstart]; rfl, fun hstart => if_pos hstart⟩

/-- Settles O28: the STATE before the write says which of the two requests is acted on. -/
theorem startAndStopInOneWrite : Obligations.StartAndStopInOneWrite := by
  intro s w hstart hstop hreset
  rw [s.hostWrite_ctrl]
  split
  case isTrue hrun => rw [State.writeCtrl_running hreset hrun, hstop, Bool.or_true]
  case isFalse hidle => rw [State.writeCtrl_stopped hreset hidle, if_pos hstart]

end Sys2Proof.Machine
end

section
/-! PROOFS. The register window of the host (R61): the LEN word, and the DATA words limb by limb. -/

namespace Sys2Proof.Machine

open Sys2Proof

/-! ## Limbs of a number -/

section limbs

variable (v : Nat)

theorem limbOf_lt (k : Nat) : limbOf v k < 256 := Nat.mod_lt _ (by decide)

/-- The limbs from limb `k` on are those of the number without its low `k` limbs. -/
theorem limbOf_div (k n : Nat) : limbOf (v / 2 ^ (8 * k)) n = limbOf v (k + n) := by
  rw [limbOf, limbOf, Nat.div_div_eq_div_mul, ← Nat.pow_add, ← Nat.mul_add]

/-- The low `k` limbs have their limbs. -/
theorem limbOf_mod {m k : Nat} (h : m < k) : limbOf (v % 2 ^ (8 * k)) m = limbOf v m := by
  obtain ⟨n, rfl⟩ := Nat.exists_eq_add_of_lt h
  have hsplit : 2 ^ (8 * (m + n + 1)) = 2 ^ (8 * m) * 2 ^ (8 * (n + 1)) := by rw [← Nat.pow_add, ← Nat.mul_add]; rfl
  have hbyte : (256 : Nat) ∣ 2 ^ (8 * (n + 1)) := by rw [Nat.mul_succ, Nat.pow_add]; exact Nat.dvd_mul_left _ _
  rw [limbOf, limbOf, hsplit, Nat.mod_mul_right_div_self, Nat.mod_mod_of_dvd _ hbyte]

/-- A number with limb `k` replaced by `y` has that limb and every other as before. -/
theorem limbOf_splice {y : Nat} (k m : Nat) (hy : y < 256) :
    limbOf ((256 * (v / 2 ^ (8 * (k + 1))) + y) * 2 ^ (8 * k) + v % 2 ^ (8 * k)) m =
      if m = k then y else limbOf v m := by
  have hlow : v % 2 ^ (8 * k) < 2 ^ (8 * k) := Nat.mod_lt _ (by positivity)
  generalize hx : (256 * (v / 2 ^ (8 * (k + 1))) + y) * 2 ^ (8 * k) + v % 2 ^ (8 * k) = x
  have hmod : x % 2 ^ (8 * k) = v % 2 ^ (8 * k) := by rw [← hx, Nat.mul_add_mod', Nat.mod_eq_of_lt hlow]
  have hdiv : x / 2 ^ (8 * k) = 256 * (v / 2 ^ (8 * (k + 1))) + y := by
    rw [← hx, Nat.add_comm, Nat.add_mul_div_right _ _ (by positivity), Nat.div_eq_of_lt hlow, Nat.zero_add]
  rcases Nat.lt_trichotomy m k with hlt | rfl | hgt
  · rw [if_neg hlt.ne, ← limbOf_mod x hlt, hmod, limbOf_mod v hlt]
  · rw [if_pos rfl, limbOf, hdiv]
    omega
  · obtain ⟨n, rfl⟩ := Nat.exists_eq_add_of_lt hgt
    have hhigh : x / 2 ^ (8 * (k + 1)) = v / 2 ^ (8 * (k + 1)) := by
      rw [Nat.mul_succ 8 k, Nat.pow_add, ← Nat.div_div_eq_div_mul x, hdiv, Nat.mul_succ 8 k, Nat.pow_add]
      omega
    rw [if_neg hgt.ne', Nat.add_right_comm, ← limbOf_div, hhigh, limbOf_div]

end limbs

/-! ## Limbs of a register -/

section registerLimbs

variable (a : Vui)

/-- A limb that exists is the value's, any other reads 0 (R15, R31). -/
theorem Vui.limb_toNat (k : Nat) : (a.limb k).toNat = if k < a.len then limbOf a.val k else 0 := by
  unfold Vui.limb
  split
  · exact BitVec.toNat_ofNat _ _
  · rfl

@[simp] theorem Vui.setLimb_len (k : Nat) (y : Byte) : (a.setLimb k y).len = a.len := by
  unfold Vui.setLimb
  split <;> rfl

/-- A limb write changes its limb, if that exists, and no other (R61). -/
theorem Vui.limbOf_setLimb (k m : Nat) (y : Byte) :
    limbOf (a.setLimb k y).val m = if m = k ∧ m < a.len then y.toNat else limbOf a.val m := by
  rcases Nat.lt_or_ge k a.len with hk | hk
  · rw [Vui.setLimb_of_lt y hk]
    refine (limbOf_splice a.val k m y.isLt).trans (if_congr ⟨fun h => ⟨h, h ▸ hk⟩, And.left⟩ rfl rfl)
  · rw [Vui.setLimb_of_le y hk, if_neg (by omega)]

/-- Byte j of a DATA_k word is limb 4k+j. -/
theorem Vui.dataWord_byte (k : Nat) {j : Nat} (hj : j < 4) :
    (a.dataWord k).toNat / 2 ^ (8 * j) % 256 = (a.limb (4 * k + j)).toNat := by
  have h0 := (a.limb (4 * k)).isLt
  have h1 := (a.limb (4 * k + 1)).isLt
  have h2 := (a.limb (4 * k + 2)).isLt
  have h3 := (a.limb (4 * k + 3)).isLt
  rw [Vui.dataWord, toNat_ofNat32_of_lt (by omega)]
  obtain rfl | rfl | rfl | rfl : j = 0 ∨ j = 1 ∨ j = 2 ∨ j = 3 := by omega
  · rw [Nat.add_zero (4 * k)]
    omega
  all_goals omega

@[simp] theorem Vui.setData_len (k : Nat) (w : Word) : (a.setData k w).len = a.len := by
  simp only [Vui.setData, Vui.setLimb_len]

theorem byteOf_toNat (w : Word) (j : Nat) : (byteOf w j).toNat = limbOf w.toNat j := BitVec.toNat_ofNat _ _

/-- A DATA_k write changes the limbs 4k to 4k+3 that exist, and no other (R61). -/
theorem Vui.limbOf_setData (k m : Nat) (w : Word) :
    limbOf (a.setData k w).val m =
      if m / 4 = k ∧ m < a.len then limbOf w.toNat (m % 4) else limbOf a.val m := by
  simp only [Vui.setData, Vui.limbOf_setLimb, Vui.setLimb_len, byteOf_toNat]
  by_cases hk : m / 4 = k
  · have hm : m = 4 * k + m % 4 := by omega
    have hr : m % 4 < 4 := Nat.mod_lt _ (by decide)
    generalize m % 4 = j at hm hr
    subst hm
    interval_cases j <;> simp [hk]
  · rw [if_neg (by omega), if_neg (by omega), if_neg (by omega), if_neg (by omega), if_neg (by omega)]

end registerLimbs

/-! ## The window -/

section window

variable (s : State) (r : Reg)

theorem lenAddr_locate : locate (BitVec.ofNat 18 (0x1000 + 0x80 * r.val)) = .regLen r :=
  locate_regLen _ r (by rw [BitVec.toNat_ofNat]; omega)

theorem dataAddr_locate {k : Nat} (hk : k < 16) :
    locate (BitVec.ofNat 18 (0x1000 + 0x80 * r.val + 0x40 + 4 * k)) = .regData r k :=
  locate_regData _ r k hk (by rw [BitVec.toNat_ofNat]; omega)

/-- The words +0x04 to +0x3C of a register. -/
theorem gapAddr_locate {k : Nat} (hlow : 1 ≤ k) (hk : k < 16) :
    locate (BitVec.ofNat 18 (0x1000 + 0x80 * r.val + 4 * k)) = .reserved := by
  have haddr : (BitVec.ofNat 18 (0x1000 + 0x80 * r.val + 4 * k)).toNat = 0x1000 + 0x80 * r.val + 4 * k := by
    rw [BitVec.toNat_ofNat]
    omega
  exact locate_reserved_reg _ (by omega) (by omega) (by omega) (by omega)

theorem keepsNonRegs_refl : KeepsNonRegs s s :=
  ⟨rfl, rfl, rfl, fun _ => rfl, ⟨rfl, rfl, rfl⟩, rfl, rfl, rfl, rfl, rfl, rfl, rfl, rfl, rfl⟩

theorem State.setX_keepsNonRegs (v : Vui) : KeepsNonRegs s (s.setX r v) :=
  ⟨rfl, rfl, rfl, fun _ => rfl, ⟨rfl, rfl, rfl⟩, rfl, rfl, rfl, rfl, rfl, rfl, rfl, rfl, rfl⟩

/-- Writing nothing is writing to a register what it holds. -/
theorem writesOnly_refl : WritesOnly s s r (s.getX r) := by
  refine ⟨?_, fun _ _ => rfl⟩
  split
  case isTrue hzero => rw [hzero]; rfl
  case isFalse => rfl

/-- A LEN write is accepted up to MAXL and ignored above it (R61). -/
theorem State.locWrite_regLen (w : Word) :
    WritesOnly s (s.locWrite w (.regLen r)) r
        (if w.toNat ≤ s.params.maxl then { len := w.toNat, val := (s.getX r).val % 2 ^ (8 * w.toNat) } else s.getX r) ∧
      KeepsNonRegs s (s.locWrite w (.regLen r)) := by
  rw [State.locWrite]
  split
  case isTrue => exact ⟨State.setX_writesOnly s r _, s.setX_keepsNonRegs r _⟩
  case isFalse => exact ⟨writesOnly_refl s r, keepsNonRegs_refl s⟩

end window

/-- Settles O21: a legal length fits the 7 bits that LEN reads. -/
theorem registerLenWindow : Obligations.RegisterLenWindow := by
  intro s r w hinv hstopped
  rw [State.hostRead_stopped (lenAddr_locate r) hstopped, State.hostWrite_stopped w (lenAddr_locate r) hstopped]
  refine ⟨?_, s.locWrite_regLen r w⟩
  have hfits := ((Vui.fits_iff _ _).1 (State.getX_fits hinv.2.1 r)).1
  have hmaxl := (Config.legal_bounds hinv.1).1
  have hlen : (s.getX r).len % 2 ^ 7 = (s.getX r).len := Nat.mod_eq_of_lt (by omega)
  rw [State.locRead, hlen]
  exact toNat_ofNat32_of_lt (by omega)

/-- Settles O22: a DATA word is four limbs, and the words before them name nothing. -/
theorem registerDataWindow : Obligations.RegisterDataWindow := by
  intro s r k w _ hstopped hk
  have ha := dataAddr_locate r hk
  dsimp only
  rw [State.hostRead_stopped ha hstopped, State.hostWrite_stopped w ha hstopped, State.locRead, State.locWrite]
  refine ⟨fun j hj => ?_, fun hr => ?_, fun q hq => ?_, s.setX_keepsNonRegs r _, fun hlow => ?_⟩
  · rw [Vui.dataWord_byte _ k hj, Vui.limb_toNat]
    rfl
  · rw [State.getX_setX_same s _ hr]
    exact ⟨Vui.setData_len _ k w, fun m _ => Vui.limbOf_setData _ k m w⟩
  · rw [State.getX_setX, if_neg fun hwritten => hq.elim (· hwritten.1) hwritten.2]
  · exact State.host_reserved w (gapAddr_locate r hlow hk)

end Sys2Proof.Machine
end

section
/-! PROOFS. Two consequences of the instructions' rules: the ends of a register count (R287), and a load after a store of
another width (R73). -/

namespace Sys2Proof.Machine

open Sys2Proof

/-! ## The ends of a shift count -/

/-- Settles O54: the laws of the shifts at a power that the modulus divides, that exceeds the operand, and at 1. -/
theorem shiftCountEnds : Obligations.ShiftCountEnds := by
  intro s rd rs1 rs2 hfits
  have hshl := writeBack_aluShl_completes s rd (s.getX rs1) (s.getX rs2).val
  have hshr := writeBack_aluShr_completes s rd (s.getX rs1) (s.getX rs2).val
  refine ⟨fun hbig => ?_, fun hzero => ?_⟩
  · have hdvd : 2 ^ (8 * (s.getX rs1).len) ∣ (s.getX rs1).val * 2 ^ (s.getX rs2).val :=
      (Nat.pow_dvd_pow 2 hbig).mul_left _
    have hlt : (s.getX rs1).val < 2 ^ (s.getX rs2).val := hfits.trans_le (Nat.pow_le_pow_right two_pos hbig)
    rw [Nat.mod_eq_zero_of_dvd hdvd] at hshl
    rw [Nat.div_eq_of_lt hlt] at hshr
    exact ⟨hshl, hshr⟩
  · rw [hzero, Nat.pow_zero, Nat.mul_one, Nat.mod_eq_of_lt hfits, ← hzero] at hshl
    rw [hzero, Nat.pow_zero, Nat.div_one, ← hzero] at hshr
    exact ⟨hshl, hshr⟩

/-! ## A load after a store -/

section loadAfterStore

variable {s : State} {rs1 : Reg} {imm : Nat}

/-- A store within DMEM, as the state it answers. -/
theorem exec_st_next {t : State} {rt : Reg} (hin : (s.getX rs1).val + imm + (s.getX rt).len ≤ s.params.dmemBytes)
    (h : exec (.st rt rs1 imm) s = .next t) :
    t = { s with
      dmem := memWrite s.dmem ((s.getX rs1).val + imm) (s.getX rt).len (s.getX rt).val, pc := s.pc + 1#16 } := by
  rw [exec_st, State.ea, if_pos ((s.inDmem_iff _ _).2 (not_lt.2 hin))] at h
  exact finish_next h

/-- A load within DMEM into a register other than x0 keeps its length and reads the bytes. -/
theorem exec_ld_completes {rd : Reg} (hrd : rd ≠ 0)
    (hin : (s.getX rs1).val + imm + (s.getX rd).len ≤ s.params.dmemBytes) :
    ∃ u, exec (.ld rd rs1 imm) s = .next u ∧
      u.getX rd =
        { len := (s.getX rd).len, val := memRead s.dmem ((s.getX rs1).val + imm) (s.getX rd).len } := by
  rw [exec_ld, State.ea, if_pos ((s.inDmem_iff _ _).2 (not_lt.2 hin))]
  exact ⟨_, rfl, getX_of_writeBack rfl hrd⟩

end loadAfterStore

/-- Byte k of a read of `m` bytes where `n` bytes of `v` were written: the written one below `n`, the old one beyond. -/
theorem memRead_memWrite_byte {dm : List Host.Cell} (hwf : Memory.wf dm = true) (addr n v : Nat) {m k : Nat}
    (hk : k < m) :
    memRead (memWrite dm addr n v) addr m / 2 ^ (8 * k) % 256 =
      if k < n then v / 2 ^ (8 * k) % 256 else (cellRead dm (addr + k)).toNat := by
  refine (memRead_byte _ addr m k hk).trans ?_
  split
  case isTrue hin => rw [cellRead_memWrite_inside dm addr n v k hwf hin, BitVec.toNat_ofNat]
  case isFalse hout => rw [cellRead_memWrite_outside dm addr n v _ (by omega)]

/-- Settles O57: the store leaves every register, so the load is at the same address. -/
theorem storeThenLoad : Obligations.StoreThenLoad := by
  intro s t rt rd rs1 imm hwf hrd hst hld h
  obtain rfl := exec_st_next hst h
  obtain ⟨u, hu, hread⟩ := exec_ld_completes (s := { s with
    dmem := memWrite s.dmem ((s.getX rs1).val + imm) (s.getX rt).len (s.getX rt).val, pc := s.pc + 1#16 })
    (rs1 := rs1) (imm := imm) hrd hld
  refine ⟨u, hu, by rw [hread]; rfl, fun k hk => ?_⟩
  rw [hread]
  exact memRead_memWrite_byte hwf _ _ _ hk

end Sys2Proof.Machine
end

section
/-! PROOFS. The source's datapaths compute the laws (R140, R141, R201, R204, R205, R211, R216, R250, R254, R284, R285): each
loop by induction over its limbs, bits or passes, with what it keeps on the way. -/

namespace Sys2Proof.Machine

open Sys2Proof

/-! ## Limb lists -/

section limbLists

/-- One more limb multiplies the modulus by 256. -/
theorem two_pow_limb_succ (W : Nat) : 2 ^ (8 * (W + 1)) = 256 * 2 ^ (8 * W) := by
  rw [Nat.mul_succ, Nat.pow_add, Nat.mul_comm]

theorem div_limb_lt {W v : Nat} (h : v < 2 ^ (8 * (W + 1))) : v / 256 < 2 ^ (8 * W) :=
  Nat.div_lt_of_lt_mul (two_pow_limb_succ W ▸ h)

/-- The limbs of a number give back the number, modulo their modulus (R15). -/
theorem ofLimbs_toLimbs (W v : Nat) : ofLimbs (toLimbs W v) = v % 2 ^ (8 * W) := by
  induction W generalizing v with
  | zero => simp [toLimbs, ofLimbs, Nat.mod_one]
  | succ W ih => rw [toLimbs, ofLimbs, ih, two_pow_limb_succ, Nat.mod_mul]

theorem ofLimbs_toLimbs_of_lt {W v : Nat} (h : v < 2 ^ (8 * W)) : ofLimbs (toLimbs W v) = v := by
  rw [ofLimbs_toLimbs, Nat.mod_eq_of_lt h]

end limbLists

/-! ## Addition -/

/-- The ripple carry keeps the sum: its limbs, with the carry out above them, are `a + b + c`. -/
theorem rippleCarry_sum {W a b : Nat} (c : Nat) (ha : a < 2 ^ (8 * W)) (hb : b < 2 ^ (8 * W)) :
    ofLimbs (rippleCarry (toLimbs W a) (toLimbs W b) c).1 +
        2 ^ (8 * W) * (rippleCarry (toLimbs W a) (toLimbs W b) c).2 = a + b + c ∧
      ofLimbs (rippleCarry (toLimbs W a) (toLimbs W b) c).1 < 2 ^ (8 * W) := by
  induction W generalizing a b c with
  | zero =>
    have ha0 : a = 0 := by simpa using ha
    have hb0 : b = 0 := by simpa using hb
    simp [toLimbs, rippleCarry, ofLimbs, ha0, hb0]
  | succ W ih =>
    obtain ⟨hsum, hlt⟩ := ih ((a % 256 + b % 256 + c) / 256) (div_limb_lt ha) (div_limb_lt hb)
    simp only [toLimbs, rippleCarry, ofLimbs, two_pow_limb_succ, Nat.mul_assoc]
    omega

/-- Settles O31: the carry out is what the modulus takes from the sum. -/
theorem rippleCarryAdds : Obligations.RippleCarryAdds := by
  intro W a b ha hb
  obtain ⟨hsum, hlt⟩ := rippleCarry_sum 0 ha hb
  generalize rippleCarry (toLimbs W a) (toLimbs W b) 0 = r at hsum hlt
  rw [Nat.add_zero] at hsum
  refine ⟨?_, ?_⟩
  · rw [← hsum, Nat.add_mul_mod_self_left, Nat.mod_eq_of_lt hlt]
  · have hcarry : r.2 = (a + b) / 2 ^ (8 * W) := by
      rw [← hsum, Nat.add_mul_div_left _ _ (by positivity), Nat.div_eq_of_lt hlt, Nat.zero_add]
    rw [hcarry]
    split
    case isTrue hbig => exact Nat.div_eq_of_lt_le (by omega) (by omega)
    case isFalse hsmall => exact Nat.div_eq_of_lt (not_le.1 hsmall)

/-! ## Comparison -/

/-- A number is its top limb above the limbs below it. -/
theorem mod_limb_succ (v k : Nat) : v % 2 ^ (8 * (k + 1)) = v % 2 ^ (8 * k) + 2 ^ (8 * k) * limbOf v k := by
  rw [two_pow_limb_succ, Nat.mul_comm, Nat.mod_mul, limbOf]

/-- The less-than scan over `k` limbs decides the order of the numbers' low `k` limbs: the highest limb that differs
decides, wherever the scan has come down to. -/
theorem lessScan_eq (a b k : Nat) : lessScan a b k = decide (a % 2 ^ (8 * k) < b % 2 ^ (8 * k)) := by
  induction k with
  | zero => simp [lessScan, Nat.mod_one]
  | succ k ih =>
    have ha : a % 2 ^ (8 * k) < 2 ^ (8 * k) := Nat.mod_lt _ (by positivity)
    have hb : b % 2 ^ (8 * k) < 2 ^ (8 * k) := Nat.mod_lt _ (by positivity)
    rw [lessScan, ih, mod_limb_succ a, mod_limb_succ b]
    generalize 2 ^ (8 * k) = P at ha hb
    generalize a % P = x at ha
    generalize b % P = y at hb
    rcases Nat.lt_trichotomy (limbOf a k) (limbOf b k) with hlt | heq | hgt
    · have hmul : P * limbOf a k + P ≤ P * limbOf b k := Nat.mul_le_mul_left P hlt
      rw [if_pos hlt.ne, decide_eq_decide]
      omega
    · rw [if_neg (not_not.2 heq), heq, decide_eq_decide]
      omega
    · have hmul : P * limbOf b k + P ≤ P * limbOf a k := Nat.mul_le_mul_left P hgt
      rw [if_pos hgt.ne', decide_eq_decide]
      omega

theorem lessScan_of_lt {a b k : Nat} (ha : a < 2 ^ (8 * k)) (hb : b < 2 ^ (8 * k)) :
    lessScan a b k = decide (a < b) := by
  rw [lessScan_eq, Nat.mod_eq_of_lt ha, Nat.mod_eq_of_lt hb]

/-- The extra limbs of the longer operand are all zero exactly for the number 0. -/
theorem all_zero_toLimbs {L v : Nat} (h : v < 2 ^ (8 * L)) :
    ((toLimbs L v).all fun x => decide (x = 0)) = decide (v = 0) := by
  induction L generalizing v with
  | zero => simpa [toLimbs] using h
  | succ L ih =>
    rw [toLimbs, List.all_cons, ih (div_limb_lt h), ← Bool.decide_and, decide_eq_decide]
    omega

theorem equalScan_toLimbs {L M a b : Nat} (ha : a < 2 ^ (8 * L)) (hb : b < 2 ^ (8 * M)) :
    equalScan (toLimbs L a) (toLimbs M b) = decide (a = b) := by
  induction L generalizing M a b with
  | zero =>
    have ha0 : a = 0 := by simpa using ha
    rw [ha0, toLimbs, equalScan, all_zero_toLimbs hb, decide_eq_decide]
    exact eq_comm
  | succ L ih =>
    cases M with
    | zero =>
      have hb0 : b = 0 := by simpa using hb
      rw [hb0, ← all_zero_toLimbs ha]
      rfl
    | succ M =>
      rw [toLimbs, toLimbs, equalScan, ih (div_limb_lt ha) (div_limb_lt hb), ← Bool.decide_and, decide_eq_decide]
      omega

/-- Settles O35: both operands fit the wider length. -/
theorem comparisonScansDecide : Obligations.ComparisonScansDecide := by
  intro L M a b ha hb
  refine ⟨equalScan_toLimbs ha hb, lessScan_of_lt ?_ ?_⟩
  · exact ha.trans_le (modulus_mono (Nat.le_max_left L M))
  · exact hb.trans_le (modulus_mono (Nat.le_max_right L M))

/-! ## Subtraction -/

/-- R205's walk takes 1 from a number that is not 0. -/
theorem borrowWalk_toLimbs {W v : Nat} (hpos : 0 < v) (h : v < 2 ^ (8 * W)) :
    borrowWalk (toLimbs W v) = toLimbs W (v - 1) := by
  induction W generalizing v with
  | zero => simp at h; omega
  | succ W ih =>
    rw [toLimbs, toLimbs]
    cases hx : v % 256 with
    | zero =>
      have hlimb : (v - 1) % 256 = 255 := by omega
      have hrest : (v - 1) / 256 = v / 256 - 1 := by omega
      rw [borrowWalk, ih (by omega) (div_limb_lt h), hlimb, hrest]
    | succ x =>
      have hlimb : (v - 1) % 256 = x := by omega
      have hrest : (v - 1) / 256 = v / 256 := by omega
      rw [borrowWalk, hlimb, hrest]

/-- What is left of the minuend stays at least what is left of the subtrahend, also after a borrow. -/
theorem rippleBorrow_sub {W a b : Nat} (hle : b ≤ a) (ha : a < 2 ^ (8 * W)) :
    ofLimbs (rippleBorrow (toLimbs W a) (toLimbs W b)) = a - b := by
  induction W generalizing a b with
  | zero =>
    have ha0 : a = 0 := by simpa using ha
    simp [toLimbs, rippleBorrow, ofLimbs, ha0]
  | succ W ih =>
    have hrest := div_limb_lt ha
    rw [toLimbs, toLimbs, rippleBorrow]
    split
    case isTrue hborrow =>
      rw [borrowWalk_toLimbs (by omega) hrest, ofLimbs, ih (by omega) (by omega)]
      omega
    case isFalse hno =>
      rw [ofLimbs, ih (by omega) hrest]
      omega

/-- The two cases of R204: below 0 the difference wraps from the top. -/
theorem twoCaseSub_eq {W a b : Nat} (ha : a < 2 ^ (8 * W)) (hb : b < 2 ^ (8 * W)) :
    twoCaseSub W a b = if a < b then 2 ^ (8 * W) - (b - a) else a - b := by
  rw [twoCaseSub, lessScan_of_lt ha hb, modulus]
  by_cases hlt : a < b
  · rw [if_pos (decide_eq_true hlt), if_pos hlt, rippleBorrow_sub hlt.le hb]
    omega
  · rw [if_neg (by simpa using hlt), if_neg hlt, rippleBorrow_sub (not_lt.1 hlt) ha]

/-- Settles O32: the difference is a natural number, or becomes one by adding the modulus. -/
theorem rippleBorrowSubtracts : Obligations.RippleBorrowSubtracts := by
  intro W a b ha hb
  refine ⟨fun hle => rippleBorrow_sub hle ha, ?_⟩
  rw [twoCaseSub_eq ha hb]
  split
  case isTrue hlt =>
    rw [← Int.add_emod_right, Int.emod_eq_of_lt (by omega) (by omega)]
    omega
  case isFalse hle =>
    rw [Int.emod_eq_of_lt (by omega) (by omega)]
    omega

/-! ## Multiplication -/

/-- Every pass of R211 keeps `acc + h x d` modulo `m`, and the passes are enough for `h`. -/
theorem doubleAndAdd_eq {m fuel h : Nat} (d acc : Nat) (hpos : 0 < h) (hfuel : h < 2 ^ fuel) :
    doubleAndAdd m fuel h d acc = (acc + h * d) % m := by
  induction fuel generalizing h d acc with
  | zero => simp at hfuel; omega
  | succ fuel ih =>
    rw [doubleAndAdd]
    by_cases hone : h = 1
    · simp [hone]
    have hhalf : h / 2 < 2 ^ fuel := Nat.div_lt_of_lt_mul (by rwa [Nat.mul_comm, ← Nat.pow_succ])
    simp only [if_neg hone]
    rw [ih _ _ (by omega) hhalf, Nat.add_mod, Nat.mul_mod_mod, ← Nat.add_mod, ← Nat.mul_assoc]
    have hsplit := Nat.div_add_mod h 2
    rcases Nat.mod_two_eq_zero_or_one h with heven | hodd
    · rw [heven, Nat.add_zero] at hsplit
      rw [if_neg (by omega), Nat.mul_comm _ 2, hsplit]
    · rw [hodd] at hsplit
      rw [if_pos hodd, Nat.mod_add_mod, Nat.mul_comm _ 2, Nat.add_assoc, Nat.add_comm d, ← Nat.succ_mul,
        Nat.succ_eq_add_one, hsplit]

theorem shiftAndAddMul_eq {W a : Nat} (b : Nat) (ha : a < 2 ^ (8 * W)) :
    shiftAndAddMul W a b = a * b % 2 ^ (8 * W) := by
  rw [shiftAndAddMul]
  split
  case isTrue hzero => rcases hzero with rfl | rfl <;> simp
  case isFalse hne =>
    rw [doubleAndAdd_eq b 0 (Nat.pos_of_ne_zero fun h0 => hne (.inl h0)) ha, Nat.zero_add, modulus]

/-- Settles O33: only the halved operand has to fit the width. -/
theorem doubleAndAddMultiplies : Obligations.DoubleAndAddMultiplies := by
  intro W a b ha hb
  refine ⟨shiftAndAddMul_eq b ha, ?_⟩
  rw [shiftAndAddMul_eq a hb, Nat.mul_comm]

/-! ## Division -/

/-- Setting a bit of a number that has only higher bits adds its power. -/
theorem setBitOf_one_of_dvd {q k : Nat} (h : 2 ^ (k + 1) ∣ q) : setBitOf q k 1 = q + 2 ^ k := by
  obtain ⟨c, rfl⟩ := h
  have hlt : 2 ^ k < 2 ^ (k + 1) := Nat.pow_lt_pow_right (by decide) (by omega)
  have hbit : (2 ^ (k + 1) * c) &&& 2 ^ k = 0 := by
    rw [Nat.and_two_pow, Nat.testBit_two_pow_mul]
    simp
  rw [setBitOf, hbit, Nat.xor_zero, Nat.one_mul, Nat.two_pow_add_eq_or_of_lt hlt]

/-- The loop of R216 over the low `k` bits of the dividend divides the remainder so far followed by these bits. -/
theorem restoringLoop_eq {a b k q r : Nat} (hr : r < b) (hq : 2 ^ k ∣ q) :
    restoringLoop a b k q r = (q + (r * 2 ^ k + a % 2 ^ k) / b, (r * 2 ^ k + a % 2 ^ k) % b) := by
  induction k generalizing q r with
  | zero => simp [restoringLoop, Nat.mod_one, Nat.div_eq_of_lt hr, Nat.mod_eq_of_lt hr]
  | succ k ih =>
    have hbit := bitOf_lt a k
    have hq' : 2 ^ k ∣ q := (Nat.pow_dvd_pow 2 (Nat.le_succ k)).trans hq
    have hstep : r * 2 ^ (k + 1) + a % 2 ^ (k + 1) = (2 * r + bitOf a k) * 2 ^ k + a % 2 ^ k := by
      rw [Nat.pow_succ, Nat.mod_mul, ← bitOf]
      ring
    rw [restoringLoop, hstep]
    split
    case isTrue hge =>
      have hsplit : (2 * r + bitOf a k) * 2 ^ k + a % 2 ^ k =
          (2 * r + bitOf a k - b) * 2 ^ k + a % 2 ^ k + b * 2 ^ k := by
        conv_lhs => rw [← Nat.sub_add_cancel hge]
        ring
      rw [setBitOf_one_of_dvd hq, ih (by omega) (hq'.add (Nat.dvd_refl _)), hsplit,
        Nat.add_mul_div_left _ _ (by omega), Nat.add_mul_mod_self_left, Nat.add_assoc, Nat.add_comm (2 ^ k)]
    case isFalse hlt => rw [ih (not_le.1 hlt) hq']

theorem restoringDivide_eq {L a b : Nat} (ha : a < 2 ^ (8 * L)) (hb : 0 < b) :
    restoringDivide L a b = (a / b, a % b) := by
  rw [restoringDivide, restoringLoop_eq hb (Nat.dvd_zero _), Nat.mod_eq_of_lt ha, Nat.zero_mul, Nat.zero_add,
    Nat.zero_add]

/-- Settles O34: the dividend fits every wider width. -/
theorem restoringDividerDivides : Obligations.RestoringDividerDivides := fun _ _ _ _ ha hLW hb =>
  ⟨restoringDivide_eq ha hb, restoringDivide_eq (ha.trans_le (modulus_mono hLW)) hb⟩

/-! ## Shifts -/

/-- A left step doubles the number and takes in the bit `c`, within its limbs. -/
theorem shlStep_toLimbs {c : Nat} (L v : Nat) (hc : c < 2) : shlStep c (toLimbs L v) = toLimbs L (2 * v + c) := by
  induction L generalizing v c with
  | zero => rfl
  | succ L ih =>
    rw [toLimbs, toLimbs, shlStep, ih _ (by omega)]
    congr 2 <;> omega

/-- A right step halves a number that fits its limbs. -/
theorem shrStep_toLimbs {L v : Nat} (h : v < 2 ^ (8 * L)) : shrStep (toLimbs L v) = toLimbs L (v / 2) := by
  induction L generalizing v with
  | zero => rfl
  | succ L ih =>
    have hrest := div_limb_lt h
    have hhead : (toLimbs L (v / 256)).headD 0 = v / 256 % 256 := by
      cases L with
      | zero => simp at hrest; simp [toLimbs]; omega
      | succ L => rfl
    rw [toLimbs, toLimbs, shrStep, ih hrest, hhead]
    congr 2 <;> omega

theorem repeatStep_shlStep (L v n : Nat) : repeatStep (shlStep 0) n (toLimbs L v) = toLimbs L (v * 2 ^ n) := by
  induction n generalizing v with
  | zero => rw [repeatStep, Nat.pow_zero, Nat.mul_one]
  | succ n ih =>
    rw [repeatStep, shlStep_toLimbs L v two_pos, ih, Nat.add_zero, Nat.mul_comm 2, Nat.mul_assoc, ← Nat.pow_succ']

theorem repeatStep_shrStep {L v : Nat} (n : Nat) (h : v < 2 ^ (8 * L)) :
    repeatStep shrStep n (toLimbs L v) = toLimbs L (v / 2 ^ n) := by
  induction n generalizing v with
  | zero => rw [repeatStep, Nat.pow_zero, Nat.div_one]
  | succ n ih =>
    rw [repeatStep, shrStep_toLimbs h, ih ((Nat.div_le_self v 2).trans_lt h), Nat.div_div_eq_div_mul, ← Nat.pow_succ']

/-- Settles O36: the steps on limb lists are doublings and halvings of the number. -/
theorem repeatedShiftStepsShift : Obligations.RepeatedShiftStepsShift := by
  intro L v n hv
  rw [repeatStep_shlStep, repeatStep_shrStep n hv, ofLimbs_toLimbs,
    ofLimbs_toLimbs_of_lt ((Nat.div_le_self v _).trans_lt hv)]
  exact ⟨rfl, rfl⟩

/-! ## The bit accessor -/

/-- Limb `k` of a limb list is the number's (R15). -/
theorem getD_toLimbs {L k : Nat} (v : Nat) (hk : k < L) : (toLimbs L v).getD k 0 = limbOf v k := by
  induction L generalizing v k with
  | zero => omega
  | succ L ih =>
    rw [toLimbs]
    cases k with
    | zero => simp [limbOf]
    | succ k =>
      rw [List.getD_cons_succ, ih _ (by omega), Nat.add_comm]
      exact limbOf_div v 1 k

theorem limbOf_testBit (v k j : Nat) : (limbOf v k).testBit j = (decide (j < 8) && v.testBit (8 * k + j)) := by
  rw [limbOf, show 256 = 2 ^ 8 from rfl, Nat.testBit_mod_two_pow, Nat.testBit_div_two_pow, Nat.add_comm j]

/-- getBit of the limbs is the number's bit. -/
theorem bufGetBit_toLimbs {L i : Nat} (v : Nat) (hi : i < 8 * L) : bufGetBit (toLimbs L v) i = (v.testBit i).toNat := by
  have hj : i % 8 < 8 := Nat.mod_lt _ (by decide)
  rw [bufGetBit, getD_toLimbs v (by omega), bitOf_eq_testBit, limbOf_testBit, Nat.div_add_mod, decide_eq_true hj,
    Bool.true_and]

/-- A bit set in limb 0 is set there and leaves the limbs above. -/
theorem setBitOf_low {v i b : Nat} (hi : i < 8) (hb : b < 2) :
    setBitOf v i b % 256 = setBitOf (v % 256) i b ∧ setBitOf v i b / 256 = v / 256 := by
  refine ⟨Nat.eq_of_testBit_eq fun j => ?_, Nat.eq_of_testBit_eq fun j => ?_⟩
  · rw [show 256 = 2 ^ 8 from rfl, Nat.testBit_mod_two_pow, setBitOf_testBit _ _ _ _ hb, setBitOf_testBit _ _ _ _ hb,
      Nat.testBit_mod_two_pow]
    by_cases hj : j = i
    · simp [hj, hi]
    · simp [hj]
  · rw [show 256 = 2 ^ 8 from rfl, Nat.testBit_div_two_pow, Nat.testBit_div_two_pow, setBitOf_testBit _ _ _ _ hb,
      if_neg (by omega)]

/-- A bit set above limb 0 leaves limb 0 and is set in the limbs above. -/
theorem setBitOf_high (v i : Nat) {b : Nat} (hb : b < 2) :
    setBitOf v (i + 8) b % 256 = v % 256 ∧ setBitOf v (i + 8) b / 256 = setBitOf (v / 256) i b := by
  refine ⟨Nat.eq_of_testBit_eq fun j => ?_, Nat.eq_of_testBit_eq fun j => ?_⟩
  · rw [show 256 = 2 ^ 8 from rfl, Nat.testBit_mod_two_pow, Nat.testBit_mod_two_pow, setBitOf_testBit _ _ _ _ hb]
    by_cases hj : j < 8
    · rw [if_neg (by omega)]
    · simp [hj]
  · rw [show 256 = 2 ^ 8 from rfl, Nat.testBit_div_two_pow, setBitOf_testBit _ _ _ _ hb, setBitOf_testBit _ _ _ _ hb,
      Nat.testBit_div_two_pow]
    simp only [Nat.add_right_cancel_iff]

/-- setBit on the limbs is setting the number's bit. -/
theorem bufSetBit_toLimbs {L i b : Nat} (v : Nat) (hi : i < 8 * L) (hb : b < 2) :
    bufSetBit (toLimbs L v) i b = toLimbs L (setBitOf v i b) := by
  induction L generalizing v i with
  | zero => omega
  | succ L ih =>
    rcases Nat.lt_or_ge i 8 with hlow | hhigh
    · obtain ⟨hmod, hdiv⟩ := setBitOf_low (v := v) hlow hb
      rw [toLimbs, toLimbs, hmod, hdiv, bufSetBit, Nat.div_eq_of_lt hlow, Nat.mod_eq_of_lt hlow]
      rfl
    · obtain ⟨j, rfl⟩ := Nat.exists_eq_add_of_le' hhigh
      obtain ⟨hmod, hdiv⟩ := setBitOf_high v j hb
      rw [toLimbs, toLimbs, hmod, hdiv, ← ih (v / 256) (by omega), bufSetBit, Nat.add_div_right j (by decide),
        Nat.add_mod_right]
      rfl

/-- Settles O37: on limbs the accessor is the number's own bit. -/
theorem bufferBitsAreValueBits : Obligations.BufferBitsAreValueBits := by
  intro L v i b hv hi hb
  have hlt := setBitOf_lt v i b (8 * L) hv hi hb
  rw [bufSetBit_toLimbs v hi hb, ofLimbs_toLimbs_of_lt hlt]
  exact ⟨bufGetBit_toLimbs v hi, hlt, fun j => setBitOf_testBit v i b j hb⟩

end Sys2Proof.Machine
end
